-- ==== Sys2Proof/Word.lean ====
section
/-! DEFINITION. The two word types of the block (20_memory.md R71, R72; 00_scope.md R7). -/

namespace Sys2Proof

/-- One byte of system memory or of a bus frame. -/
abbrev Byte := BitVec 8

/-- A 32-bit register value or a binary32 pattern (00_scope.md R7, R12). -/
abbrev Word := BitVec 32

end Sys2Proof
end

