-- ==== Sys2Proof/Config.lean ====
section
/-! DEFINITION. What this hardware fixes (00_scope.md R7; 10_state.md R31). The open parameters REG_BASE and BUS_ERR
are arguments of the model and stand in the state (Machine/State.lean, `Platform`). -/

namespace Sys2Proof.Config

/-- LANES (R7): the lane count of the datapath. -/
def lanes : Nat := 8

/-- COEF_DEPTH (R7, R47): binary32 entries of the coefficient RAM of this hardware. -/
abbrev coefDepth : Nat := 256

/-- The constant the ID register reads (R31). -/
def idWord : Word := 0x46495238#32

/-- Bytes of system memory, 2^ADDR_W (R7, R70). -/
def memoryBytes : Nat := 4294967296

/-- Bytes of the register window (R70). -/
def windowBytes : Nat := 64

/-- What a byte of system memory reads as when no cell is listed for it. DESIGN CHOICE (log 7), unsafe: the spec does
not give the contents of memory at power-on. -/
def unlistedByte : Byte := 0x00#8

end Sys2Proof.Config
end

