-- ==== Sys2Proof/Syntax.lean ====
section
/-! DEFINITION. The instructions: one constructor for each row of spec/opcode_table.json, and the commands the engine
decodes (30_encoding.md R100 to R111). -/

namespace Sys2Proof

/-- One row of the opcode table. `v` is the data word of a write; `i` says which of the four reserved offsets
0x30 + 4·i is addressed. A data word of CMD that is one of the two commands is that command's own row (log 3). -/
inductive Instr
  | convScalar
  | convVector
  | rdId
  | wrId (v : Word)
  | rdCaps
  | wrCaps (v : Word)
  | rdCtrl
  | wrCtrl (v : Word)
  | rdStatus
  | wrStatus (v : Word)
  | rdCmd
  | wrCmd (v : Word)
  | rdXAddr
  | wrXAddr (v : Word)
  | rdHAddr
  | wrHAddr (v : Word)
  | rdYAddr
  | wrYAddr (v : Word)
  | rdN
  | wrN (v : Word)
  | rdM
  | wrM (v : Word)
  | rdErrAddr
  | wrErrAddr (v : Word)
  | rdOutCount
  | wrOutCount (v : Word)
  | rdReserved (i : BitVec 2)
  | wrReserved (i : BitVec 2) (v : Word)
  deriving DecidableEq, Repr

/-- What a command word decodes to (R111, R112), the values of the latched L_OP (10_state.md R44). -/
inductive Op
  | scalar
  | vector
  | illegal
  deriving DecidableEq, Repr

end Sys2Proof
end

