-- ==== Sys2Proof/WellFormed.lean ====
section
/-! DEFINITION. Which terms of `Instr` stand for an access of their own. -/

namespace Sys2Proof

/-- A write of CMD whose data word is 0x00000001 or 0x00000002 is the row CONV_SCALAR or CONV_VECTOR (30_encoding.md
R111), not the row WR_CMD (log 3). Every other term is well formed: the operand types have no excess values. -/
def Instr.wellFormed : Instr → Bool
  | .wrCmd v => v != 0x00000001#32 && v != 0x00000002#32
  | .convScalar | .convVector
  | .rdId | .rdCaps | .rdCtrl | .rdStatus | .rdCmd | .rdXAddr | .rdHAddr | .rdYAddr | .rdN | .rdM
  | .rdErrAddr | .rdOutCount | .rdReserved _ => true
  | .wrId _ | .wrCaps _ | .wrCtrl _ | .wrStatus _ | .wrXAddr _ | .wrHAddr _ | .wrYAddr _ | .wrN _ | .wrM _
  | .wrErrAddr _ | .wrOutCount _ | .wrReserved _ _ => true

/-- The rows that are reads (W = 0 in the descriptor of 30_encoding.md R101). -/
def Instr.isRead : Instr → Bool
  | .rdId | .rdCaps | .rdCtrl | .rdStatus | .rdCmd | .rdXAddr | .rdHAddr | .rdYAddr | .rdN | .rdM
  | .rdErrAddr | .rdOutCount | .rdReserved _ => true
  | .convScalar | .convVector | .wrCmd _
  | .wrId _ | .wrCaps _ | .wrCtrl _ | .wrStatus _ | .wrXAddr _ | .wrHAddr _ | .wrYAddr _ | .wrN _ | .wrM _
  | .wrErrAddr _ | .wrOutCount _ | .wrReserved _ _ => false

end Sys2Proof
end

