-- ==== Sys2Proof/Decode.lean ====
section
/-! DEFINITION. The decoder of register accesses and command words, total on any bytes, then the encoder
(30_encoding.md R100 to R116). An access is laid out as a FRAME: the descriptor D of R101 in one byte (bit 7 zero) and,
for a write, the data word in four bytes, little-endian (20_memory.md R72). The frame is the model's own layout of the
pair (D, data) of R116 (log 17). -/

namespace Sys2Proof

/-- Byte k of a 32-bit word, byte 0 holding bits [7:0] (20_memory.md R72). -/
def byteOf (v : Word) (k : Nat) : Byte := v.extractLsb' (8 * k) 8

/-- The word whose bytes, lowest address first, are b0, b1, b2, b3 (R72). -/
def wordOf (b0 b1 b2 b3 : Byte) : Word := b3 ++ b2 ++ b1 ++ b0

/-- The four bytes of a word in address order (R72). -/
def bytesOf (v : Word) : List Byte := [byteOf v 0, byteOf v 1, byteOf v 2, byteOf v 3]

/-- Why bytes are no register access. -/
inductive DecodeError
  /-- Fewer or more bytes than the descriptor asks for. -/
  | frameLength
  /-- The descriptor has 7 bits (R101); bit 7 of its byte was set. -/
  | descriptorWidth
  /-- BO is not 00 (R101, R102). -/
  | byteOffset
  deriving DecidableEq, Repr

/-- Whether bit 7 of a descriptor's byte is set: a descriptor has 7 bits (R101). -/
def descTooWide (d : Byte) : Bool := d.getLsbD 7

/-- The field W of a descriptor (R101): true for a write. -/
def descWrite (d : Byte) : Bool := d.getLsbD 6

/-- The field REG of a descriptor (R101): the word index. -/
def descReg (d : Byte) : BitVec 4 := d.extractLsb' 2 4

/-- The field BO of a descriptor (R101). -/
def descByteOffset (d : Byte) : BitVec 2 := d.extractLsb' 0 2

/-- The command a CMD word selects, decoded as a whole word (R111, R112). -/
def decodeCmd (v : Word) : Op :=
  if v = 0x00000001#32 then .scalar
  else if v = 0x00000002#32 then .vector
  else .illegal

/-- A read of the word index `reg` (R103). -/
def decodeRead (reg : BitVec 4) : Instr :=
  match reg.toNat with
  | 0 => .rdId
  | 1 => .rdCaps
  | 2 => .rdCtrl
  | 3 => .rdStatus
  | 4 => .rdCmd
  | 5 => .rdXAddr
  | 6 => .rdHAddr
  | 7 => .rdYAddr
  | 8 => .rdN
  | 9 => .rdM
  | 10 => .rdErrAddr
  | 11 => .rdOutCount
  | _ => .rdReserved (reg.extractLsb' 0 2)

/-- The row of a write of CMD with data word v (R110, R111): one of the two commands, or WR_CMD with an illegal word. -/
def decodeCmdWrite (v : Word) : Instr :=
  match decodeCmd v with
  | .scalar => .convScalar
  | .vector => .convVector
  | .illegal => .wrCmd v

/-- A write of v to the word index `reg` (R103). -/
def decodeWrite (reg : BitVec 4) (v : Word) : Instr :=
  match reg.toNat with
  | 0 => .wrId v
  | 1 => .wrCaps v
  | 2 => .wrCtrl v
  | 3 => .wrStatus v
  | 4 => decodeCmdWrite v
  | 5 => .wrXAddr v
  | 6 => .wrHAddr v
  | 7 => .wrYAddr v
  | 8 => .wrN v
  | 9 => .wrM v
  | 10 => .wrErrAddr v
  | 11 => .wrOutCount v
  | _ => .wrReserved (reg.extractLsb' 0 2) v

/-- The decoder: bytes of a frame to the instruction they are, or the reason they are none. -/
def decode : List Byte → Except DecodeError Instr
  | [] => .error .frameLength
  | d :: data =>
    if descTooWide d then .error .descriptorWidth
    else if descByteOffset d ≠ 0#2 then .error .byteOffset
    else if descWrite d then
      match data with
      | [b0, b1, b2, b3] => .ok (decodeWrite (descReg d) (wordOf b0 b1 b2 b3))
      | _ => .error .frameLength
    else
      match data with
      | [] => .ok (decodeRead (descReg d))
      | _ :: _ => .error .frameLength

/-- The frame of a read at byte offset `off` (30_encoding.md R115: descriptor = offset). -/
def readFrame (off : Byte) : List Byte := [off]

/-- The frame of a write of v at byte offset `off` (R115: descriptor = 0x40 | offset). -/
def writeFrame (off : Byte) (v : Word) : List Byte := (0x40#8 ||| off) :: bytesOf v

/-- The byte offset of the reserved slot i (R103: 0x30, 0x34, 0x38, 0x3C). -/
def reservedOffset (i : BitVec 2) : Byte := 0x30#8 ||| (i.setWidth 8 <<< 2)

/-- The encoder, from the offsets of R103 and the command words of R111. -/
def encode : Instr → List Byte
  | .convScalar => writeFrame 0x10#8 0x00000001#32
  | .convVector => writeFrame 0x10#8 0x00000002#32
  | .rdId => readFrame 0x00#8
  | .wrId v => writeFrame 0x00#8 v
  | .rdCaps => readFrame 0x04#8
  | .wrCaps v => writeFrame 0x04#8 v
  | .rdCtrl => readFrame 0x08#8
  | .wrCtrl v => writeFrame 0x08#8 v
  | .rdStatus => readFrame 0x0C#8
  | .wrStatus v => writeFrame 0x0C#8 v
  | .rdCmd => readFrame 0x10#8
  | .wrCmd v => writeFrame 0x10#8 v
  | .rdXAddr => readFrame 0x14#8
  | .wrXAddr v => writeFrame 0x14#8 v
  | .rdHAddr => readFrame 0x18#8
  | .wrHAddr v => writeFrame 0x18#8 v
  | .rdYAddr => readFrame 0x1C#8
  | .wrYAddr v => writeFrame 0x1C#8 v
  | .rdN => readFrame 0x20#8
  | .wrN v => writeFrame 0x20#8 v
  | .rdM => readFrame 0x24#8
  | .wrM v => writeFrame 0x24#8 v
  | .rdErrAddr => readFrame 0x28#8
  | .wrErrAddr v => writeFrame 0x28#8 v
  | .rdOutCount => readFrame 0x2C#8
  | .wrOutCount v => writeFrame 0x2C#8 v
  | .rdReserved i => readFrame (reservedOffset i)
  | .wrReserved i v => writeFrame (reservedOffset i) v

/-- The frame of the opcode table's word `w`: a CMD row has 32 bits and is the data word of a write to offset 0x10
(R110), an MMIO row has a descriptor of 7 bits (R101), and a write's data word, to which the table gives no bits, is
zero. A wider number is a descriptor with its data word above it. -/
def tableFrame (nbits w : Nat) : List Byte :=
  let d := BitVec.ofNat 8 w
  if nbits ≤ 8 then (if descWrite d then d :: bytesOf 0#32 else [d])
  else if nbits ≤ 32 then 0x50#8 :: bytesOf (BitVec.ofNat 32 w)
  else if descWrite d then d :: bytesOf (BitVec.ofNat 32 (w / 256))
  else [d]

/-- What the decoder reads from the opcode table's word `w` of `nbits` bits. -/
def decodeTableWord (nbits w : Nat) : Option Instr :=
  match decode (tableFrame nbits w) with
  | .ok i => some i
  | .error _ => none

end Sys2Proof
end

