-- ==== Sys2Proof/Machine/State.lean ====
section
/-! DEFINITION. The state of the block, of the memory it reaches and of its inputs (10_state.md R30 to R53; 20_memory.md
R70; 70_reset_and_hazards.md R270), as plain data, and the state after reset. -/

namespace Sys2Proof.Machine

/-- The sequencer's phase (10_state.md R45). -/
inductive Phase
  | idle
  | pack
  | conv
  deriving DecidableEq, Repr

/-- The direction of an engine access (00_scope.md R7, R11). -/
inductive Dir
  | read
  | write
  deriving DecidableEq, Repr

/-- One 4-byte engine access: its direction and its byte address (20_memory.md R71). -/
structure MemAccess where
  dir : Dir
  addr : Nat
  deriving DecidableEq, Repr

/-- The open parameters of 00_scope.md R7. No step writes them. `busErr` lists the accesses for which the predicate
BUS_ERR(addr, dir) holds: there are finitely many addresses, so every predicate is such a list (log 6, 14). -/
structure Platform where
  /-- REG_BASE: the byte address of the register window in the host's address map. -/
  regBase : Nat
  /-- The accesses that receive an error response. -/
  busErr : List MemAccess
  deriving DecidableEq, Repr

/-- A register access as it stands on the bus (30_encoding.md R101, R102, R116): direction, byte address, width in bytes
and, for a write, the data word. -/
structure HostAccess where
  write : Bool
  addr : Nat
  width : Nat
  data : Word
  deriving DecidableEq, Repr

/-- What happens next, and by which agent (00_scope.md R5; 40_host_access.md R159; 70_reset_and_hazards.md R270). -/
inductive Event
  /-- The host makes a register access. -/
  | access (a : HostAccess)
  /-- The engine takes one step. -/
  | engine
  /-- The host writes one byte of system memory by its own means (20_memory.md R70). -/
  | hostStore (addr : Nat) (b : Byte)
  /-- The host reads one byte of system memory by its own means. -/
  | hostLoad (addr : Nat)
  /-- The reset input is asserted. -/
  | resetAssert
  /-- The reset input is released. -/
  | resetRelease
  deriving DecidableEq, Repr

/-- System memory: the listed bytes, addresses strictly rising, none equal to `Config.unlistedByte` (`Memory.wf`). -/
abbrev Memory := List Host.Cell

/-- The state. Field names are the spec's register names; a bit or register that is a function of others (ID, CAPS,
STATUS.BUSY, IRQ) is computed in Machine/Flags.lean and stored nowhere twice. -/
structure State where
  /-- CTRL.IRQ_EN (R33). -/
  irqEn : Bool
  /-- CTRL.INJ_ALLOC_FAIL (R33). -/
  injAllocFail : Bool
  /-- STATUS.DONE (R34). -/
  done : Bool
  /-- STATUS.CMD_OVR (R34). -/
  cmdOvr : Bool
  /-- STATUS.ERRCODE (R34). -/
  errcode : BitVec 4
  /-- X_ADDR (R36). -/
  xAddr : Word
  /-- H_ADDR (R37). -/
  hAddr : Word
  /-- Y_ADDR (R38). -/
  yAddr : Word
  /-- N (R39). -/
  nReg : Word
  /-- M (R40). -/
  mReg : Word
  /-- ERR_ADDR (R41). -/
  errAddr : Word
  /-- OUT_COUNT (R42). -/
  outCount : Word
  /-- L_OP (R44). -/
  lOp : Op
  /-- L_X (R44). -/
  lX : Word
  /-- L_H (R44). -/
  lH : Word
  /-- L_Y (R44). -/
  lY : Word
  /-- L_N (R44). -/
  lN : Word
  /-- L_M (R44). -/
  lM : Word
  /-- phase (R45). -/
  phase : Phase
  /-- pi, the next tap index to pack (R46). -/
  pi : Nat
  /-- n, the next output index to compute (R46). -/
  n : Nat
  /-- The coefficient RAM (R47). -/
  coef : Vector Word Config.coefDepth
  /-- The vector accumulator (R48). -/
  acc : Vector Word 8
  /-- The scalar accumulator (R49). -/
  sacc : Word
  /-- System memory (20_memory.md R70). -/
  mem : Memory
  /-- The reset input is asserted (70_reset_and_hazards.md R270). -/
  inReset : Bool
  /-- The open parameters REG_BASE and BUS_ERR (00_scope.md R7). -/
  platform : Platform
  /-- The MODEL's field: what happens next, first event first (log 1, 2). -/
  schedule : List Event
  /-- The MODEL's field: the data of the host's last read (log 8). -/
  hostRead : Word
  /-- The MODEL's field: the engine's accesses so far, oldest first, in the order of 20_memory.md R81 (log 9). -/
  busTrace : List MemAccess
  deriving DecidableEq, Repr

/-- Why the machine stops with a fault. Both arise only in states that no run from reset reaches, but for the host's
own access outside the memory. -/
inductive Fault
  /-- Raised by an engine or a host access whose bytes do not all lie in the 2^32 bytes of system memory (20_memory.md
  R70). Safe: the machine stops where the hardware has no such address (log 16). -/
  | outsideMemory (addr : Nat)
  /-- Raised by an engine step in a phase that does not belong to the latched command (R45). Safe: no run reaches it
  (log 10). -/
  | corruptSequencer
  deriving DecidableEq, Repr

/-- Why the model gives an event no meaning. -/
inductive Refusal
  /-- An instruction that has no meaning yet, by its mnemonic. Raised by `exec` only. Safe. -/
  | notModelled (mnemonic : String)
  /-- A register access of another width than 4 bytes (30_encoding.md R102). Raised by the bus. Safe. -/
  | accessWidth (width : Nat)
  /-- A register access with BO not 00 (R102). Raised by the bus. Safe. -/
  | byteOffset
  /-- A bus address outside the register window: the access is not one of this block. Raised by the bus. Safe
  (log 13). -/
  | outsideWindow (addr : Nat)
  /-- Bytes that are no frame of an access. Raised by the bus. Safe (log 17). -/
  | malformedFrame
  /-- A register access while reset is asserted (70_reset_and_hazards.md R280 (f)). Raised by the bus. Safe. -/
  | accessInReset
  /-- A host write of the signal or the filter of a running command (R280 (a)). Safe (log 12). -/
  | hostWritesInput (addr : Nat)
  /-- A host access of an output element that OUT_COUNT does not yet count (R280 (b)). Safe (log 12). -/
  | hostTouchesOutput (addr : Nat)
  deriving DecidableEq, Repr

/-- The machine right after the release of reset (10_state.md R53; 70_reset_and_hazards.md R270, R272). The values of
`coef`, `acc`, `sacc` (log 4), of `platform` (log 6), of the model's own fields (log 1, 8, 9) and the reading of
L_OP = 0 as ILLEGAL (log 5) are the model's choice. -/
def State.reset : State where
  irqEn := false
  injAllocFail := false
  done := false
  cmdOvr := false
  errcode := 0#4
  xAddr := 0x00000000#32
  hAddr := 0x00000000#32
  yAddr := 0x00000000#32
  nReg := 0x00000000#32
  mReg := 0x00000000#32
  errAddr := 0x00000000#32
  outCount := 0x00000000#32
  lOp := .illegal
  lX := 0x00000000#32
  lH := 0x00000000#32
  lY := 0x00000000#32
  lN := 0x00000000#32
  lM := 0x00000000#32
  phase := .idle
  pi := 0
  n := 0
  coef := Vector.replicate Config.coefDepth 0x00000000#32
  acc := Vector.replicate 8 0x00000000#32
  sacc := 0x00000000#32
  mem := []
  inReset := false
  platform := { regBase := 0, busErr := [] }
  schedule := []
  hostRead := 0x00000000#32
  busTrace := []

end Sys2Proof.Machine
end

