-- ==== Sys2Proof/Machine/Flags.lean ====
section
/-! DEFINITION. The status flags, the interrupt output and the words in which software reads and writes them
(10_state.md R32 to R34, R50, R51). The block has no condition codes (R51). -/

namespace Sys2Proof.Machine

/-- STATUS.BUSY: 1 exactly when phase is not IDLE (R34, R45). -/
def State.busy (s : State) : Bool := s.phase != .idle

/-- The interrupt output: IRQ = STATUS.DONE AND CTRL.IRQ_EN (R50). -/
def State.irq (s : State) : Bool := s.done && s.irqEn

/-- What RD CAPS returns: (COEF_DEPTH << 16) | (1 << 8) | LANES (R32; 40_host_access.md R134). -/
def capsWord : Word :=
  BitVec.ofNat 32 Config.coefDepth <<< 16 ||| 1#32 <<< 8 ||| BitVec.ofNat 32 Config.lanes

/-- What RD CTRL returns: zext_32(INJ_ALLOC_FAIL ++ IRQ_EN) (40_host_access.md R136). -/
def ctrlWord (s : State) : Word :=
  (BitVec.ofBool s.injAllocFail ++ BitVec.ofBool s.irqEn).setWidth 32

/-- What RD STATUS returns: zext_32(ERRCODE ++ 0b00000 ++ CMD_OVR ++ DONE ++ BUSY) (40_host_access.md R138). -/
def statusWord (s : State) : Word :=
  (s.errcode ++ 0b00000#5 ++ BitVec.ofBool s.cmdOvr ++ BitVec.ofBool s.done ++ BitVec.ofBool s.busy).setWidth 32

/-- A write of v to CTRL: both RW fields take their bits, the rest is ignored (R33; 40_host_access.md R137). -/
def setCtrl (v : Word) (s : State) : State :=
  { s with irqEn := v.getLsbD 0, injAllocFail := v.getLsbD 1 }

/-- A write of v to STATUS: DONE and CMD_OVR are cleared where v has a 1, BUSY and ERRCODE are read-only (R34;
40_host_access.md R141). Clearing DONE is the acknowledgement of a completion (60_exceptions.md R243). -/
def clearStatus (v : Word) (s : State) : State :=
  { s with done := s.done && !v.getLsbD 1, cmdOvr := s.cmdOvr && !v.getLsbD 2 }

end Sys2Proof.Machine
end

