-- ==== Sys2Proof/Machine/Operands.lean ====
section
/-! DEFINITION. The operands of a command: the latched registers and what derives from them (10_state.md R44;
30_encoding.md R114), the acceptance checks over them (60_exceptions.md R232 to R240), and the accesses they determine
(20_memory.md R80, R81). Indices and address sums are exact (00_scope.md R9). -/

namespace Sys2Proof.Machine

/-- ceil8(M) (R9). -/
def ceil8 (m : Nat) : Nat := 8 * ((m + 7) / 8)

/-- M_pad, the padded filter length (42_vector_convolution.md R191). -/
def mPad (s : State) : Nat := ceil8 s.lM.toNat

/-- B, the number of blocks (R191). -/
def numBlocks (s : State) : Nat := mPad s / 8

/-- The address of x[i] (R10). -/
def xElem (s : State) (i : Nat) : Nat := s.lX.toNat + 4 * i

/-- The address of h[i] (R10). -/
def hElem (s : State) (i : Nat) : Nat := s.lH.toNat + 4 * i

/-- The address of y[i] (R10). -/
def yElem (s : State) (i : Nat) : Nat := s.lY.toNat + 4 * i

/-- The coefficient RAM entry of tap i: the taps of a block in reverse order (42_vector_convolution.md R192). -/
def slot (i : Nat) : Nat := 8 * (i / 8) + (7 - i % 8)

/-- The tap that lane j of block b multiplies (R195). -/
def tapOf (b j : Nat) : Nat := 8 * b + 7 - j

/-- The lanes of the blocks in the order of their reads: blocks ascending, lanes ascending (R196; 20_memory.md R81). -/
def laneOrder (blocks : Nat) : List (Nat × Fin 8) :=
  (List.range blocks).flatMap fun b => [(b, 0), (b, 1), (b, 2), (b, 3), (b, 4), (b, 5), (b, 6), (b, 7)]

/-- The accesses of one CONV_SCALAR element: h[k] before x[n-k] for k ascending, then y[n] (20_memory.md R81). -/
def scalarAccesses (s : State) : List MemAccess :=
  ((List.range s.lM.toNat).flatMap fun k => [⟨.read, hElem s k⟩, ⟨.read, xElem s (s.n - k)⟩])
    ++ [⟨.write, yElem s s.n⟩]

/-- The accesses of one CONV_VECTOR element: x[n-t] for the active lanes in order, then y[n] (R81, R195). -/
def vectorAccesses (s : State) : List MemAccess :=
  (((laneOrder (numBlocks s)).filter fun l => tapOf l.1 l.2 < s.lM.toNat).map fun l =>
      ⟨.read, xElem s (s.n - tapOf l.1 l.2)⟩)
    ++ [⟨.write, yElem s s.n⟩]

/-- The accesses of one pack step: h[i] for a real tap, none for a padding tap (R192, R193). -/
def packAccesses (s : State) : List MemAccess :=
  if s.pi < s.lM.toNat then [⟨.read, hElem s s.pi⟩] else []

/-- The errors a command can complete with (60_exceptions.md R231); `bus` carries the address of the access. -/
inductive CmdError
  | illegal
  | param
  | align
  | range
  | overlap
  | alloc
  | bus (addr : Nat)
  deriving DecidableEq, Repr

/-- The completion code of an error (R231). -/
def errorCode : CmdError → BitVec 4
  | .illegal => 1#4
  | .param => 2#4
  | .align => 3#4
  | .range => 4#4
  | .overlap => 5#4
  | .alloc => 6#4
  | .bus _ => 7#4

/-- Whether the half-open intervals [a, b) and [c, d) overlap, as R236 defines it. -/
def overlaps (a b c d : Nat) : Bool := decide (a < d) && decide (c < b)

/-- ERR_PARAM: M = 0 or M > N (R233). -/
def badParam (n m : Nat) : Bool := decide (m = 0) || decide (m > n)

/-- ERR_ALIGN: a base address is no multiple of 4 (R234). -/
def badAlign (x h y : Nat) : Bool := decide (x % 4 ≠ 0) || decide (h % 4 ≠ 0) || decide (y % 4 ≠ 0)

/-- ERR_RANGE: a buffer passes 2^32 (R235). -/
def badRange (x h y n m : Nat) : Bool :=
  decide (x + 4 * n > Config.memoryBytes) || decide (h + 4 * m > Config.memoryBytes)
    || decide (y + 4 * n > Config.memoryBytes)

/-- ERR_OVERLAP: the elements written overlap the signal or the filter (R236). -/
def badOverlap (x h y n m : Nat) : Bool :=
  overlaps (y + 4 * (m - 1)) (y + 4 * n) x (x + 4 * n) || overlaps (y + 4 * (m - 1)) (y + 4 * n) h (h + 4 * m)

/-- ERR_ALLOC, for CONV_VECTOR only: the coefficient RAM is too small, or the failure is injected (R237). -/
def badAlloc (op : Op) (m : Nat) (inj : Bool) : Bool :=
  decide (op = .vector) && (decide (ceil8 m > Config.coefDepth) || inj)

/-- `Check`: the first error whose condition holds, in the order of R240. -/
def check (op : Op) (x h y n m : Nat) (inj : Bool) : Option CmdError :=
  if op = .illegal then some .illegal
  else if badParam n m then some .param
  else if badAlign x h y then some .align
  else if badRange x h y n m then some .range
  else if badOverlap x h y n m then some .overlap
  else if badAlloc op m inj then some .alloc
  else none

/-- `Check` of the latched command (40_host_access.md R140). -/
def checkLatched (s : State) : Option CmdError :=
  check s.lOp s.lX.toNat s.lH.toNat s.lY.toNat s.lN.toNat s.lM.toNat s.injAllocFail

end Sys2Proof.Machine
end

