-- ==== Sys2Proof/Machine/Ops.lean ====
section
/-! DEFINITION. The operations the meanings share: system memory (20_memory.md R70 to R73), the engine's memory port
(00_scope.md R11), the two completions (60_exceptions.md R241, R242), acceptance (40_host_access.md R140), the answer
of a register read, reset (70_reset_and_hazards.md R270) and the bus that brings a register access (30_encoding.md R101,
R102). -/

namespace Sys2Proof.Machine

/-! ### System memory -/

/-- The byte at an address: what is listed, else what an unlisted byte reads as. -/
def Memory.readByte : Memory → Nat → Byte
  | [], _ => Config.unlistedByte
  | (k, b) :: rest, a => if k = a then b else Memory.readByte rest a

/-- The list with a cell in front, unless the cell says what an unlisted byte says. -/
def Memory.consCell (a : Nat) (v : Byte) (m : Memory) : Memory :=
  if v = Config.unlistedByte then m else (a, v) :: m

/-- Write a byte, keeping the canonical form. -/
def Memory.writeByte : Memory → Nat → Byte → Memory
  | [], a, v => Memory.consCell a v []
  | (k, b) :: rest, a, v =>
    if a < k then Memory.consCell a v ((k, b) :: rest)
    else if a = k then Memory.consCell a v rest
    else (k, b) :: Memory.writeByte rest a v

/-- The canonical form: addresses strictly rising and below 2^32, no cell equal to what an unlisted byte reads as. -/
def Memory.wf : Memory → Bool
  | [] => true
  | (k, b) :: rest =>
    decide (k < Config.memoryBytes) && decide (b ≠ Config.unlistedByte)
      && (rest.all fun c => decide (k < c.1)) && Memory.wf rest

/-- The 32-bit element at an address, little-endian (R72). -/
def Memory.readWord (m : Memory) (a : Nat) : Word :=
  wordOf (m.readByte a) (m.readByte (a + 1)) (m.readByte (a + 2)) (m.readByte (a + 3))

/-- Write a 32-bit element, little-endian (R72). -/
def Memory.writeWord (m : Memory) (a : Nat) (v : Word) : Memory :=
  (((m.writeByte a (byteOf v 0)).writeByte (a + 1) (byteOf v 1)).writeByte (a + 2) (byteOf v 2)).writeByte (a + 3)
    (byteOf v 3)

/-! ### The engine's memory port -/

/-- What the memory port answers an access with: a value, an error response (R11), or no such address (R70). -/
inductive PortResult (α : Type)
  | ok (v : α)
  | busError (addr : Nat)
  | outside (addr : Nat)
  deriving DecidableEq, Repr

/-- BUS_ERR(addr, dir) (00_scope.md R7, R11). -/
def busErr (s : State) (d : Dir) (a : Nat) : Bool := s.platform.busErr.contains ⟨d, a⟩

/-- The port's answer to an access, but for the data. -/
def portAnswer (s : State) (x : MemAccess) : PortResult Unit :=
  if x.addr + 4 > Config.memoryBytes then .outside x.addr
  else if busErr s x.dir x.addr then .busError x.addr
  else .ok ()

/-- `MemRead(addr, 4)` (R11). -/
def memRead (s : State) (a : Nat) : PortResult Word :=
  match portAnswer s ⟨.read, a⟩ with
  | .ok _ => .ok (s.mem.readWord a)
  | .busError b => .busError b
  | .outside b => .outside b

/-- `MemWrite(addr, 4, v)` (R11): an error response leaves memory as it was. -/
def memWrite (s : State) (a : Nat) (v : Word) : PortResult Memory :=
  match portAnswer s ⟨.write, a⟩ with
  | .ok _ => .ok (s.mem.writeWord a v)
  | .busError b => .busError b
  | .outside b => .outside b

/-- Of a sequence of accesses those that are made: all up to and including the first that is not answered with
success (60_exceptions.md R238). -/
def performed (s : State) : List MemAccess → List MemAccess
  | [] => []
  | x :: rest =>
    match portAnswer s x with
    | .ok _ => x :: performed s rest
    | .busError _ => [x]
    | .outside _ => [x]

/-- Record the accesses an engine step makes, in the order of 20_memory.md R81 (log 9). -/
def record (xs : List MemAccess) (s : State) : State :=
  { s with busTrace := s.busTrace ++ performed s xs }

/-! ### Completion -/

/-- Error completion, `raise E` (R242): the one way a command ends in an error. -/
def raiseError (e : CmdError) (s : State) : State :=
  { s with
    phase := .idle
    errcode := errorCode e
    errAddr := match e with
      | .bus a => BitVec.ofNat 32 a
      | .illegal | .param | .align | .range | .overlap | .alloc => s.errAddr
    done := true }

/-- Normal completion (R241). -/
def completeNormally (s : State) : State :=
  { s with phase := .idle, errcode := 0#4, done := true }

/-- Go on with what the port answered: an error response ends the command (R238). -/
def afterPort {α : Type} (r : PortResult α) (s : State) (go : α → Host.Outcome State Fault Refusal) :
    Host.Outcome State Fault Refusal :=
  match r with
  | .ok v => go v
  | .busError a => .next (raiseError (.bus a) s)
  | .outside a => .fault (.outsideMemory a)

/-- The end of an element step: write y[n], count it, then complete or advance (41_scalar_convolution.md R174;
42_vector_convolution.md R199). -/
def storeElement (v : Word) (s : State) : Host.Outcome State Fault Refusal :=
  afterPort (memWrite s (yElem s s.n) v) s fun m =>
    let t := { s with mem := m, outCount := s.outCount + 1#32 }
    if s.n + 1 = s.lN.toNat then .next (completeNormally t)
    else .next { t with n := s.n + 1 }

/-! ### Acceptance -/

/-- The first half of acceptance: clear the result registers and latch the command and its operands (R140, R114). -/
def latchCommand (op : Op) (s : State) : State :=
  { s with
    done := false
    errcode := 0#4
    errAddr := 0x00000000#32
    outCount := 0x00000000#32
    lOp := op
    lX := s.xAddr
    lH := s.hAddr
    lY := s.yAddr
    lN := s.nReg
    lM := s.mReg }

/-- The second half of acceptance: a latched command that passes its checks starts (R140). -/
def startCommand (s : State) : State :=
  match s.lOp with
  | .scalar => { s with phase := .conv, n := s.lM.toNat - 1 }
  | .vector => { s with phase := .pack, pi := 0 }
  | .illegal => s

/-- Acceptance (R140): one atomic step; a check that fails completes the command in this same step (R242). -/
def acceptCommand (op : Op) (s : State) : State :=
  let t := latchCommand op s
  match checkLatched t with
  | some e => raiseError e t
  | none => startCommand t

/-- A write of v to CMD: acceptance while BUSY = 0 (R140), dropped with CMD_OVR set while BUSY = 1 (R139). -/
def presentCommand (v : Word) (s : State) : State :=
  if s.busy then { s with cmdOvr := true } else acceptCommand (decodeCmd v) s

/-! ### Register reads -/

/-- A register read returns v and changes nothing of the block (R130); the host holds v in `hostRead` (log 8). -/
def returnWord (v : Word) (s : State) : State := { s with hostRead := v }

/-! ### Reset -/

/-- Reset of the block (70_reset_and_hazards.md R270, R271; 10_state.md R53): every piece of the block's state takes its
reset value; system memory, the platform and what belongs to the host stay. -/
def resetBlock (asserted : Bool) (s : State) : State :=
  { State.reset with
    mem := s.mem
    inReset := asserted
    platform := s.platform
    schedule := s.schedule
    hostRead := s.hostRead
    busTrace := s.busTrace }

/-! ### The host's own accesses to memory -/

/-- Whether address a lies in the signal or the filter of the running command (70_reset_and_hazards.md R280 (a)). -/
def inRunningInput (s : State) (a : Nat) : Bool :=
  s.busy &&
    (decide (s.lX.toNat ≤ a ∧ a < s.lX.toNat + 4 * s.lN.toNat)
      || decide (s.lH.toNat ≤ a ∧ a < s.lH.toNat + 4 * s.lM.toNat))

/-- Whether address a lies in an output element of the running command that OUT_COUNT does not yet count, y[M-1+i] with
i at least OUT_COUNT (R280 (b)). -/
def inPendingOutput (s : State) (a : Nat) : Bool :=
  s.busy &&
    decide (s.lY.toNat + 4 * (s.lM.toNat - 1 + s.outCount.toNat) ≤ a ∧ a < s.lY.toNat + 4 * s.lN.toNat)

/-- The host writes a byte of system memory (20_memory.md R70, R73), refused where it breaches R280 (a) or (b). -/
def hostStoreByte (a : Nat) (b : Byte) (s : State) : Host.Outcome State Fault Refusal :=
  if a ≥ Config.memoryBytes then .fault (.outsideMemory a)
  else if inRunningInput s a then .refused (.hostWritesInput a)
  else if inPendingOutput s a then .refused (.hostTouchesOutput a)
  else .next { s with mem := s.mem.writeByte a b }

/-- The host reads a byte of system memory (R70), refused where it breaches R280 (b). -/
def hostLoadByte (a : Nat) (s : State) : Host.Outcome State Fault Refusal :=
  if a ≥ Config.memoryBytes then .fault (.outsideMemory a)
  else if inPendingOutput s a then .refused (.hostTouchesOutput a)
  else .next (returnWord ((s.mem.readByte a).setWidth 32) s)

/-! ### The bus -/

/-- The frame of a register access on the bus: descriptor W, REG, BO from its direction and its offset in the window
(30_encoding.md R101), then the data word of a write. -/
def busFrame (p : Platform) (a : HostAccess) : Except Refusal (List Byte) :=
  if a.width ≠ 4 then .error (.accessWidth a.width)
  else if a.addr < p.regBase ∨ p.regBase + Config.windowBytes ≤ a.addr then .error (.outsideWindow a.addr)
  else
    let d := BitVec.ofNat 8 (a.addr - p.regBase)
    if a.write then .ok ((0x40#8 ||| d) :: bytesOf a.data) else .ok [d]

/-- The refusal of bytes the decoder rejects (R102; log 17). -/
def refusalOf : DecodeError → Refusal
  | .frameLength => .malformedFrame
  | .descriptorWidth => .malformedFrame
  | .byteOffset => .byteOffset

/-- The instruction a register access is, or why it is none. -/
def fetchAccess (s : State) (a : HostAccess) : Except Refusal Instr :=
  if s.inReset then .error .accessInReset
  else
    match busFrame s.platform a with
    | .error r => .error r
    | .ok frame =>
      match decode frame with
      | .error e => .error (refusalOf e)
      | .ok i => .ok i

/-- The bus access that has a given frame (30_encoding.md R116: bus address REG_BASE + offset). -/
def accessOfFrame (p : Platform) : List Byte → HostAccess
  | [d, b0, b1, b2, b3] =>
    { write := descWrite d, addr := p.regBase + d.toNat % 64, width := if descTooWide d then 0 else 4,
      data := wordOf b0 b1 b2 b3 }
  | [d] =>
    { write := descWrite d, addr := p.regBase + d.toNat % 64, width := if descTooWide d then 0 else 4,
      data := 0x00000000#32 }
  | _ => { write := false, addr := p.regBase, width := 0, data := 0x00000000#32 }

end Sys2Proof.Machine
end

