-- ==== Sys2Proof/Machine/Command.lean ====
section
/-! DEFINITION. The meanings of the accesses of CMD and of the two commands (40_host_access.md R139, R140, R142;
30_encoding.md R110 to R112). A command word is presented to the engine by the write of CMD; the engine's steps
(Machine/Engine.lean) then carry the accepted command out, one atomic step each. -/

namespace Sys2Proof.Machine

/-- CONV_SCALAR (41_scalar_convolution.md R170): the CMD word 0x00000001 presented to the engine. -/
def execConvScalar (s : State) : Host.Outcome State Fault Refusal := .next (presentCommand 0x00000001#32 s)

/-- CONV_VECTOR (42_vector_convolution.md R190): the CMD word 0x00000002 presented to the engine. -/
def execConvVector (s : State) : Host.Outcome State Fault Refusal := .next (presentCommand 0x00000002#32 s)

/-- RD CMD (R142): reads zero, the last command word is not readable. -/
def execRdCmd (s : State) : Host.Outcome State Fault Refusal := .next (returnWord 0x00000000#32 s)

/-- WR CMD (R139, R140): any command word presented to the engine; a word that is no command completes with
ERR_ILLEGAL (60_exceptions.md R232). -/
def execWrCmd (v : Word) (s : State) : Host.Outcome State Fault Refusal := .next (presentCommand v s)

end Sys2Proof.Machine
end

