-- ==== Sys2Proof/Machine/Control.lean ====
section
/-! DEFINITION. The meanings of the accesses of CTRL and STATUS (40_host_access.md R136 to R138, R141). -/

namespace Sys2Proof.Machine

/-- RD CTRL (R136). -/
def execRdCtrl (s : State) : Host.Outcome State Fault Refusal := .next (returnWord (ctrlWord s) s)

/-- WR CTRL (R137). -/
def execWrCtrl (v : Word) (s : State) : Host.Outcome State Fault Refusal := .next (setCtrl v s)

/-- RD STATUS (R138): no read-to-clear. -/
def execRdStatus (s : State) : Host.Outcome State Fault Refusal := .next (returnWord (statusWord s) s)

/-- WR STATUS (R141): write 1 to clear DONE and CMD_OVR. -/
def execWrStatus (v : Word) (s : State) : Host.Outcome State Fault Refusal := .next (clearStatus v s)

end Sys2Proof.Machine
end

