-- ==== Sys2Proof/Machine/Identification.lean ====
section
/-! DEFINITION. The meanings of the accesses of ID and CAPS (40_host_access.md R132 to R135). -/

namespace Sys2Proof.Machine

/-- RD ID (R132): the constant 0x46495238. -/
def execRdId (s : State) : Host.Outcome State Fault Refusal := .next (returnWord Config.idWord s)

/-- WR ID (R133): no effect. -/
def execWrId (_v : Word) (s : State) : Host.Outcome State Fault Refusal := .next s

/-- RD CAPS (R134): (COEF_DEPTH << 16) | (1 << 8) | 8. -/
def execRdCaps (s : State) : Host.Outcome State Fault Refusal := .next (returnWord capsWord s)

/-- WR CAPS (R135): no effect. -/
def execWrCaps (_v : Word) (s : State) : Host.Outcome State Fault Refusal := .next s

end Sys2Proof.Machine
end

