-- ==== Sys2Proof/Machine/OperandRegs.lean ====
section
/-! DEFINITION. The meanings of the accesses of X_ADDR, H_ADDR, Y_ADDR, N and M (40_host_access.md R143 to R152). A write
changes the register, never the latched operand of a running command (10_state.md R44). -/

namespace Sys2Proof.Machine

/-- RD X_ADDR (R143). -/
def execRdXAddr (s : State) : Host.Outcome State Fault Refusal := .next (returnWord s.xAddr s)

/-- WR X_ADDR (R144). -/
def execWrXAddr (v : Word) (s : State) : Host.Outcome State Fault Refusal := .next { s with xAddr := v }

/-- RD H_ADDR (R145). -/
def execRdHAddr (s : State) : Host.Outcome State Fault Refusal := .next (returnWord s.hAddr s)

/-- WR H_ADDR (R146). -/
def execWrHAddr (v : Word) (s : State) : Host.Outcome State Fault Refusal := .next { s with hAddr := v }

/-- RD Y_ADDR (R147). -/
def execRdYAddr (s : State) : Host.Outcome State Fault Refusal := .next (returnWord s.yAddr s)

/-- WR Y_ADDR (R148). -/
def execWrYAddr (v : Word) (s : State) : Host.Outcome State Fault Refusal := .next { s with yAddr := v }

/-- RD N (R149). -/
def execRdN (s : State) : Host.Outcome State Fault Refusal := .next (returnWord s.nReg s)

/-- WR N (R150): all 32 bits are stored. -/
def execWrN (v : Word) (s : State) : Host.Outcome State Fault Refusal := .next { s with nReg := v }

/-- RD M (R151). -/
def execRdM (s : State) : Host.Outcome State Fault Refusal := .next (returnWord s.mReg s)

/-- WR M (R152): all 32 bits are stored. -/
def execWrM (v : Word) (s : State) : Host.Outcome State Fault Refusal := .next { s with mReg := v }

end Sys2Proof.Machine
end

