-- ==== Sys2Proof/Machine/Results.lean ====
section
/-! DEFINITION. The meanings of the accesses of ERR_ADDR, OUT_COUNT and the reserved offsets (40_host_access.md R153 to
R158). -/

namespace Sys2Proof.Machine

/-- RD ERR_ADDR (R153). -/
def execRdErrAddr (s : State) : Host.Outcome State Fault Refusal := .next (returnWord s.errAddr s)

/-- WR ERR_ADDR (R154): no effect. -/
def execWrErrAddr (_v : Word) (s : State) : Host.Outcome State Fault Refusal := .next s

/-- RD OUT_COUNT (R155). -/
def execRdOutCount (s : State) : Host.Outcome State Fault Refusal := .next (returnWord s.outCount s)

/-- WR OUT_COUNT (R156): no effect. -/
def execWrOutCount (_v : Word) (s : State) : Host.Outcome State Fault Refusal := .next s

/-- RD of a reserved offset (R157): reads zero. -/
def execRdReserved (_i : BitVec 2) (s : State) : Host.Outcome State Fault Refusal :=
  .next (returnWord 0x00000000#32 s)

/-- WR of a reserved offset (R158): no effect. -/
def execWrReserved (_i : BitVec 2) (_v : Word) (s : State) : Host.Outcome State Fault Refusal := .next s

end Sys2Proof.Machine
end

