-- ==== Sys2Proof/Machine/Dispatch.lean ====
section
/-! DEFINITION. The meaning of each instruction: one call an arm, one arm a constructor. -/

namespace Sys2Proof.Machine

/-- What an instruction does when the host makes its access (40_host_access.md). -/
def exec (i : Instr) (s : State) : Host.Outcome State Fault Refusal :=
  match i with
  | .convScalar => Sys2Proof.Machine.execConvScalar s
  | .convVector => Sys2Proof.Machine.execConvVector s
  | .rdId => Sys2Proof.Machine.execRdId s
  | .wrId v => Sys2Proof.Machine.execWrId v s
  | .rdCaps => Sys2Proof.Machine.execRdCaps s
  | .wrCaps v => Sys2Proof.Machine.execWrCaps v s
  | .rdCtrl => Sys2Proof.Machine.execRdCtrl s
  | .wrCtrl v => Sys2Proof.Machine.execWrCtrl v s
  | .rdStatus => Sys2Proof.Machine.execRdStatus s
  | .wrStatus v => Sys2Proof.Machine.execWrStatus v s
  | .rdCmd => Sys2Proof.Machine.execRdCmd s
  | .wrCmd v => Sys2Proof.Machine.execWrCmd v s
  | .rdXAddr => Sys2Proof.Machine.execRdXAddr s
  | .wrXAddr v => Sys2Proof.Machine.execWrXAddr v s
  | .rdHAddr => Sys2Proof.Machine.execRdHAddr s
  | .wrHAddr v => Sys2Proof.Machine.execWrHAddr v s
  | .rdYAddr => Sys2Proof.Machine.execRdYAddr s
  | .wrYAddr v => Sys2Proof.Machine.execWrYAddr v s
  | .rdN => Sys2Proof.Machine.execRdN s
  | .wrN v => Sys2Proof.Machine.execWrN v s
  | .rdM => Sys2Proof.Machine.execRdM s
  | .wrM v => Sys2Proof.Machine.execWrM v s
  | .rdErrAddr => Sys2Proof.Machine.execRdErrAddr s
  | .wrErrAddr v => Sys2Proof.Machine.execWrErrAddr v s
  | .rdOutCount => Sys2Proof.Machine.execRdOutCount s
  | .wrOutCount v => Sys2Proof.Machine.execWrOutCount v s
  | .rdReserved j => Sys2Proof.Machine.execRdReserved j s
  | .wrReserved j v => Sys2Proof.Machine.execWrReserved j v s

end Sys2Proof.Machine
end

