-- ==== Sys2Proof/Machine/Float.lean ====
section
/-! DEFINITION. The binary32 operations `f32_mul` and `f32_add` (00_scope.md R12 to R15): operands become exact integers,
the exact result is rounded once, to nearest with ties to even, and NaN results are canonical.

A finite pattern stands for a whole number of 2^-149, its `mag` with its sign. A sum of two such is again a whole number
of 2^-149, a product a whole number of 2^-298. -/

namespace Sys2Proof.Machine

/-- The canonical NaN (R12, R13). -/
def f32NaN : Word := 0x7FC00000#32

/-- The infinity of the given sign (R12). -/
def f32Inf (neg : Bool) : Word := if neg then 0xFF800000#32 else 0x7F800000#32

/-- Bit 31, the sign (R12). -/
def f32Sign (w : Word) : Bool := w.getLsbD 31

/-- Bits [30:23], the biased exponent (R12). -/
def f32Expo (w : Word) : Nat := w.toNat / 2 ^ 23 % 2 ^ 8

/-- Bits [22:0], the fraction (R12). -/
def f32Frac (w : Word) : Nat := w.toNat % 2 ^ 23

/-- The NaN test of R12. -/
def f32IsNaN (w : Word) : Bool := f32Expo w == 255 && f32Frac w != 0

/-- An infinity: exponent all ones, fraction zero. -/
def f32IsInf (w : Word) : Bool := f32Expo w == 255 && f32Frac w == 0

/-- The magnitude of a finite pattern as a whole number of 2^-149 (R12): a subnormal has exponent field 0 and no hidden
bit, a normal number has the hidden bit 2^23 and the exponent field counts doublings from 1. -/
def f32Mag (w : Word) : Nat :=
  if f32Expo w = 0 then f32Frac w else (2 ^ 23 + f32Frac w) * 2 ^ (f32Expo w - 1)

/-- The value of a finite pattern as a signed whole number of 2^-149. -/
def f32Val (w : Word) : Int := if f32Sign w then -(f32Mag w : Int) else (f32Mag w : Int)

/-- m / 2^d rounded to the nearest whole number, a tie to the even one (R13, R14). -/
def roundQuot (m d : Nat) : Nat :=
  let q := m / 2 ^ d
  let r := m % 2 ^ d
  if 2 * r > 2 ^ d ∨ (2 * r = 2 ^ d ∧ q % 2 = 1) then q + 1 else q

/-- How many low bits of the magnitude m, a whole number of 2^-(149 + scale), a result does not keep: all but 24
significant bits, and every bit below 2^-149 (the subnormal spacing). -/
def dropBits (m scale : Nat) : Nat := max (Nat.log2 m + 1 - 24) scale

/-- Bits [30:0] of the rounded magnitude, before the overflow to infinity. The hidden bit and a carry out of the
fraction add themselves to the exponent field. -/
def roundBits (m scale : Nat) : Nat :=
  (dropBits m scale - scale) * 2 ^ 23 + roundQuot m (dropBits m scale)

/-- The pattern of the rounded value of sign `neg` and magnitude m · 2^-(149 + scale): a rounded magnitude above
0x7F7FFFFF is an infinity (R13). -/
def f32Round (neg : Bool) (m scale : Nat) : Word :=
  BitVec.ofNat 32 ((if neg then 2 ^ 31 else 0) + min (roundBits m scale) 0x7F800000)

/-- `f32_mul` (R13). -/
def f32Mul (a b : Word) : Word :=
  if f32IsNaN a || f32IsNaN b then f32NaN
  else if f32IsInf a || f32IsInf b then
    if f32Mag a = 0 ∨ f32Mag b = 0 then f32NaN else f32Inf (f32Sign a != f32Sign b)
  else f32Round (f32Sign a != f32Sign b) (f32Mag a * f32Mag b) 149

/-- `f32_add` (R14). An exact zero sum is -0.0 only when both addends are -0.0. -/
def f32Add (a b : Word) : Word :=
  if f32IsNaN a || f32IsNaN b then f32NaN
  else if f32IsInf a then
    if f32IsInf b && (f32Sign a != f32Sign b) then f32NaN else a
  else if f32IsInf b then b
  else
    let sum := f32Val a + f32Val b
    if sum = 0 then (if f32Sign a && f32Sign b then 0x80000000#32 else 0x00000000#32)
    else f32Round (decide (sum < 0)) sum.natAbs 0

end Sys2Proof.Machine
end

