-- ==== Sys2Proof/Machine/Scalar.lean ====
section
/-! DEFINITION. The engine's step of CONV_SCALAR (41_scalar_convolution.md R170 to R179). -/

namespace Sys2Proof.Machine

/-- The loop of R172 over the taps k of a list: read h[k], then x[n-k], then accumulate. It gives the accumulator and
what stopped it; an access without an answer leaves the accumulator as it was before it (60_exceptions.md R242). -/
def scalarLoop (s : State) : List Nat → Word → Word × PortResult Unit
  | [], sacc => (sacc, .ok ())
  | k :: ks, sacc =>
    match memRead s (hElem s k) with
    | .busError a => (sacc, .busError a)
    | .outside a => (sacc, .outside a)
    | .ok hk =>
      match memRead s (xElem s (s.n - k)) with
      | .busError a => (sacc, .busError a)
      | .outside a => (sacc, .outside a)
      | .ok xk => scalarLoop s ks (f32Add sacc (f32Mul hk xk))

/-- One element of CONV_SCALAR (R174): the sum of R172 from +0.0 over k = 0 .. L_M-1, then the write of y[n]. -/
def scalarStep (s : State) : Host.Outcome State Fault Refusal :=
  let sum := scalarLoop s (List.range s.lM.toNat) 0x00000000#32
  let t := { record (scalarAccesses s) s with sacc := sum.1 }
  afterPort sum.2 t fun _ => storeElement sum.1 t

end Sys2Proof.Machine
end

