-- ==== Sys2Proof/Machine/Vector.lean ====
section
/-! DEFINITION. The engine's steps of CONV_VECTOR: packing, block multiply-accumulate, horizontal reduction
(42_vector_convolution.md R190 to R206). -/

namespace Sys2Proof.Machine

/-- Entry i of the coefficient RAM (10_state.md R47). -/
def coefAt (s : State) (i : Nat) : Word := s.coef[i]?.getD 0x00000000#32

/-- The end of a pack step (R192 to R194): store the tap in its slot, advance, and after the last tap enter CONV. -/
def packTap (v : Word) (s : State) : State :=
  let t := { s with coef := s.coef.setIfInBounds (slot s.pi) v, pi := s.pi + 1 }
  if s.pi + 1 = mPad s then { t with phase := .conv, n := s.lM.toNat - 1 } else t

/-- One pack step: tap pi is read from memory if it is one of h (R192), and +0.0 if it is padding (R193). -/
def packStep (s : State) : Host.Outcome State Fault Refusal :=
  let t := record (packAccesses s) s
  if s.pi < s.lM.toNat then
    afterPort (memRead s (hElem s s.pi)) t fun v => .next (packTap v t)
  else .next (packTap 0x00000000#32 t)

/-- The loop of R196 over the lanes (b, j) of a list, in the order of 20_memory.md R81. An inactive lane makes no access
and contributes +0.0 (R195). -/
def vectorLoop (s : State) : List (Nat × Fin 8) → Vector Word 8 → Vector Word 8 × PortResult Unit
  | [], acc => (acc, .ok ())
  | (b, j) :: rest, acc =>
    if tapOf b j < s.lM.toNat then
      match memRead s (xElem s (s.n - tapOf b j)) with
      | .busError a => (acc, .busError a)
      | .outside a => (acc, .outside a)
      | .ok x => vectorLoop s rest (acc.set j (f32Add acc[j] (f32Mul (coefAt s (8 * b + j)) x)))
    else vectorLoop s rest (acc.set j (f32Add acc[j] 0x00000000#32))

/-- The reduction tree (R198): ((a0+a4) + (a1+a5)) + ((a2+a6) + (a3+a7)). -/
def reduceLanes (acc : Vector Word 8) : Word :=
  let t0 := f32Add acc[0] acc[4]
  let t1 := f32Add acc[1] acc[5]
  let t2 := f32Add acc[2] acc[6]
  let t3 := f32Add acc[3] acc[7]
  let u0 := f32Add t0 t1
  let u1 := f32Add t2 t3
  f32Add u0 u1

/-- One element of CONV_VECTOR (R199): the lanes of R196 from +0.0, the reduction of R198, then the write of y[n]. -/
def vectorStep (s : State) : Host.Outcome State Fault Refusal :=
  let lanes := vectorLoop s (laneOrder (numBlocks s)) (Vector.replicate 8 0x00000000#32)
  let t := { record (vectorAccesses s) s with acc := lanes.1 }
  afterPort lanes.2 t fun _ => storeElement (reduceLanes lanes.1) t

end Sys2Proof.Machine
end

