-- ==== Sys2Proof/Machine/Engine.lean ====
section
/-! DEFINITION. One step of the engine (00_scope.md R5; 10_state.md R45, R46; 60_exceptions.md R253). -/

namespace Sys2Proof.Machine

/-- The engine's step: nothing while IDLE (R253), else the step of the latched command in its phase (R45). The
combinations that R45 does not have are a fault, and no run reaches them (log 10). -/
def engineStep (s : State) : Host.Outcome State Fault Refusal :=
  match s.phase, s.lOp with
  | .idle, _ => .next s
  | .pack, .vector => packStep s
  | .conv, .scalar => scalarStep s
  | .conv, .vector => vectorStep s
  | .pack, .scalar => .fault .corruptSequencer
  | .pack, .illegal => .fault .corruptSequencer
  | .conv, .illegal => .fault .corruptSequencer

end Sys2Proof.Machine
end

