-- ==== Sys2Proof/Machine/Events.lean ====
section
/-! DEFINITION. What each event does (00_scope.md R5; 40_host_access.md R159; 70_reset_and_hazards.md R270, R271, R280),
and how one instruction is put where the next step takes it from. -/

namespace Sys2Proof.Machine

/-- The host's register access: the bus brings it, the decoder reads it, `exec` gives it its meaning. -/
def runAccess (a : HostAccess) (s : State) : Host.Outcome State Fault Refusal :=
  match fetchAccess s a with
  | .error r => .refused r
  | .ok i => exec i s

/-- The engine's turn: nothing while reset is asserted (R270), else one engine step. -/
def runEngine (s : State) : Host.Outcome State Fault Refusal :=
  if s.inReset then .next s else engineStep s

/-- One event, by the agent it belongs to. -/
def runEvent (e : Event) (s : State) : Host.Outcome State Fault Refusal :=
  match e with
  | .access a => runAccess a s
  | .engine => runEngine s
  | .hostStore a b => hostStoreByte a b s
  | .hostLoad a => hostLoadByte a s
  | .resetAssert => .next (resetBlock true s)
  | .resetRelease => .next (resetBlock false s)

/-- The state in which the host's next action is the access with the given frame, reset not asserted. -/
def scheduleFrame (frame : List Byte) (s : State) : State :=
  { s with inReset := false, schedule := .access (accessOfFrame s.platform frame) :: s.schedule }

end Sys2Proof.Machine
end

