-- ==== Sys2Proof/Machine/Step.lean ====
section
/-! DEFINITION. One step of the whole: the next event of the schedule, or, when the host has nothing scheduled, the
engine's turn (40_host_access.md R159; 70_reset_and_hazards.md R284). -/

namespace Sys2Proof.Machine

/-- One atomic step of one agent. -/
def step (s : State) : Host.Outcome State Fault Refusal :=
  match s.schedule with
  | [] => runEngine s
  | e :: rest => runEvent e { s with schedule := rest }

/-- The opcode table's word as the host's next access: `step` then runs exactly it (log 1). -/
def State.withFetchWord (s : State) (nbits w : Nat) : State := scheduleFrame (tableFrame nbits w) s

end Sys2Proof.Machine
end

