-- ==== Sys2Proof/Safety.lean ====
section
/-! DEFINITION. The terms the claims use: the invariant of a safe run, what the coefficient RAM holds while a command
runs, and the values the rules give an output element, as functions of memory alone. -/

namespace Sys2Proof.Machine

/-- The invariant of every run: what the rules say of any moment. -/
structure Inv (s : State) : Prop where
  /-- Memory is in its canonical form. -/
  mem_wf : s.mem.wf = true
  /-- ERRCODE holds no reserved value (60_exceptions.md R231, codes 8 to 15 are never produced). -/
  errcode_produced : s.errcode.toNat < 8
  /-- ERR_ADDR is 0 unless the last completion was ERR_BUS (10_state.md R41; 40_host_access.md R153). -/
  errAddr_zero : s.errcode ≠ 7#4 → s.errAddr = 0x00000000#32
  /-- BUSY = 1 implies DONE = 0 and ERRCODE = 0 (10_state.md R34). -/
  busy_flags : s.busy = true → s.done = false ∧ s.errcode = 0#4
  /-- A running command passed its checks (40_host_access.md R140). INJ_ALLOC_FAIL is not looked at again (R277). -/
  busy_checked : s.busy = true →
    check s.lOp s.lX.toNat s.lH.toNat s.lY.toNat s.lN.toNat s.lM.toNat false = none
  /-- The PACK phase belongs to CONV_VECTOR, pi is below M_pad, and no output is written (10_state.md R45, R46). -/
  pack_position : s.phase = .pack → s.lOp = .vector ∧ s.pi < mPad s ∧ s.outCount = 0x00000000#32
  /-- In the CONV phase n is in [L_M-1, L_N-1], and OUT_COUNT counts the elements before it (10_state.md R42, R46). -/
  conv_position : s.phase = .conv →
    s.lM.toNat - 1 ≤ s.n ∧ s.n < s.lN.toNat ∧ s.outCount.toNat = s.n - (s.lM.toNat - 1)
  /-- While reset is asserted every piece of the block's state has its reset value (70_reset_and_hazards.md R270). -/
  held_in_reset : s.inReset = true → s = resetBlock true s

/-- How many taps of the running CONV_VECTOR are packed. -/
def packedTaps (s : State) : Nat :=
  match s.phase, s.lOp with
  | .pack, .vector => s.pi
  | .conv, .vector => mPad s
  | .idle, _ => 0
  | .pack, .scalar => 0
  | .pack, .illegal => 0
  | .conv, .scalar => 0
  | .conv, .illegal => 0

/-- Every packed tap stands in its slot: the tap of memory, or +0.0 for a padding tap (42_vector_convolution.md R192,
R193). -/
def CoefHoldsTaps (s : State) : Prop :=
  ∀ i < packedTaps s,
    coefAt s (slot i) = if i < s.lM.toNat then s.mem.readWord (hElem s i) else 0x00000000#32

/-- `k` steps of the whole, stopping at a fault or a refusal. -/
def runSteps : Nat → State → Host.Outcome State Fault Refusal
  | 0, s => .next s
  | k + 1, s =>
    match step s with
    | .next t => runSteps k t
    | .fault f => .fault f
    | .refused r => .refused r

/-- No access of the platform receives an error response: BUS_ERR is false everywhere. -/
def NoBusErrors (s : State) : Prop := ∀ d a, busErr s d a = false

/-- The value of y[n] by CONV_SCALAR (41_scalar_convolution.md R172), for a signal at x, a filter of `taps` taps at h. -/
def scalarValue (m : Memory) (x h taps n : Nat) : Word :=
  (List.range taps).foldl
    (fun sacc k => f32Add sacc (f32Mul (m.readWord (h + 4 * k)) (m.readWord (x + 4 * (n - k))))) 0x00000000#32

/-- Lane j of the accumulator for y[n] by CONV_VECTOR (42_vector_convolution.md R196), in terms of the filter itself:
lane j of block b multiplies h[t] by x[n-t] for the tap t = 8b + 7 - j, and a padding tap contributes +0.0. -/
def laneValue (m : Memory) (x h taps n j : Nat) : Word :=
  (List.range (ceil8 taps / 8)).foldl
    (fun acc b =>
      f32Add acc
        (if tapOf b j < taps then
          f32Mul (m.readWord (h + 4 * tapOf b j)) (m.readWord (x + 4 * (n - tapOf b j)))
        else 0x00000000#32)) 0x00000000#32

/-- The value of y[n] by CONV_VECTOR: the eight lanes through the reduction tree (R198). -/
def vectorValue (m : Memory) (x h taps n : Nat) : Word :=
  f32Add
    (f32Add (f32Add (laneValue m x h taps n 0) (laneValue m x h taps n 4))
      (f32Add (laneValue m x h taps n 1) (laneValue m x h taps n 5)))
    (f32Add (f32Add (laneValue m x h taps n 2) (laneValue m x h taps n 6))
      (f32Add (laneValue m x h taps n 3) (laneValue m x h taps n 7)))

/-- The access lies in a region the running command may touch: the signal or the filter for a read, the elements
y[M-1..N-1] for a write, at a multiple of 4 (20_memory.md R71, R80). -/
def InRegions (s : State) (a : MemAccess) : Prop :=
  a.addr % 4 = 0 ∧
    match a.dir with
    | .read =>
      (s.lX.toNat ≤ a.addr ∧ a.addr + 4 ≤ s.lX.toNat + 4 * s.lN.toNat)
        ∨ (s.lH.toNat ≤ a.addr ∧ a.addr + 4 ≤ s.lH.toNat + 4 * s.lM.toNat)
    | .write =>
      s.lY.toNat + 4 * (s.lM.toNat - 1) ≤ a.addr ∧ a.addr + 4 ≤ s.lY.toNat + 4 * s.lN.toNat

/-- How many engine steps the running command still has to make if no access errors
(70_reset_and_hazards.md R283). -/
def stepsLeft (s : State) : Nat :=
  match s.phase with
  | .idle => 0
  | .pack => (mPad s - s.pi) + (s.lN.toNat - s.lM.toNat + 1)
  | .conv => s.lN.toNat - s.n

end Sys2Proof.Machine
end

