-- ==== Sys2Proof/Certificates/Slice0/Obligations.lean ====
section
/-! DEFINITION. The statements for the provers. Each docstring names the rules it formalises or derives from. -/

open Sys2Proof Sys2Proof.Machine

/-! ### Encoding -/

/-- Decoding an encoded well-formed instruction gives it back, with every operand (30_encoding.md R101, R103, R111,
R115). -/
def Obligations.DecodeOfEncodeGivesTheInstruction : Prop :=
  ∀ i : Instr, i.wellFormed = true → decode (encode i) = .ok i

/-- Bytes that decode are the encoding of what they decode to, and that is well formed: no two frames share an
instruction and no access has two meanings (R101, R103, R111, R112). -/
def Obligations.DecodedBytesAreTheEncoding : Prop :=
  ∀ (bs : List Byte) (i : Instr), decode bs = .ok i → encode i = bs ∧ i.wellFormed = true

/-- Frames written out from the descriptors of 30_encoding.md R101, R103, R111 and the listings of
95_test_vectors.md L3. -/
def Obligations.SpelledOutAccessesDecode : Prop :=
  decode [0x50#8, 0x01#8, 0x00#8, 0x00#8, 0x00#8] = .ok .convScalar
    ∧ decode [0x50#8, 0x02#8, 0x00#8, 0x00#8, 0x00#8] = .ok .convVector
    ∧ decode [0x50#8, 0x12#8, 0x00#8, 0x00#8, 0x00#8] = .ok (.wrCmd 0x00000012#32)
    ∧ decode [0x0C#8] = .ok .rdStatus
    ∧ decode [0x4C#8, 0x02#8, 0x00#8, 0x00#8, 0x00#8] = .ok (.wrStatus 0x00000002#32)
    ∧ decode [0x54#8, 0x00#8, 0x10#8, 0x00#8, 0x00#8] = .ok (.wrXAddr 0x00001000#32)
    ∧ decode [0x60#8, 0x80#8, 0x96#8, 0x98#8, 0x00#8] = .ok (.wrN 10000000#32)
    ∧ decode [0x2C#8] = .ok .rdOutCount
    ∧ decode [0x74#8, 0x01#8, 0x00#8, 0x00#8, 0x00#8] = .ok (.wrReserved 1#2 0x00000001#32)

/-- Every word of 32 bits other than the two commands is an illegal command (R111, R112): the words the engine takes
as CONV_SCALAR and CONV_VECTOR are those two and no other, whatever their OPCODE field says. -/
def Obligations.CommandWordsAreDecodedWhole : Prop :=
  ∀ v : Word,
    (decodeCmd v = .scalar ↔ v.toNat = 1) ∧ (decodeCmd v = .vector ↔ v.toNat = 2)
      ∧ (decodeCmd v = .illegal ↔ v.toNat % 16 ≠ 1 ∧ v.toNat % 16 ≠ 2 ∨ v.toNat / 16 ≠ 0)

/-- Every combination of W and REG with BO = 00 is decoded, and its access has an effect in every state; with BO ≠ 00 no
combination is decoded (R101, R102, R103). -/
def Obligations.EveryWordIndexHasADefinedEffect : Prop :=
  ∀ (d : Byte) (v : Word), d.toNat < 128 →
    let frame := if d.toNat < 64 then [d] else d :: bytesOf v
    (d.toNat % 4 = 0 → ∃ i, decode frame = .ok i ∧ ∀ s, ∃ t, exec i s = .next t)
      ∧ (d.toNat % 4 ≠ 0 → decode frame = .error .byteOffset)

/-! ### The bus and the step -/

/-- When the host's next access is the frame of an instruction, the step is that instruction's meaning, in the state
whose schedule has moved past the access. -/
def Obligations.StepRunsTheDecodedAccess : Prop :=
  (∀ (s : State) (a : HostAccess) (rest : List Event) (frame : List Byte) (i : Instr),
      s.schedule = .access a :: rest → s.inReset = false →
      busFrame s.platform a = .ok frame → decode frame = .ok i →
      step s = exec i { s with schedule := rest })
    ∧ (∀ (s : State) (rest : List Event) (i : Instr), i.wellFormed = true → s.inReset = false →
      s.schedule = .access (accessOfFrame s.platform (encode i)) :: rest →
      step s = exec i { s with schedule := rest })

/-- The engine moves when the schedule says so and when the host has nothing scheduled (40_host_access.md R159), and while
reset is asserted a turn of the engine, scheduled or not, changes nothing but that the schedule moves past it
(70_reset_and_hazards.md R270). The reading of an empty schedule is the model's choice (log 2). -/
def Obligations.StepGivesTheEngineItsTurn : Prop :=
  (∀ (s : State) (rest : List Event), s.schedule = .engine :: rest → s.inReset = false →
      step s = engineStep { s with schedule := rest })
    ∧ (∀ (s : State) (rest : List Event), s.schedule = .engine :: rest → s.inReset = true →
      step s = .next { s with schedule := rest })
    ∧ (∀ s : State, s.schedule = [] → s.inReset = false → step s = engineStep s)
    ∧ (∀ s : State, s.schedule = [] → s.inReset = true → step s = .next s)

/-- A register access of another width than 32 bits, or at a byte offset that is no multiple of 4, is refused (R102). -/
def Obligations.UnsupportedAccessesAreRefused : Prop :=
  ∀ (s : State) (a : HostAccess) (rest : List Event),
    s.schedule = .access a :: rest → s.inReset = false →
    s.platform.regBase ≤ a.addr → a.addr < s.platform.regBase + 64 →
    (a.width ≠ 4 → step s = .refused (.accessWidth a.width))
      ∧ (a.width = 4 → (a.addr - s.platform.regBase) % 4 ≠ 0 → step s = .refused .byteOffset)

/-- A 32-bit read at REG_BASE + 4·k returns the value of register k and changes nothing else (R103, R130). -/
def Obligations.BusReadReturnsTheRegister : Prop :=
  ∀ (s : State) (k : Nat) (v : Word) (rest : List Event),
    k < 16 → s.inReset = false →
    s.schedule = .access { write := false, addr := s.platform.regBase + 4 * k, width := 4, data := v } :: rest →
    step s = .next { s with
      schedule := rest
      hostRead :=
        match k with
        | 0 => 0x46495238#32
        | 1 => 0x01000108#32
        | 2 => BitVec.ofNat 32 ((if s.irqEn then 1 else 0) + (if s.injAllocFail then 2 else 0))
        | 3 => BitVec.ofNat 32 ((if s.phase = .idle then 0 else 1) + (if s.done then 2 else 0)
            + (if s.cmdOvr then 4 else 0) + 256 * s.errcode.toNat)
        | 5 => s.xAddr
        | 6 => s.hAddr
        | 7 => s.yAddr
        | 8 => s.nReg
        | 9 => s.mReg
        | 10 => s.errAddr
        | 11 => s.outCount
        | _ => 0x00000000#32 }

/-- X_ADDR, H_ADDR, Y_ADDR, N and M read back as written, all 32 bits, whatever the engine is doing
(10_state.md R36 to R40). -/
def Obligations.OperandRegistersReadBackAsWritten : Prop :=
  ∀ (s : State) (k : Nat) (v w : Word) (rest : List Event),
    5 ≤ k → k ≤ 9 → s.inReset = false →
    s.schedule =
      .access { write := true, addr := s.platform.regBase + 4 * k, width := 4, data := v }
        :: .access { write := false, addr := s.platform.regBase + 4 * k, width := 4, data := w } :: rest →
    ∃ t, runSteps 2 s = .next t ∧ t.hostRead = v ∧ t.schedule = rest

/-! ### Register accesses -/

/-- RD ID and RD CAPS, with their descriptors (40_host_access.md R132, R134). -/
def Obligations.IdentificationReads : Prop :=
  decode [0x00#8] = .ok .rdId ∧ decode [0x04#8] = .ok .rdCaps ∧ ∀ s : State,
    exec .rdId s = .next { s with hostRead := 0x46495238#32 }
      ∧ exec .rdCaps s = .next { s with hostRead := 0x01000108#32 }

/-- RD CTRL, RD STATUS and RD CMD, with their descriptors (R136, R138, R142). -/
def Obligations.ControlAndStatusReads : Prop :=
  decode [0x08#8] = .ok .rdCtrl ∧ decode [0x0C#8] = .ok .rdStatus ∧ decode [0x10#8] = .ok .rdCmd ∧ ∀ s : State,
    exec .rdCtrl s = .next { s with
        hostRead := BitVec.ofNat 32 (2 * s.injAllocFail.toNat + s.irqEn.toNat) }
      ∧ exec .rdStatus s = .next { s with
        hostRead := BitVec.ofNat 32
          (s.busy.toNat + s.done.toNat * 2 ^ 1 + s.cmdOvr.toNat * 2 ^ 2 + s.errcode.toNat * 2 ^ 8) }
      ∧ exec .rdCmd s = .next { s with hostRead := 0x00000000#32 }

/-- RD X_ADDR, H_ADDR, Y_ADDR, N, M, with their descriptors (R143, R145, R147, R149, R151). -/
def Obligations.OperandReads : Prop :=
  (decode [0x14#8] = .ok .rdXAddr ∧ decode [0x18#8] = .ok .rdHAddr ∧ decode [0x1C#8] = .ok .rdYAddr
    ∧ decode [0x20#8] = .ok .rdN ∧ decode [0x24#8] = .ok .rdM) ∧ ∀ s : State,
    exec .rdXAddr s = .next { s with hostRead := s.xAddr }
      ∧ exec .rdHAddr s = .next { s with hostRead := s.hAddr }
      ∧ exec .rdYAddr s = .next { s with hostRead := s.yAddr }
      ∧ exec .rdN s = .next { s with hostRead := s.nReg }
      ∧ exec .rdM s = .next { s with hostRead := s.mReg }

/-- RD ERR_ADDR, RD OUT_COUNT and reads of reserved offsets, with their descriptors (R153, R155, R157). -/
def Obligations.ResultAndReservedReads : Prop :=
  (decode [0x28#8] = .ok .rdErrAddr ∧ decode [0x2C#8] = .ok .rdOutCount
    ∧ ∀ i : BitVec 2, decode [BitVec.ofNat 8 (0x30 + 4 * i.toNat)] = .ok (.rdReserved i)) ∧ ∀ s : State,
    exec .rdErrAddr s = .next { s with hostRead := s.errAddr }
      ∧ exec .rdOutCount s = .next { s with hostRead := s.outCount }
      ∧ ∀ i, exec (.rdReserved i) s = .next { s with hostRead := 0x00000000#32 }

/-- Writes of read-only registers and of reserved offsets have no effect, with their descriptors (R133, R135, R154,
R156, R158). -/
def Obligations.ReadOnlyAndReservedWritesDoNothing : Prop :=
  ∀ (s : State) (v : Word),
    (decode (0x40#8 :: bytesOf v) = .ok (.wrId v) ∧ decode (0x44#8 :: bytesOf v) = .ok (.wrCaps v)
      ∧ decode (0x68#8 :: bytesOf v) = .ok (.wrErrAddr v) ∧ decode (0x6C#8 :: bytesOf v) = .ok (.wrOutCount v)
      ∧ ∀ i : BitVec 2, decode (BitVec.ofNat 8 (0x70 + 4 * i.toNat) :: bytesOf v) = .ok (.wrReserved i v))
    ∧ exec (.wrId v) s = .next s ∧ exec (.wrCaps v) s = .next s ∧ exec (.wrErrAddr v) s = .next s
      ∧ exec (.wrOutCount v) s = .next s ∧ ∀ i, exec (.wrReserved i v) s = .next s

/-- WR CTRL stores the two fields, ignores the rest, and the interrupt output follows at once (R137). -/
def Obligations.CtrlWriteStoresItsFields : Prop :=
  ∀ (s : State) (v : Word),
    decode (0x48#8 :: bytesOf v) = .ok (.wrCtrl v) ∧ ∃ t, exec (.wrCtrl v) s = .next t
      ∧ t = { s with irqEn := decide (v.toNat % 2 = 1), injAllocFail := decide (v.toNat / 2 % 2 = 1) }
      ∧ t.irq = (s.done && decide (v.toNat % 2 = 1))

/-- WR STATUS clears DONE and CMD_OVR where the data has a 1, and touches nothing else, neither BUSY nor ERRCODE
(R141). -/
def Obligations.StatusWriteClearsWhereOne : Prop :=
  ∀ (s : State) (v : Word),
    decode (0x4C#8 :: bytesOf v) = .ok (.wrStatus v)
      ∧ exec (.wrStatus v) s = .next { s with
      done := if v.toNat / 2 % 2 = 1 then false else s.done
      cmdOvr := if v.toNat / 4 % 2 = 1 then false else s.cmdOvr }

/-- WR X_ADDR, H_ADDR, Y_ADDR, N, M store all 32 bits and leave the latched operands and all else alone (R144, R146,
R148, R150, R152). -/
def Obligations.OperandWrites : Prop :=
  ∀ (s : State) (v : Word),
    (decode (0x54#8 :: bytesOf v) = .ok (.wrXAddr v) ∧ decode (0x58#8 :: bytesOf v) = .ok (.wrHAddr v)
      ∧ decode (0x5C#8 :: bytesOf v) = .ok (.wrYAddr v) ∧ decode (0x60#8 :: bytesOf v) = .ok (.wrN v)
      ∧ decode (0x64#8 :: bytesOf v) = .ok (.wrM v))
    ∧ exec (.wrXAddr v) s = .next { s with xAddr := v }
      ∧ exec (.wrHAddr v) s = .next { s with hAddr := v }
      ∧ exec (.wrYAddr v) s = .next { s with yAddr := v }
      ∧ exec (.wrN v) s = .next { s with nReg := v }
      ∧ exec (.wrM v) s = .next { s with mReg := v }

/-- Each register is changed by its own accesses only: of all 28 rows only the named one changes it, and no access
changes memory, the coefficient RAM, the accumulators, the platform or what is scheduled (R130, R131). -/
def Obligations.AccessesChangeOnlyTheirOwnState : Prop :=
  ∀ (i : Instr) (s t : State), exec i s = .next t →
    ((∀ v, i ≠ .wrXAddr v) → t.xAddr = s.xAddr) ∧ ((∀ v, i ≠ .wrHAddr v) → t.hAddr = s.hAddr)
      ∧ ((∀ v, i ≠ .wrYAddr v) → t.yAddr = s.yAddr) ∧ ((∀ v, i ≠ .wrN v) → t.nReg = s.nReg)
      ∧ ((∀ v, i ≠ .wrM v) → t.mReg = s.mReg)
      ∧ ((∀ v, i ≠ .wrCtrl v) → t.irqEn = s.irqEn ∧ t.injAllocFail = s.injAllocFail)
      ∧ (i.isRead = false → t.hostRead = s.hostRead)
      ∧ (i ≠ .convScalar → i ≠ .convVector → (∀ v, i ≠ .wrCmd v) →
          t.errcode = s.errcode ∧ t.errAddr = s.errAddr ∧ t.outCount = s.outCount ∧ t.phase = s.phase
            ∧ t.pi = s.pi ∧ t.n = s.n ∧ t.lOp = s.lOp ∧ t.lX = s.lX ∧ t.lH = s.lH ∧ t.lY = s.lY ∧ t.lN = s.lN
            ∧ t.lM = s.lM
            ∧ ((∀ v, i ≠ .wrStatus v) → t.done = s.done ∧ t.cmdOvr = s.cmdOvr))
      ∧ t.mem = s.mem ∧ t.coef = s.coef ∧ t.acc = s.acc ∧ t.sacc = s.sacc ∧ t.inReset = s.inReset
      ∧ t.platform = s.platform ∧ t.schedule = s.schedule ∧ t.busTrace = s.busTrace

/-! ### Command acceptance -/

/-- A CMD write while a command runs is dropped: it sets CMD_OVR and changes nothing else, legal word or not, and every
data word of a write with descriptor 0x50 is one of the three instructions named (R139). -/
def Obligations.CommandWhileBusyIsDropped : Prop :=
  ∀ (s : State) (v : Word), s.phase ≠ .idle →
    (∃ i, decode (0x50#8 :: bytesOf v) = .ok i ∧ exec i s = .next { s with cmdOvr := true })
      ∧ exec .convScalar s = .next { s with cmdOvr := true }
      ∧ exec .convVector s = .next { s with cmdOvr := true }
      ∧ exec (.wrCmd v) s = .next { s with cmdOvr := true }

/-- Acceptance, the pseudocode of R140, for every data word of a write with descriptor 0x50: the result registers are
cleared, the command and the operands latched, and the command starts or completes with its first failing check in the
same step, with its code of 60_exceptions.md R231; CMD_OVR, the operand registers, memory and all else stay. -/
def Obligations.AcceptanceLatchesAndChecks : Prop :=
  ∀ (s : State) (i : Instr) (v : Word), s.phase = .idle →
    (decode (0x50#8 :: bytesOf v) = .ok i ∨ i = .wrCmd v ∨ i = .convScalar ∧ v = 0x00000001#32
      ∨ i = .convVector ∧ v = 0x00000002#32) →
    exec i s = .next (
      let t := { s with
        done := false, errcode := 0#4, errAddr := 0x00000000#32, outCount := 0x00000000#32
        lOp := if v = 0x00000001#32 then .scalar else if v = 0x00000002#32 then .vector else .illegal
        lX := s.xAddr, lH := s.hAddr, lY := s.yAddr, lN := s.nReg, lM := s.mReg }
      match check t.lOp t.lX.toNat t.lH.toNat t.lY.toNat t.lN.toNat t.lM.toNat s.injAllocFail with
      | some e => { t with
          done := true
          errcode :=
            match e with
            | .illegal => 1#4
            | .param => 2#4
            | .align => 3#4
            | .range => 4#4
            | .overlap => 5#4
            | .alloc => 6#4
            | .bus _ => 7#4 }
      | none =>
        if v = 0x00000001#32 then { t with phase := .conv, n := s.mReg.toNat - 1 }
        else { t with phase := .pack, pi := 0 })

/-- The order of the checks and their conditions in exact arithmetic (60_exceptions.md R240, R232 to R237). -/
def Obligations.ChecksAreMadeInOrder : Prop :=
  ∀ (op : Op) (x h y n m : Nat) (inj : Bool),
    check op x h y n m inj =
      if op = .illegal then some .illegal
      else if m = 0 ∨ m > n then some .param
      else if x % 4 ≠ 0 ∨ h % 4 ≠ 0 ∨ y % 4 ≠ 0 then some .align
      else if x + 4 * n > 2 ^ 32 ∨ h + 4 * m > 2 ^ 32 ∨ y + 4 * n > 2 ^ 32 then some .range
      else if (y + 4 * (m - 1) < x + 4 * n ∧ x < y + 4 * n) ∨ (y + 4 * (m - 1) < h + 4 * m ∧ h < y + 4 * n) then
        some .overlap
      else if op = .vector ∧ (8 * ((m + 7) / 8) > 256 ∨ inj = true) then some .alloc
      else none

/-- An illegal word written while idle completes at once with ERR_ILLEGAL, without a memory access (R112, R232). -/
def Obligations.IllegalCommandCompletesAtOnce : Prop :=
  ∀ (s : State) (v : Word), s.phase = .idle → v.toNat ≠ 1 → v.toNat ≠ 2 →
    exec (.wrCmd v) s = .next { s with
      done := true, errcode := 1#4, errAddr := 0x00000000#32, outCount := 0x00000000#32
      lOp := .illegal, lX := s.xAddr, lH := s.hAddr, lY := s.yAddr, lN := s.nReg, lM := s.mReg }

/-- CONV_SCALAR with legal operands, presented while idle, starts: the operands are latched, phase is CONV and n is M-1
(R140; 41_scalar_convolution.md R171). INJ_ALLOC_FAIL and the size of the coefficient RAM do not matter (R176). -/
def Obligations.ScalarCommandStarts : Prop :=
  ∀ s : State, s.phase = .idle →
    1 ≤ s.mReg.toNat → s.mReg.toNat ≤ s.nReg.toNat →
    s.xAddr.toNat % 4 = 0 → s.hAddr.toNat % 4 = 0 → s.yAddr.toNat % 4 = 0 →
    s.xAddr.toNat + 4 * s.nReg.toNat ≤ 2 ^ 32 → s.hAddr.toNat + 4 * s.mReg.toNat ≤ 2 ^ 32 →
    s.yAddr.toNat + 4 * s.nReg.toNat ≤ 2 ^ 32 →
    (s.xAddr.toNat + 4 * s.nReg.toNat ≤ s.yAddr.toNat + 4 * (s.mReg.toNat - 1)
      ∨ s.yAddr.toNat + 4 * s.nReg.toNat ≤ s.xAddr.toNat) →
    (s.hAddr.toNat + 4 * s.mReg.toNat ≤ s.yAddr.toNat + 4 * (s.mReg.toNat - 1)
      ∨ s.yAddr.toNat + 4 * s.nReg.toNat ≤ s.hAddr.toNat) →
    exec .convScalar s = .next { s with
      done := false, errcode := 0#4, errAddr := 0x00000000#32, outCount := 0x00000000#32
      lOp := .scalar, lX := s.xAddr, lH := s.hAddr, lY := s.yAddr, lN := s.nReg, lM := s.mReg
      phase := .conv, n := s.mReg.toNat - 1 }

/-- CONV_VECTOR with legal operands that fit the coefficient RAM, no failure injected, presented while idle, starts: the
operands are latched, phase is PACK and pi is 0 (R140; 42_vector_convolution.md R191, R194). -/
def Obligations.VectorCommandStarts : Prop :=
  ∀ s : State, s.phase = .idle →
    1 ≤ s.mReg.toNat → s.mReg.toNat ≤ s.nReg.toNat →
    s.xAddr.toNat % 4 = 0 → s.hAddr.toNat % 4 = 0 → s.yAddr.toNat % 4 = 0 →
    s.xAddr.toNat + 4 * s.nReg.toNat ≤ 2 ^ 32 → s.hAddr.toNat + 4 * s.mReg.toNat ≤ 2 ^ 32 →
    s.yAddr.toNat + 4 * s.nReg.toNat ≤ 2 ^ 32 →
    (s.xAddr.toNat + 4 * s.nReg.toNat ≤ s.yAddr.toNat + 4 * (s.mReg.toNat - 1)
      ∨ s.yAddr.toNat + 4 * s.nReg.toNat ≤ s.xAddr.toNat) →
    (s.hAddr.toNat + 4 * s.mReg.toNat ≤ s.yAddr.toNat + 4 * (s.mReg.toNat - 1)
      ∨ s.yAddr.toNat + 4 * s.nReg.toNat ≤ s.hAddr.toNat) →
    s.mReg.toNat ≤ 256 → s.injAllocFail = false →
    exec .convVector s = .next { s with
      done := false, errcode := 0#4, errAddr := 0x00000000#32, outCount := 0x00000000#32
      lOp := .vector, lX := s.xAddr, lH := s.hAddr, lY := s.yAddr, lN := s.nReg, lM := s.mReg
      phase := .pack, pi := 0 }

/-- The capacity check belongs to CONV_VECTOR alone: with operands that pass every other check it fails exactly when
ceil8(M) exceeds 256 or INJ_ALLOC_FAIL is 1, with code 6 and no memory access, and else the command starts. CONV_SCALAR
never completes with code 6, at acceptance or later, and does not depend on INJ_ALLOC_FAIL (R237;
41_scalar_convolution.md R176). -/
def Obligations.AllocationFailsForVectorOnly : Prop :=
  (∀ s t : State, s.phase = .idle → exec .convVector s = .next t →
      check .scalar s.xAddr.toNat s.hAddr.toNat s.yAddr.toNat s.nReg.toNat s.mReg.toNat false = none →
      ((8 * ((s.mReg.toNat + 7) / 8) > 256 ∨ s.injAllocFail = true) →
        t.phase = .idle ∧ t.done = true ∧ t.errcode = 6#4 ∧ t.errAddr = 0x00000000#32
          ∧ t.outCount = 0x00000000#32 ∧ t.mem = s.mem ∧ t.busTrace = s.busTrace)
        ∧ (8 * ((s.mReg.toNat + 7) / 8) ≤ 256 → s.injAllocFail = false →
          t.phase = .pack ∧ t.done = false ∧ t.errcode = 0#4))
    ∧ (∀ s t : State, s.phase = .idle → exec .convScalar s = .next t → t.errcode ≠ 6#4)
    ∧ (∀ s t : State, s.phase ≠ .idle → s.lOp = .scalar → s.errcode = 0#4 → engineStep s = .next t →
      t.errcode ≠ 6#4)
    ∧ (∀ (s t : State) (b : Bool), exec .convScalar s = .next t →
      exec .convScalar { s with injAllocFail := b } = .next { t with injAllocFail := b })

/-! ### Engine steps -/

/-- One pack step: a real tap is read from h[pi] and a padding tap is +0.0, the entry 8·(pi div 8) + 7 - pi mod 8 takes
it, and after the last tap the engine enters CONV at n = L_M - 1 (42_vector_convolution.md R192, R193, R194). -/
def Obligations.PackStepStoresTheTapReversed : Prop :=
  ∀ s : State, s.phase = .pack → s.lOp = .vector →
    (s.pi < s.lM.toNat → hElem s s.pi + 4 ≤ 2 ^ 32 ∧ busErr s .read (hElem s s.pi) = false) →
    engineStep s = .next { s with
      coef := s.coef.setIfInBounds (8 * (s.pi / 8) + (7 - s.pi % 8))
        (if s.pi < s.lM.toNat then s.mem.readWord (s.lH.toNat + 4 * s.pi) else 0x00000000#32)
      pi := s.pi + 1
      phase := if s.pi + 1 = 8 * ((s.lM.toNat + 7) / 8) then .conv else .pack
      n := if s.pi + 1 = 8 * ((s.lM.toNat + 7) / 8) then s.lM.toNat - 1 else s.n
      busTrace := s.busTrace ++
        (if s.pi < s.lM.toNat then [⟨.read, s.lH.toNat + 4 * s.pi⟩] else []) }

/-- One element step of CONV_SCALAR when none of its accesses errors: y[n] takes the sum of R172, OUT_COUNT counts it, and
the command completes after the last element or goes on to the next (41_scalar_convolution.md R172, R174;
60_exceptions.md R241). -/
def Obligations.ScalarElementStepWritesTheSum : Prop :=
  ∀ s : State, s.phase = .conv → s.lOp = .scalar →
    (∀ a ∈ scalarAccesses s, a.addr + 4 ≤ 2 ^ 32 ∧ busErr s a.dir a.addr = false) →
    engineStep s = .next (
      let v := scalarValue s.mem s.lX.toNat s.lH.toNat s.lM.toNat s.n
      let t := { s with
        sacc := v
        mem := s.mem.writeWord (s.lY.toNat + 4 * s.n) v
        outCount := s.outCount + 1#32
        busTrace := s.busTrace ++ scalarAccesses s }
      if s.n + 1 = s.lN.toNat then { t with phase := .idle, errcode := 0#4, done := true }
      else { t with n := s.n + 1 })

/-- One element step of CONV_VECTOR when none of its accesses errors: every lane accumulates its products in ascending
block order, an inactive lane contributes +0.0, y[n] takes the reduction of the lanes, and the command completes after
the last element or goes on (42_vector_convolution.md R195, R196, R198, R199). -/
def Obligations.VectorElementStepWritesTheReduction : Prop :=
  ∀ s : State, s.phase = .conv → s.lOp = .vector →
    (∀ a ∈ vectorAccesses s, a.addr + 4 ≤ 2 ^ 32 ∧ busErr s a.dir a.addr = false) →
    ∃ acc : Vector Word 8,
      (∀ j : Fin 8, acc[j] =
        (List.range (8 * ((s.lM.toNat + 7) / 8) / 8)).foldl
          (fun a b => f32Add a
            (if 8 * b + 7 - j < s.lM.toNat then
              f32Mul (coefAt s (8 * b + j)) (s.mem.readWord (s.lX.toNat + 4 * (s.n - (8 * b + 7 - j))))
            else 0x00000000#32)) 0x00000000#32)
      ∧ engineStep s = .next (
        let v := f32Add (f32Add (f32Add acc[0] acc[4]) (f32Add acc[1] acc[5]))
          (f32Add (f32Add acc[2] acc[6]) (f32Add acc[3] acc[7]))
        let t := { s with
          acc := acc
          mem := s.mem.writeWord (s.lY.toNat + 4 * s.n) v
          outCount := s.outCount + 1#32
          busTrace := s.busTrace ++ vectorAccesses s }
        if s.n + 1 = s.lN.toNat then { t with phase := .idle, errcode := 0#4, done := true }
        else { t with n := s.n + 1 })

/-- The first access of a step, in the order of 20_memory.md R81, that gets an error response ends the command: no later
access is made, ERRCODE is 7, ERR_ADDR the address, DONE 1, phase IDLE, the element is not written and not counted, and
every register of the host keeps its value (60_exceptions.md R238, R242). -/
def Obligations.FirstBusErrorEndsTheCommand : Prop :=
  ∀ (s : State) (before after : List MemAccess) (a : MemAccess),
    (s.phase = .conv ∧ s.lOp = .scalar ∧ scalarAccesses s = before ++ a :: after
      ∨ s.phase = .conv ∧ s.lOp = .vector ∧ vectorAccesses s = before ++ a :: after
      ∨ s.phase = .pack ∧ s.lOp = .vector ∧ packAccesses s = before ++ a :: after) →
    (∀ b ∈ before, b.addr + 4 ≤ 2 ^ 32 ∧ busErr s b.dir b.addr = false) →
    a.addr + 4 ≤ 2 ^ 32 → busErr s a.dir a.addr = true →
    ∃ t, engineStep s = .next t
      ∧ t.errcode = 7#4 ∧ t.errAddr.toNat = a.addr ∧ t.done = true ∧ t.phase = .idle
      ∧ t.mem = s.mem ∧ t.outCount = s.outCount ∧ t.coef = s.coef
      ∧ t.busTrace = s.busTrace ++ before ++ [a]
      ∧ t.irqEn = s.irqEn ∧ t.injAllocFail = s.injAllocFail ∧ t.cmdOvr = s.cmdOvr ∧ t.xAddr = s.xAddr
      ∧ t.hAddr = s.hAddr ∧ t.yAddr = s.yAddr ∧ t.nReg = s.nReg ∧ t.mReg = s.mReg ∧ t.hostRead = s.hostRead

/-- The accesses of an element in the order of 20_memory.md R81: for CONV_SCALAR h[k] before x[n-k] with k ascending,
then y[n]; for CONV_VECTOR the lane j of block b is the read number of the active lanes before it, blocks ascending and
lanes ascending, then y[n]. -/
def Obligations.AccessesFollowTheArchitecturalOrder : Prop :=
  (∀ s : State,
      (scalarAccesses s).length = 2 * s.lM.toNat + 1
        ∧ (∀ k < s.lM.toNat,
          (scalarAccesses s)[2 * k]? = some ⟨.read, s.lH.toNat + 4 * k⟩
            ∧ (scalarAccesses s)[2 * k + 1]? = some ⟨.read, s.lX.toNat + 4 * (s.n - k)⟩)
        ∧ (scalarAccesses s)[2 * s.lM.toNat]? = some ⟨.write, s.lY.toNat + 4 * s.n⟩)
    ∧ (∀ s : State,
      (vectorAccesses s).length = s.lM.toNat + 1
        ∧ (∀ b j, j < 8 → 8 * b + 7 - j < s.lM.toNat →
          (vectorAccesses s)[8 * b + j - (8 * b + 8 - min (8 * b + 8) s.lM.toNat)]? =
            some ⟨.read, s.lX.toNat + 4 * (s.n - (8 * b + 7 - j))⟩)
        ∧ (vectorAccesses s)[s.lM.toNat]? = some ⟨.write, s.lY.toNat + 4 * s.n⟩)

/-- An engine step changes no byte of memory outside the four bytes of y[n], none while idle or packing, and the bytes
of y[n] are those of the accumulated value, lowest byte first (20_memory.md R72, R80; R175, R200). -/
def Obligations.EngineWritesOnlyTheCurrentElement : Prop :=
  ∀ s t : State, engineStep s = .next t →
    (∀ a, s.phase ≠ .conv ∨ a < yElem s s.n ∨ yElem s s.n + 4 ≤ a → t.mem.readByte a = s.mem.readByte a)
      ∧ (s.phase = .conv → t.outCount = s.outCount → t.mem = s.mem)
      ∧ (s.mem.wf = true → s.phase = .conv → t.outCount ≠ s.outCount → ∀ k < 4,
        t.mem.readByte (yElem s s.n + k) =
          (if s.lOp = .scalar then t.sacc else reduceLanes t.acc).extractLsb' (8 * k) 8)

/-- An engine step leaves every register of the host, the latched operands, CTRL, CMD_OVR, the schedule and the platform
alone; CONV_SCALAR leaves the coefficient RAM and the vector accumulator, the CONV phase of CONV_VECTOR the coefficient
RAM and the scalar accumulator (60_exceptions.md R239; 41_scalar_convolution.md R173; 10_state.md R47). -/
def Obligations.EngineLeavesTheHostsRegisters : Prop :=
  ∀ s t : State, engineStep s = .next t →
    t.irqEn = s.irqEn ∧ t.injAllocFail = s.injAllocFail ∧ t.cmdOvr = s.cmdOvr ∧ t.xAddr = s.xAddr
      ∧ t.hAddr = s.hAddr ∧ t.yAddr = s.yAddr ∧ t.nReg = s.nReg ∧ t.mReg = s.mReg
      ∧ t.lOp = s.lOp ∧ t.lX = s.lX ∧ t.lH = s.lH ∧ t.lY = s.lY ∧ t.lN = s.lN ∧ t.lM = s.lM
      ∧ t.inReset = s.inReset ∧ t.platform = s.platform ∧ t.schedule = s.schedule ∧ t.hostRead = s.hostRead
      ∧ (s.phase ≠ .pack → t.coef = s.coef) ∧ (s.lOp = .scalar → t.acc = s.acc)
      ∧ (s.lOp = .vector → t.sacc = s.sacc)

/-- Every access an engine step of a safe run makes lies in the regions of 20_memory.md R80, at a multiple of 4 (R71). -/
def Obligations.EngineAccessesStayInTheRegions : Prop :=
  ∀ s t : State, Inv s → engineStep s = .next t →
    ∃ made, t.busTrace = s.busTrace ++ made ∧ ∀ a ∈ made, InRegions s a

/-- In a safe run the engine never stops: a step answers a next state, and while busy it comes nearer to completion
(70_reset_and_hazards.md R284). -/
def Obligations.EngineAlwaysMakesProgress : Prop :=
  ∀ s : State, Inv s →
    ∃ t, engineStep s = .next t ∧ (s.busy = true → stepsLeft t < stepsLeft s)

/-! ### Whole commands -/

/-- CONV_SCALAR, from the host's CMD write to its completion: with legal operands and no bus errors it takes exactly
N - M + 1 element steps, which stand in the schedule as engine turns after the write, whatever follows them; it writes
y[n] with the value of R172 for every n in [M-1, N-1], changes no other byte, counts the elements, and completes with
DONE = 1 and ERRCODE = 0 (41_scalar_convolution.md R170, R171, R175; 70_reset_and_hazards.md R283). -/
def Obligations.ScalarCommandComputesTheConvolution : Prop :=
  ∀ (s : State) (rest : List Event),
    s.phase = .idle → s.inReset = false → s.mem.wf = true → NoBusErrors s →
    s.schedule = .access (accessOfFrame s.platform (encode .convScalar))
      :: (List.replicate (s.nReg.toNat - s.mReg.toNat + 1) .engine ++ rest) →
    check .scalar s.xAddr.toNat s.hAddr.toNat s.yAddr.toNat s.nReg.toNat s.mReg.toNat s.injAllocFail = none →
    (∀ k ≤ s.nReg.toNat - s.mReg.toNat, ∃ t, runSteps (1 + k) s = .next t
        ∧ t.busy = true ∧ t.done = false ∧ t.outCount.toNat = k)
      ∧ ∃ t, runSteps (1 + (s.nReg.toNat - s.mReg.toNat + 1)) s = .next t
        ∧ t.schedule = rest ∧ t.busy = false ∧ t.done = true ∧ t.errcode = 0#4 ∧ t.errAddr = 0x00000000#32
        ∧ t.outCount.toNat = s.nReg.toNat - s.mReg.toNat + 1
        ∧ (∀ n, s.mReg.toNat - 1 ≤ n → n < s.nReg.toNat →
          t.mem.readWord (s.yAddr.toNat + 4 * n) =
            scalarValue s.mem s.xAddr.toNat s.hAddr.toNat s.mReg.toNat n)
        ∧ (∀ a, a < s.yAddr.toNat + 4 * (s.mReg.toNat - 1) ∨ s.yAddr.toNat + 4 * s.nReg.toNat ≤ a →
          t.mem.readByte a = s.mem.readByte a)

/-- CONV_VECTOR, from the host's CMD write to its completion: with legal operands and no bus errors it takes exactly
M_pad pack steps and N - M + 1 element steps, which stand in the schedule as engine turns after the write, whatever
follows them; it writes y[n] with the value of R196 and R198 for every n in [M-1, N-1], changes no other byte, counts the
elements, and completes with DONE = 1 and ERRCODE = 0 (42_vector_convolution.md R190, R194, R200;
70_reset_and_hazards.md R283). -/
def Obligations.VectorCommandComputesTheConvolution : Prop :=
  ∀ (s : State) (rest : List Event),
    s.phase = .idle → s.inReset = false → s.mem.wf = true → NoBusErrors s →
    s.schedule = .access (accessOfFrame s.platform (encode .convVector))
      :: (List.replicate (8 * ((s.mReg.toNat + 7) / 8) + (s.nReg.toNat - s.mReg.toNat + 1)) .engine ++ rest) →
    check .vector s.xAddr.toNat s.hAddr.toNat s.yAddr.toNat s.nReg.toNat s.mReg.toNat s.injAllocFail = none →
    (∀ k < 8 * ((s.mReg.toNat + 7) / 8) + (s.nReg.toNat - s.mReg.toNat + 1), ∃ t, runSteps (1 + k) s = .next t
        ∧ t.busy = true ∧ t.done = false ∧ t.outCount.toNat = k - 8 * ((s.mReg.toNat + 7) / 8))
      ∧ ∃ t, runSteps (1 + (8 * ((s.mReg.toNat + 7) / 8) + (s.nReg.toNat - s.mReg.toNat + 1))) s = .next t
        ∧ t.schedule = rest ∧ t.busy = false ∧ t.done = true ∧ t.errcode = 0#4 ∧ t.errAddr = 0x00000000#32
        ∧ t.outCount.toNat = s.nReg.toNat - s.mReg.toNat + 1
        ∧ (∀ n, s.mReg.toNat - 1 ≤ n → n < s.nReg.toNat →
          t.mem.readWord (s.yAddr.toNat + 4 * n) =
            vectorValue s.mem s.xAddr.toNat s.hAddr.toNat s.mReg.toNat n)
        ∧ (∀ a, a < s.yAddr.toNat + 4 * (s.mReg.toNat - 1) ∨ s.yAddr.toNat + 4 * s.nReg.toNat ≤ a →
          t.mem.readByte a = s.mem.readByte a)

/-- A command that runs in a safe run completes, whatever the platform's bus errors: once the engine has had the turns its
step count asks for, which stand in the schedule, it has been IDLE with DONE = 1 after one of them
(70_reset_and_hazards.md R283, R284). -/
def Obligations.EveryRunningCommandCompletes : Prop :=
  ∀ (s : State) (rest : List Event), Inv s → s.busy = true →
    s.schedule = List.replicate (stepsLeft s) .engine ++ rest →
    ∃ k t, 1 ≤ k ∧ k ≤ stepsLeft s ∧ runSteps k s = .next t ∧ t.busy = false ∧ t.done = true

/-- A reset during a command leaves the elements written so far and no others, and every register the host can read at
its reset value: after the CMD write, `turns` engine turns and the reset, the new values stand in y[M-1..M-2+c] and the
old ones in the rest, where c is `turns` for CONV_SCALAR, and for CONV_VECTOR `turns` less the M_pad pack steps, so that
a reset in PACK leaves no element written (70_reset_and_hazards.md R271, R270). Every c up to N - M + 1 is a number of
turns; that c is drawn by the schedule is the model's choice (log 11). -/
def Obligations.ResetLeavesAPrefixWritten : Prop :=
  ∀ (s : State) (i : Instr) (op : Op) (packs turns : Nat) (rest : List Event),
    (i = .convScalar ∧ op = .scalar ∧ packs = 0
      ∨ i = .convVector ∧ op = .vector ∧ packs = 8 * ((s.mReg.toNat + 7) / 8)) →
    s.phase = .idle → s.inReset = false → s.mem.wf = true → NoBusErrors s →
    check op s.xAddr.toNat s.hAddr.toNat s.yAddr.toNat s.nReg.toNat s.mReg.toNat s.injAllocFail = none →
    turns ≤ packs + (s.nReg.toNat - s.mReg.toNat + 1) →
    s.schedule =
      .access (accessOfFrame s.platform (encode i)) :: (List.replicate turns .engine ++ .resetAssert :: rest) →
    ∃ t, runSteps (1 + turns + 1) s = .next t
      ∧ ctrlWord t = 0x00000000#32 ∧ statusWord t = 0x00000000#32 ∧ t.irq = false
      ∧ t.xAddr = 0x00000000#32 ∧ t.hAddr = 0x00000000#32 ∧ t.yAddr = 0x00000000#32
      ∧ t.nReg = 0x00000000#32 ∧ t.mReg = 0x00000000#32
      ∧ t.errAddr = 0x00000000#32 ∧ t.outCount = 0x00000000#32 ∧ t.phase = .idle
      ∧ (∀ n, s.mReg.toNat - 1 ≤ n → n < s.mReg.toNat - 1 + (turns - packs) →
        t.mem.readWord (s.yAddr.toNat + 4 * n) =
          if op = .scalar then scalarValue s.mem s.xAddr.toNat s.hAddr.toNat s.mReg.toNat n
          else vectorValue s.mem s.xAddr.toNat s.hAddr.toNat s.mReg.toNat n)
      ∧ (∀ a, a < s.yAddr.toNat + 4 * (s.mReg.toNat - 1)
          ∨ s.yAddr.toNat + 4 * (s.mReg.toNat - 1 + (turns - packs)) ≤ a →
        t.mem.readByte a = s.mem.readByte a)

/-! ### Whole-machine rules -/

/-- Every step of every agent keeps the invariant. Its clause for asserted reset takes in the model's own reset values of
the coefficient RAM and the accumulators (log 4) and of L_OP (log 5). -/
def Obligations.StepKeepsTheInvariant : Prop :=
  ∀ s t : State, Inv s → step s = .next t → Inv t

/-- The machine after reset meets the invariant. -/
def Obligations.ResetMeetsTheInvariant : Prop := Inv State.reset

/-- Every step keeps the packed taps where they belong: the coefficient RAM of a running CONV_VECTOR holds the taps of
memory in reversed blocks, because no agent writes the filter meanwhile (42_vector_convolution.md R192, R193, R194;
70_reset_and_hazards.md R280 (a); 60_exceptions.md R236). -/
def Obligations.StepKeepsThePackedTaps : Prop :=
  ∀ s t : State, Inv s → CoefHoldsTaps s → step s = .next t → CoefHoldsTaps t

/-- BUSY falls by a completion, which sets DONE, or by reset, and by nothing else; DONE rises by a completion only: of
the running command, or of a command that fails its checks as it is accepted (60_exceptions.md R230, R241, R242, R246). -/
def Obligations.OnlyCompletionsEndCommands : Prop :=
  ∀ s t : State, step s = .next t →
    (s.busy = true → t.busy = false → t.done = true ∨ s.schedule.head? = some .resetAssert
        ∨ s.schedule.head? = some .resetRelease)
      ∧ (s.done = false → t.done = true →
        t.busy = false
          ∧ (s.busy = true ∧ (s.schedule = [] ∨ s.schedule.head? = some .engine)
            ∨ s.busy = false ∧ ∃ a v, s.schedule.head? = some (.access a) ∧
              (fetchAccess s a = .ok .convScalar ∨ fetchAccess s a = .ok .convVector
                ∨ fetchAccess s a = .ok (.wrCmd v))))

/-- The engine leaves IDLE by the acceptance of a command only, and an idle engine makes no memory access
(60_exceptions.md R253). -/
def Obligations.IdleIsLeftByAcceptanceOnly : Prop :=
  ∀ s t : State, s.phase = .idle → step s = .next t →
    t.busTrace = s.busTrace
      ∧ (t.phase ≠ .idle → ∃ a v, s.schedule.head? = some (.access a) ∧
        (fetchAccess s a = .ok .convScalar ∨ fetchAccess s a = .ok .convVector
          ∨ fetchAccess s a = .ok (.wrCmd v)))

/-- Memory is changed by element steps and by the host's own writes only: a step whose event is a register access, a
host read or a reset leaves every byte alone (20_memory.md R70, R80; 70_reset_and_hazards.md R270). -/
def Obligations.OnlyStoresChangeMemory : Prop :=
  ∀ (s t : State) (e : Event) (rest : List Event),
    s.schedule = e :: rest → step s = .next t → e ≠ .engine → (∀ a b, e ≠ .hostStore a b) →
    t.mem = s.mem ∧ t.busTrace = s.busTrace ∧ t.platform = s.platform ∧ t.schedule = rest

/-- The interrupt output: a completion of a running command raises it exactly when IRQ_EN is 1; WR STATUS with bit 1,
the start of a new command and reset lower it; IRQ_EN = 0 masks it and leaves DONE (10_state.md R50; 60_exceptions.md
R245). -/
def Obligations.InterruptFollowsCompletion : Prop :=
  (∀ s t : State, s.busy = true → engineStep s = .next t → t.busy = false → t.irq = s.irqEn)
    ∧ (∀ (s t : State) (v : Word), v.toNat / 2 % 2 = 1 → exec (.wrStatus v) s = .next t → t.irq = false)
    ∧ (∀ (i : Instr) (s t : State), exec i s = .next t → s.busy = false → t.busy = true → t.irq = false)
    ∧ (∀ (b : Bool) (s t : State) (rest : List Event),
      s.schedule = (if b then .resetAssert else .resetRelease) :: rest → step s = .next t → t.irq = false)
    ∧ (∀ (s t : State) (v : Word), v.toNat % 2 = 0 → exec (.wrCtrl v) s = .next t →
      t.irq = false ∧ t.done = s.done)

/-- The host may set up the next command while one runs: an engine step that does not complete the command and any
register access give the same state in either order, but for what a read returns (10_state.md R44; 70_reset_and_hazards.md R275, R277). -/
def Obligations.EngineIgnoresTheHostsWrites : Prop :=
  ∀ (i : Instr) (s t u : State), s.busy = true → t.busy = true →
    engineStep s = .next t → exec i s = .next u →
    ∃ w x : State, engineStep u = .next w ∧ exec i t = .next x ∧ w = { x with hostRead := w.hostRead }

/-- Both edges of the reset input put every piece of the block's state at its reset value, whatever was running, and
leave system memory and the platform as they were (10_state.md R53; 70_reset_and_hazards.md R270, R271, R272). The values
of coef, acc and sacc, which the spec leaves open, are not claimed; that L_OP = 0 reads as ILLEGAL is the model's choice
(log 5) and not claimed. -/
def Obligations.ResetEdgesRestoreTheResetValues : Prop :=
  ∀ (s : State) (b : Bool) (rest : List Event),
    s.schedule = (if b then .resetAssert else .resetRelease) :: rest →
    ∃ t, step s = .next t
      ∧ ctrlWord t = 0x00000000#32 ∧ statusWord t = 0x00000000#32 ∧ t.irq = false
      ∧ t.xAddr = 0x00000000#32 ∧ t.hAddr = 0x00000000#32 ∧ t.yAddr = 0x00000000#32
      ∧ t.nReg = 0x00000000#32 ∧ t.mReg = 0x00000000#32
      ∧ t.errAddr = 0x00000000#32 ∧ t.outCount = 0x00000000#32
      ∧ t.phase = .idle ∧ t.lX = 0x00000000#32 ∧ t.lH = 0x00000000#32 ∧ t.lY = 0x00000000#32
      ∧ t.lN = 0x00000000#32 ∧ t.lM = 0x00000000#32 ∧ t.pi = 0 ∧ t.n = 0
      ∧ t.mem = s.mem ∧ t.busTrace = s.busTrace ∧ t.platform = s.platform ∧ t.inReset = b ∧ t.schedule = rest

/-- The values the spec gives the machine after reset, as the host reads them (10_state.md R53, 95_test_vectors.md V-M1
to V-M4): the engine is idle, the interrupt masked and deasserted, and it starts nothing by itself (R272). That no byte of
memory is listed (log 7) and that a step of an empty schedule is the engine's turn (log 2) are the model's choice. -/
def Obligations.ResetValuesAreTheSpecs : Prop :=
  ctrlWord State.reset = 0x00000000#32 ∧ statusWord State.reset = 0x00000000#32 ∧ State.reset.irq = false
    ∧ State.reset.irqEn = false ∧ State.reset.xAddr = 0x00000000#32 ∧ State.reset.hAddr = 0x00000000#32
    ∧ State.reset.yAddr = 0x00000000#32 ∧ State.reset.nReg = 0x00000000#32 ∧ State.reset.mReg = 0x00000000#32
    ∧ State.reset.errAddr = 0x00000000#32 ∧ State.reset.outCount = 0x00000000#32
    ∧ State.reset.phase = .idle ∧ State.reset.mem = [] ∧ State.reset.inReset = false
    ∧ step State.reset = .next State.reset

/-- What breaches the host's duty is refused: a write of the signal or the filter of a running command, any access of an
output element that OUT_COUNT does not count, a register access while reset is asserted (70_reset_and_hazards.md R280
(a), (b), (f)). Other bytes of memory are read and written; that the byte read is held zero-extended is the model's choice
(log 8). -/
def Obligations.HostDutyBreachesAreRefused : Prop :=
  ∀ (s : State) (rest : List Event) (a : Nat) (v : Byte), a < 2 ^ 32 →
    (let input := s.phase ≠ .idle ∧
        (s.lX.toNat ≤ a ∧ a < s.lX.toNat + 4 * s.lN.toNat ∨ s.lH.toNat ≤ a ∧ a < s.lH.toNat + 4 * s.lM.toNat)
     let pending := s.phase ≠ .idle ∧
        s.lY.toNat + 4 * (s.lM.toNat - 1 + s.outCount.toNat) ≤ a ∧ a < s.lY.toNat + 4 * s.lN.toNat
     (s.schedule = .hostStore a v :: rest →
        (input → step s = .refused (.hostWritesInput a))
        ∧ (¬ input → pending → step s = .refused (.hostTouchesOutput a))
        ∧ (¬ input → ¬ pending →
          step s = .next { s with schedule := rest, mem := s.mem.writeByte a v }))
      ∧ (s.schedule = .hostLoad a :: rest →
        (pending → step s = .refused (.hostTouchesOutput a))
        ∧ (¬ pending → step s = .next { s with
          schedule := rest, hostRead := BitVec.ofNat 32 (s.mem.readByte a).toNat })))
    ∧ ∀ b : HostAccess, s.schedule = .access b :: rest → s.inReset = true → step s = .refused .accessInReset

/-! ### Arithmetic -/

/-- `f32_add` is commutative on bit patterns (00_scope.md R14). -/
def Obligations.AdditionCommutes : Prop := ∀ a b : Word, f32Add a b = f32Add b a

/-- The special cases of `f32_add` (R14): NaN results are canonical, opposite infinities give NaN, infinities of one sign
that infinity, an infinity absorbs a finite addend, an exact zero sum is +0.0 but for two negative zeros. -/
def Obligations.AdditionSpecialCases : Prop :=
  (∀ a b : Word, f32IsNaN a = true ∨ f32IsNaN b = true → f32Add a b = 0x7FC00000#32 ∧ f32Add b a = 0x7FC00000#32)
    ∧ (∀ a b : Word, f32IsNaN (f32Add a b) = true → f32Add a b = 0x7FC00000#32)
    ∧ f32Add 0x7F800000#32 0xFF800000#32 = 0x7FC00000#32 ∧ f32Add 0xFF800000#32 0x7F800000#32 = 0x7FC00000#32
    ∧ f32Add 0x7F800000#32 0x7F800000#32 = 0x7F800000#32 ∧ f32Add 0xFF800000#32 0xFF800000#32 = 0xFF800000#32
    ∧ (∀ a b : Word, f32IsInf a = true → f32IsNaN b = false → f32IsInf b = false → f32Add a b = a ∧ f32Add b a = a)
    ∧ (∀ a b : Word, f32Expo a < 255 → f32Expo b < 255 → f32Val a + f32Val b = 0 →
      f32Add a b = if a = 0x80000000#32 ∧ b = 0x80000000#32 then 0x80000000#32 else 0x00000000#32)

/-- The special cases of `f32_mul` (R13): NaN results are canonical, zero times infinity is NaN, an infinity times any
other value that is no NaN is an infinity, and every product but NaN has the exclusive-or of the signs. -/
def Obligations.MultiplicationSpecialCases : Prop :=
  (∀ a b : Word, f32IsNaN a = true ∨ f32IsNaN b = true → f32Mul a b = 0x7FC00000#32)
    ∧ (∀ a b : Word, f32IsNaN (f32Mul a b) = true → f32Mul a b = 0x7FC00000#32)
    ∧ (∀ a b : Word, f32IsInf a = true → f32Expo b < 255 → f32Mag b = 0 →
      f32Mul a b = 0x7FC00000#32 ∧ f32Mul b a = 0x7FC00000#32)
    ∧ (∀ a b : Word, f32IsInf a = true → f32IsNaN b = false → f32Mag b ≠ 0 →
      f32Mul a b = (if f32Sign a = f32Sign b then 0x7F800000#32 else 0xFF800000#32)
        ∧ f32Mul b a = (if f32Sign a = f32Sign b then 0x7F800000#32 else 0xFF800000#32))
    ∧ (∀ a b : Word, f32IsNaN (f32Mul a b) = false → f32Sign (f32Mul a b) = (f32Sign a != f32Sign b))
    ∧ (∀ a b : Word, f32Mul a b = f32Mul b a)

/-- The sum of two finite values (R14). From a magnitude of (2^25 - 1) · 2^252 on, in units of 2^-149, which is the largest
finite value and half of its last place, it is the infinity of its sign. Below that it is finite and the exact sum rounded
to the nearest representable value, a tie to the even significand: no finite binary32 value lies closer to the exact sum,
and one that lies as close has the result's value or the result's significand is even. -/
def Obligations.FiniteSumsAreRoundedToNearestEven : Prop :=
  ∀ a b : Word, f32Expo a < 255 → f32Expo b < 255 →
    ((2 ^ 25 - 1) * 2 ^ 252 ≤ |f32Val a + f32Val b| →
      f32Add a b = if f32Val a + f32Val b < 0 then 0xFF800000#32 else 0x7F800000#32)
    ∧ (|f32Val a + f32Val b| < (2 ^ 25 - 1) * 2 ^ 252 → f32Expo (f32Add a b) < 255 ∧ ∀ c : Word, f32Expo c < 255 →
      |f32Val (f32Add a b) - (f32Val a + f32Val b)| ≤ |f32Val c - (f32Val a + f32Val b)|
        ∧ (|f32Val (f32Add a b) - (f32Val a + f32Val b)| = |f32Val c - (f32Val a + f32Val b)| →
          f32Val c = f32Val (f32Add a b) ∨ f32Frac (f32Add a b) % 2 = 0))

/-- The product of two finite values (R13), which is a whole number of 2^-298. From a magnitude of (2^25 - 1) · 2^401 such
units on, the largest finite value and half of its last place, it is the infinity of its sign. Below that it is finite and
the exact product rounded to the nearest representable value, a tie to the even significand: subnormal results are kept,
not flushed. -/
def Obligations.FiniteProductsAreRoundedToNearestEven : Prop :=
  ∀ a b : Word, f32Expo a < 255 → f32Expo b < 255 →
    ((2 ^ 25 - 1) * 2 ^ 401 ≤ |f32Val a * f32Val b| →
      f32Mul a b = if f32Val a * f32Val b < 0 then 0xFF800000#32 else 0x7F800000#32)
    ∧ (|f32Val a * f32Val b| < (2 ^ 25 - 1) * 2 ^ 401 → f32Expo (f32Mul a b) < 255 ∧ ∀ c : Word, f32Expo c < 255 →
      |f32Val (f32Mul a b) * 2 ^ 149 - f32Val a * f32Val b| ≤ |f32Val c * 2 ^ 149 - f32Val a * f32Val b|
        ∧ (|f32Val (f32Mul a b) * 2 ^ 149 - f32Val a * f32Val b| = |f32Val c * 2 ^ 149 - f32Val a * f32Val b| →
          f32Val c = f32Val (f32Mul a b) ∨ f32Frac (f32Mul a b) % 2 = 0))

/-- Neither command writes -0.0 (41_scalar_convolution.md R178; 42_vector_convolution.md R204). -/
def Obligations.OutputsAreNeverNegativeZero : Prop :=
  ∀ (m : Memory) (x h taps n : Nat),
    scalarValue m x h taps n ≠ 0x80000000#32 ∧ vectorValue m x h taps n ≠ 0x80000000#32

/-- A NaN in a tap, or in a sample of the window of n, makes y[n] the canonical NaN in both commands (R178; R205). -/
def Obligations.NaNReachesTheOutput : Prop :=
  ∀ (m : Memory) (x h taps n k : Nat), k < taps →
    (f32IsNaN (m.readWord (h + 4 * k)) = true ∨ f32IsNaN (m.readWord (x + 4 * (n - k))) = true) →
    scalarValue m x h taps n = 0x7FC00000#32 ∧ vectorValue m x h taps n = 0x7FC00000#32

/-- A padded lane contributes nothing: to an accumulator lane, which is never -0.0 and whose NaN is canonical, adding +0.0
changes nothing, and neither does the product of a +0.0 coefficient and a finite sample, which the unmasked algorithm
would add (42_vector_convolution.md R195, R204). -/
def Obligations.PaddedLanesContributeNothing : Prop :=
  ∀ acc sample : Word,
    acc ≠ 0x80000000#32 → (f32IsNaN acc = true → acc = 0x7FC00000#32) → f32Expo sample < 255 →
    f32Add acc 0x00000000#32 = acc ∧ f32Add acc (f32Mul 0x00000000#32 sample) = acc

/-- With one tap both commands give the product h[0]·x[n], a -0.0 product turned into +0.0 (R178; R205). -/
def Obligations.OneTapGivesTheProduct : Prop :=
  ∀ (m : Memory) (x h n : Nat),
    let p := f32Mul (m.readWord h) (m.readWord (x + 4 * n))
    let v := if p = 0x80000000#32 then 0x00000000#32 else p
    scalarValue m x h 1 n = v ∧ vectorValue m x h 1 n = v

/-- The lanes of all blocks cover each tap exactly once, the slot of a tap is the lane that multiplies it, and within a
block the slots are the block's own entries (42_vector_convolution.md R192, R194, R203). -/
def Obligations.EveryTapHasItsLane : Prop :=
  ∀ t : Nat,
    slot (slot t) = t ∧ slot t / 8 = t / 8
      ∧ tapOf (slot t / 8) (slot t % 8) = t
      ∧ ∀ b j, j < 8 → (tapOf b j = t ↔ 8 * b + j = slot t)
end

