-- ==== Sys2Proof/Laws/Memory.lean ====
section
/-! SUPPORT. The laws of system memory: a read after a write, frames, the canonical form, and the four bytes of an
element (20_memory.md R72). -/

namespace Sys2Proof.Machine

/-! ### Bytes and words -/

theorem wordOf_byteOf (v : Word) :
    wordOf (byteOf v 0) (byteOf v 1) (byteOf v 2) (byteOf v 3) = v := by
  apply BitVec.eq_of_getLsbD_eq
  intro i hi
  simp only [wordOf, byteOf, BitVec.getLsbD_append, BitVec.getLsbD_extractLsb']
  rcases lt_or_ge i 8 with h | h
  · simp [h]
  · rcases lt_or_ge (i - 8) 8 with h2 | h2
    · have : 8 + (i - 8) = i := by omega
      simp [h2, show ¬ i < 8 by omega, this]
    · rcases lt_or_ge (i - 8 - 8) 8 with h3 | h3
      · have : 16 + (i - 8 - 8) = i := by omega
        simp [h3, show ¬ i < 8 by omega, show ¬ i - 8 < 8 by omega, this]
      · have : 24 + (i - 8 - 8 - 8) = i := by omega
        simp [show ¬ i < 8 by omega, show ¬ i - 8 < 8 by omega, show ¬ i - 8 - 8 < 8 by omega, this]
        omega

theorem byteOf_wordOf_0 (b0 b1 b2 b3 : Byte) : byteOf (wordOf b0 b1 b2 b3) 0 = b0 := by
  apply BitVec.eq_of_getLsbD_eq
  intro i hi
  simp only [wordOf, byteOf, BitVec.getLsbD_append, BitVec.getLsbD_extractLsb']
  simp [hi]

theorem byteOf_wordOf_1 (b0 b1 b2 b3 : Byte) : byteOf (wordOf b0 b1 b2 b3) 1 = b1 := by
  apply BitVec.eq_of_getLsbD_eq
  intro i hi
  simp only [wordOf, byteOf, BitVec.getLsbD_append, BitVec.getLsbD_extractLsb']
  simp [hi, show ¬ 8 + i < 8 by omega, show 8 + i - 8 = i by omega]

theorem byteOf_wordOf_2 (b0 b1 b2 b3 : Byte) : byteOf (wordOf b0 b1 b2 b3) 2 = b2 := by
  apply BitVec.eq_of_getLsbD_eq
  intro i hi
  simp only [wordOf, byteOf, BitVec.getLsbD_append, BitVec.getLsbD_extractLsb']
  simp [hi, show ¬ 16 + i < 8 by omega, show ¬ 16 + i - 8 < 8 by omega, show 16 + i - 8 - 8 = i by omega]

theorem byteOf_wordOf_3 (b0 b1 b2 b3 : Byte) : byteOf (wordOf b0 b1 b2 b3) 3 = b3 := by
  apply BitVec.eq_of_getLsbD_eq
  intro i hi
  simp only [wordOf, byteOf, BitVec.getLsbD_append, BitVec.getLsbD_extractLsb']
  simp [hi, show ¬ 24 + i < 8 by omega, show ¬ 24 + i - 8 < 8 by omega, show ¬ 24 + i - 8 - 8 < 8 by omega,
    show 24 + i - 8 - 8 - 8 = i by omega]

/-! ### The canonical form -/

theorem Memory.wf_cons {k : Nat} {b : Byte} {rest : Memory} :
    Memory.wf ((k, b) :: rest) = true ↔
      k < Config.memoryBytes ∧ b ≠ Config.unlistedByte ∧ (∀ c ∈ rest, k < c.1) ∧ Memory.wf rest = true := by
  simp [Memory.wf, and_assoc]

theorem Memory.readByte_of_all_gt {m : Memory} {a : Nat} (h : ∀ c ∈ m, a < c.1) :
    m.readByte a = Config.unlistedByte := by
  induction m with
  | nil => rfl
  | cons c rest ih =>
    obtain ⟨k, b⟩ := c
    have hk : a < k := h (k, b) List.mem_cons_self
    simp only [Memory.readByte, show ¬ k = a by omega, if_false]
    exact ih fun c hc => h c (List.mem_cons_of_mem _ hc)

theorem Memory.readByte_consCell_other {m : Memory} {a c : Nat} {v : Byte} (h : a ≠ c) :
    (Memory.consCell a v m).readByte c = m.readByte c := by
  unfold Memory.consCell
  split
  · rfl
  · simp [Memory.readByte, h]

/-- A write leaves every other byte alone, whatever the list. -/
theorem Memory.readByte_writeByte_other (m : Memory) {a c : Nat} (v : Byte) (h : a ≠ c) :
    (m.writeByte a v).readByte c = m.readByte c := by
  induction m with
  | nil => exact Memory.readByte_consCell_other h
  | cons cell rest ih =>
    obtain ⟨k, b⟩ := cell
    simp only [Memory.writeByte]
    split
    · exact Memory.readByte_consCell_other h
    · split
      · next h2 =>
        subst h2
        rw [Memory.readByte_consCell_other h]
        simp [Memory.readByte, h]
      · simp only [Memory.readByte, ih]

theorem Memory.readByte_consCell_same {m : Memory} {a : Nat} {v : Byte} (h : ∀ c ∈ m, a < c.1) :
    (Memory.consCell a v m).readByte a = v := by
  unfold Memory.consCell
  split
  · next hv => rw [Memory.readByte_of_all_gt h, hv]
  · simp [Memory.readByte]

/-- A read after a write to the same byte gives the value written. -/
theorem Memory.readByte_writeByte_same {m : Memory} (hm : m.wf = true) (a : Nat) (v : Byte) :
    (m.writeByte a v).readByte a = v := by
  induction m with
  | nil => exact Memory.readByte_consCell_same (by simp)
  | cons cell rest ih =>
    obtain ⟨k, b⟩ := cell
    obtain ⟨-, -, hgt, hrest⟩ := Memory.wf_cons.1 hm
    simp only [Memory.writeByte]
    split
    · next h =>
      refine Memory.readByte_consCell_same fun c hc => ?_
      rcases List.mem_cons.1 hc with rfl | hc
      · exact h
      · exact lt_trans h (hgt c hc)
    · split
      · next h2 => subst h2; exact Memory.readByte_consCell_same hgt
      · next h2 => simp [Memory.readByte, show ¬ k = a by omega, ih hrest]

theorem Memory.consCell_mem {m : Memory} {a : Nat} {v : Byte} {c : Host.Cell}
    (h : c ∈ Memory.consCell a v m) : c = (a, v) ∨ c ∈ m := by
  unfold Memory.consCell at h
  split at h
  · exact .inr h
  · exact List.mem_cons.1 h

theorem Memory.writeByte_mem {m : Memory} {a : Nat} {v : Byte} {c : Host.Cell}
    (h : c ∈ m.writeByte a v) : c = (a, v) ∨ c ∈ m := by
  induction m with
  | nil => exact Memory.consCell_mem h
  | cons cell rest ih =>
    obtain ⟨k, b⟩ := cell
    simp only [Memory.writeByte] at h
    split at h
    · exact Memory.consCell_mem h
    · split at h
      · exact (Memory.consCell_mem h).imp_right (List.mem_cons_of_mem _)
      · rcases List.mem_cons.1 h with rfl | h
        · exact .inr List.mem_cons_self
        · exact (ih h).imp_right (List.mem_cons_of_mem _)

theorem Memory.consCell_wf {m : Memory} {a : Nat} {v : Byte} (ha : a < Config.memoryBytes)
    (hgt : ∀ c ∈ m, a < c.1) (hm : m.wf = true) : (Memory.consCell a v m).wf = true := by
  unfold Memory.consCell
  split
  · exact hm
  · next hv => exact Memory.wf_cons.2 ⟨ha, hv, hgt, hm⟩

/-- A write of a byte of the address space keeps the canonical form. -/
theorem Memory.writeByte_wf {m : Memory} (hm : m.wf = true) {a : Nat} (ha : a < Config.memoryBytes) (v : Byte) :
    (m.writeByte a v).wf = true := by
  induction m with
  | nil => exact Memory.consCell_wf ha (by simp) rfl
  | cons cell rest ih =>
    obtain ⟨k, b⟩ := cell
    obtain ⟨hk, hb, hgt, hrest⟩ := Memory.wf_cons.1 hm
    simp only [Memory.writeByte]
    split
    · next h =>
      refine Memory.consCell_wf ha (fun c hc => ?_) hm
      rcases List.mem_cons.1 hc with rfl | hc
      · exact h
      · exact lt_trans h (hgt c hc)
    · split
      · next h2 => subst h2; exact Memory.consCell_wf ha hgt hrest
      · next h1 h2 =>
        refine Memory.wf_cons.2 ⟨hk, hb, fun c hc => ?_, ih hrest⟩
        rcases Memory.writeByte_mem hc with rfl | hc
        · exact lt_of_le_of_ne (not_lt.1 h1) (Ne.symm h2)
        · exact hgt c hc

/-! ### Elements -/

/-- The write of an element leaves every byte outside its four alone. -/
theorem Memory.readByte_writeWord_other (m : Memory) {a c : Nat} (v : Word) (h : c < a ∨ a + 4 ≤ c) :
    (m.writeWord a v).readByte c = m.readByte c := by
  unfold Memory.writeWord
  rw [Memory.readByte_writeByte_other _ _ (by omega), Memory.readByte_writeByte_other _ _ (by omega),
    Memory.readByte_writeByte_other _ _ (by omega), Memory.readByte_writeByte_other _ _ (by omega)]

theorem Memory.writeWord_wf {m : Memory} (hm : m.wf = true) {a : Nat} (ha : a + 4 ≤ Config.memoryBytes) (v : Word) :
    (m.writeWord a v).wf = true := by
  unfold Memory.writeWord
  exact Memory.writeByte_wf (Memory.writeByte_wf (Memory.writeByte_wf (Memory.writeByte_wf hm (by omega) _) (by omega) _)
    (by omega) _) (by omega) _

/-- Byte k of a written element reads as byte k of its word (R72). -/
theorem Memory.readByte_writeWord_same {m : Memory} (hm : m.wf = true) {a : Nat}
    (ha : a + 4 ≤ Config.memoryBytes) (v : Word) {k : Nat} (hk : k < 4) :
    (m.writeWord a v).readByte (a + k) = byteOf v k := by
  have w0 := Memory.writeByte_wf hm (a := a) (by omega) (byteOf v 0)
  have w1 := Memory.writeByte_wf w0 (a := a + 1) (by omega) (byteOf v 1)
  have w2 := Memory.writeByte_wf w1 (a := a + 2) (by omega) (byteOf v 2)
  unfold Memory.writeWord
  obtain rfl | rfl | rfl | rfl : k = 0 ∨ k = 1 ∨ k = 2 ∨ k = 3 := by omega
  · rw [Memory.readByte_writeByte_other _ _ (by omega), Memory.readByte_writeByte_other _ _ (by omega),
      Memory.readByte_writeByte_other _ _ (by omega)]
    exact Memory.readByte_writeByte_same hm _ _
  · rw [Memory.readByte_writeByte_other _ _ (by omega), Memory.readByte_writeByte_other _ _ (by omega)]
    exact Memory.readByte_writeByte_same w0 _ _
  · rw [Memory.readByte_writeByte_other _ _ (by omega)]
    exact Memory.readByte_writeByte_same w1 _ _
  · exact Memory.readByte_writeByte_same w2 _ _

/-- A read after a write of the same element gives the word written. -/
theorem Memory.readWord_writeWord_same {m : Memory} (hm : m.wf = true) {a : Nat}
    (ha : a + 4 ≤ Config.memoryBytes) (v : Word) : (m.writeWord a v).readWord a = v := by
  have h0 := Memory.readByte_writeWord_same hm ha v (k := 0) (by omega)
  rw [Nat.add_zero] at h0
  rw [Memory.readWord, h0, Memory.readByte_writeWord_same hm ha v (by omega),
    Memory.readByte_writeWord_same hm ha v (by omega), Memory.readByte_writeWord_same hm ha v (by omega),
    wordOf_byteOf]

/-- Words read alike where their four bytes do. -/
theorem Memory.readWord_congr {m m' : Memory} {a : Nat}
    (h : ∀ c, a ≤ c → c < a + 4 → m'.readByte c = m.readByte c) : m'.readWord a = m.readWord a := by
  unfold Memory.readWord
  rw [h a (by omega) (by omega), h (a + 1) (by omega) (by omega), h (a + 2) (by omega) (by omega),
    h (a + 3) (by omega) (by omega)]

/-- The write of an element leaves every element that shares no byte with it alone. -/
theorem Memory.readWord_writeWord_other (m : Memory) {a c : Nat} (v : Word) (h : c + 4 ≤ a ∨ a + 4 ≤ c) :
    (m.writeWord a v).readWord c = m.readWord c :=
  Memory.readWord_congr fun d h1 h2 => Memory.readByte_writeWord_other m v (by omega)

end Sys2Proof.Machine
end

