-- ==== Sys2Proof/Laws/Codec.lean ====
section
/-! SUPPORT. What the decoder answers on a well-shaped frame, and how an access of the bus reaches it
(30_encoding.md R101 to R103, R115, R116). -/

namespace Sys2Proof

open Sys2Proof.Machine

theorem decode_writeFrame (off : Byte) (v : Word) (h7 : descTooWide (0x40#8 ||| off) = false)
    (h0 : descByteOffset (0x40#8 ||| off) = 0#2) (hw : descWrite (0x40#8 ||| off) = true) :
    decode (writeFrame off v) = .ok (decodeWrite (descReg (0x40#8 ||| off)) v) := by
  simp only [writeFrame, bytesOf, decode, h7, h0, hw, wordOf_byteOf]
  simp

theorem decode_readFrame (off : Byte) (h7 : descTooWide off = false) (h0 : descByteOffset off = 0#2)
    (hw : descWrite off = false) : decode (readFrame off) = .ok (decodeRead (descReg off)) := by
  simp [readFrame, decode, h7, h0, hw]

/-- The fields of the descriptor of an offset in the window, for a read and for a write. -/
theorem descriptor_of_offset {n : Nat} (h : n < 64) :
    (descTooWide (BitVec.ofNat 8 n) = false ∧ descWrite (BitVec.ofNat 8 n) = false
        ∧ descReg (BitVec.ofNat 8 n) = BitVec.ofNat 4 (n / 4)
        ∧ (descByteOffset (BitVec.ofNat 8 n) = 0#2 ↔ n % 4 = 0))
      ∧ descTooWide (0x40#8 ||| BitVec.ofNat 8 n) = false ∧ descWrite (0x40#8 ||| BitVec.ofNat 8 n) = true
        ∧ descReg (0x40#8 ||| BitVec.ofNat 8 n) = BitVec.ofNat 4 (n / 4)
        ∧ (descByteOffset (0x40#8 ||| BitVec.ofNat 8 n) = 0#2 ↔ n % 4 = 0) := by
  interval_cases n <;> decide

/-- The bus gives back the frame an access was made from. -/
theorem busFrame_accessOfFrame (p : Platform) (i : Instr) :
    busFrame p (accessOfFrame p (encode i)) = .ok (encode i) := by
  have hr : ∀ off : Byte, off.toNat < 64 → descTooWide off = false → descWrite off = false →
      busFrame p (accessOfFrame p (readFrame off)) = .ok (readFrame off) := by
    intro off h h1 h2
    simp [readFrame, accessOfFrame, busFrame, h1, h2, Config.windowBytes, Nat.mod_eq_of_lt h]
    omega
  have hw : ∀ (off : Byte) (v : Word), off.toNat < 64 → descTooWide (0x40#8 ||| off) = false →
      descWrite (0x40#8 ||| off) = true → (0x40#8 ||| off).toNat % 64 = off.toNat →
      busFrame p (accessOfFrame p (writeFrame off v)) = .ok (writeFrame off v) := by
    intro off v h h1 h2 h3
    simp only [writeFrame, accessOfFrame, bytesOf, h1, h2, h3, busFrame, wordOf_byteOf, Config.windowBytes]
    simp
    omega
  cases i with
  | rdReserved j => exact hr _ (by revert j; decide) (by revert j; decide) (by revert j; decide)
  | wrReserved j v =>
    exact hw _ _ (by revert j; decide) (by revert j; decide) (by revert j; decide) (by revert j; decide)
  | _ =>
    first
    | exact hr _ (by decide) (by decide) (by decide)
    | exact hw _ _ (by decide) (by decide) (by decide) (by decide)

namespace Machine

theorem fetchAccess_of_frame {s : State} {a : HostAccess} {frame : List Byte} {i : Instr} (hr : s.inReset = false)
    (hb : busFrame s.platform a = .ok frame) (hd : decode frame = .ok i) : fetchAccess s a = .ok i := by
  simp [fetchAccess, hr, hb, hd]

/-- A 32-bit read at REG_BASE + 4·k is the read of register k. -/
theorem fetchAccess_read (s : State) {k : Nat} (v : Word) (hk : k < 16) (hr : s.inReset = false) :
    fetchAccess s { write := false, addr := s.platform.regBase + 4 * k, width := 4, data := v }
      = .ok (decodeRead (BitVec.ofNat 4 k)) := by
  obtain ⟨⟨h1, h2, h3, h4⟩, -⟩ := descriptor_of_offset (n := 4 * k) (by omega)
  have h4' := h4.2 (by omega)
  refine fetchAccess_of_frame (frame := [BitVec.ofNat 8 (4 * k)]) hr ?_ ?_
  · simp [busFrame, Config.windowBytes]; omega
  · simp [decode, h1, h2, h3, h4']

/-- A 32-bit write of v at REG_BASE + 4·k is the write of v to register k. -/
theorem fetchAccess_write (s : State) {k : Nat} (v : Word) (hk : k < 16) (hr : s.inReset = false) :
    fetchAccess s { write := true, addr := s.platform.regBase + 4 * k, width := 4, data := v }
      = .ok (decodeWrite (BitVec.ofNat 4 k) v) := by
  obtain ⟨-, h1, h2, h3, h4⟩ := descriptor_of_offset (n := 4 * k) (by omega)
  have h4' := h4.2 (by omega)
  refine fetchAccess_of_frame (frame := (0x40#8 ||| BitVec.ofNat 8 (4 * k)) :: bytesOf v) hr ?_ ?_
  · simp [busFrame, Config.windowBytes]; omega
  · simp [decode, bytesOf, h1, h2, h3, h4', wordOf_byteOf]

/-- A step whose event is an access the bus takes is the meaning of the instruction it is. -/
theorem step_access {s : State} {a : HostAccess} {rest : List Event} {i : Instr} (hs : s.schedule = .access a :: rest)
    (h : fetchAccess s a = .ok i) : step s = exec i { s with schedule := rest } := by
  have h' : fetchAccess { s with schedule := rest } a = .ok i := h
  unfold step
  rw [hs]
  simp only [runEvent, runAccess, h']

/-- A step whose event is an access the bus refuses is that refusal. -/
theorem step_access_refused {s : State} {a : HostAccess} {rest : List Event} {r : Refusal}
    (hs : s.schedule = .access a :: rest) (h : fetchAccess s a = .error r) : step s = .refused r := by
  have h' : fetchAccess { s with schedule := rest } a = .error r := h
  unfold step
  rw [hs]
  simp only [runEvent, runAccess, h']

end Machine

end Sys2Proof
end

