-- ==== Sys2Proof/Laws/Flags.lean ====
section
/-! SUPPORT. The status words as numbers, BUSY as a phase, and the acceptance checks as arithmetic
(10_state.md R33, R34, R45; 60_exceptions.md R240). -/

namespace Sys2Proof.Machine

theorem getLsbD_eq_decide (v : Word) (i : Nat) : v.getLsbD i = decide (v.toNat / 2 ^ i % 2 = 1) := by
  rw [BitVec.getLsbD, Nat.testBit_eq_decide_div_mod_eq]

theorem ctrlWord_eq (s : State) : ctrlWord s = BitVec.ofNat 32 (2 * s.injAllocFail.toNat + s.irqEn.toNat) := by
  unfold ctrlWord
  cases s.injAllocFail <;> cases s.irqEn <;> rfl

theorem statusWord_eq (s : State) :
    statusWord s = BitVec.ofNat 32
      (s.busy.toNat + s.done.toNat * 2 ^ 1 + s.cmdOvr.toNat * 2 ^ 2 + s.errcode.toNat * 2 ^ 8) := by
  unfold statusWord
  generalize s.errcode = e
  cases s.busy <;> cases s.done <;> cases s.cmdOvr <;> (revert e; decide)

/-- Reset leaves CTRL reading zero. -/
@[simp] theorem ctrlWord_resetBlock (b : Bool) (s : State) : ctrlWord (resetBlock b s) = 0x00000000#32 := by
  simp [ctrlWord, resetBlock, State.reset]

/-- Reset leaves STATUS reading zero. -/
@[simp] theorem statusWord_resetBlock (b : Bool) (s : State) : statusWord (resetBlock b s) = 0x00000000#32 := by
  simp [statusWord, State.busy, resetBlock, State.reset]

theorem busy_iff (s : State) : s.busy = true ↔ s.phase ≠ .idle := by
  unfold State.busy; simp

theorem not_busy_iff (s : State) : s.busy = false ↔ s.phase = .idle := by
  unfold State.busy; simp

theorem busy_congr {s t : State} (h : t.phase = s.phase) : t.busy = s.busy := by
  unfold State.busy; rw [h]

/-- The check never answers a bus error. -/
theorem check_ne_bus (op : Op) (x h y n m : Nat) (inj : Bool) (a : Nat) :
    check op x h y n m inj ≠ some (.bus a) := by
  unfold check
  repeat' split
  all_goals simp

/-- What a passed check says of the operands. -/
theorem check_none {op : Op} {x h y n m : Nat} {inj : Bool} (hc : check op x h y n m inj = none) :
    op ≠ .illegal ∧ 1 ≤ m ∧ m ≤ n ∧ x % 4 = 0 ∧ h % 4 = 0 ∧ y % 4 = 0
      ∧ x + 4 * n ≤ 2 ^ 32 ∧ h + 4 * m ≤ 2 ^ 32 ∧ y + 4 * n ≤ 2 ^ 32
      ∧ (x + 4 * n ≤ y + 4 * (m - 1) ∨ y + 4 * n ≤ x) ∧ (h + 4 * m ≤ y + 4 * (m - 1) ∨ y + 4 * n ≤ h)
      ∧ (op = .vector → ceil8 m ≤ 256 ∧ inj = false) := by
  unfold check at hc
  split at hc; · cases hc
  split at hc; · cases hc
  split at hc; · cases hc
  split at hc; · cases hc
  split at hc; · cases hc
  split at hc; · cases hc
  next g1 g2 g3 g4 g5 g6 =>
  simp only [badParam, badAlign, badRange, badOverlap, badAlloc, overlaps, Bool.or_eq_true, Bool.and_eq_true,
    decide_eq_true_eq, not_or, not_and, not_not] at g2 g3 g4 g5 g6
  simp only [Config.memoryBytes, Config.coefDepth] at g4 g6
  refine ⟨g1, by omega, by omega, by omega, by omega, by omega, by omega, by omega, by omega, by omega, by omega,
    fun ho => ?_⟩
  have g := g6 ho
  exact ⟨by omega, by simpa using g.2⟩

end Sys2Proof.Machine
end

