-- ==== Sys2Proof/Laws/Float.lean ====
section
/-! SUPPORT. The rounding of the two binary32 operations (00_scope.md R12 to R14): what a rounded quotient is, what
pattern it gives, and that a representable value rounds to itself. -/

namespace Sys2Proof.Machine

/-! ### The fields of a pattern -/

theorem f32Frac_lt (w : Word) : f32Frac w < 2 ^ 23 := Nat.mod_lt _ (by decide)

theorem f32Expo_lt (w : Word) : f32Expo w < 256 := Nat.mod_lt _ (by decide)

theorem f32Sign_eq (w : Word) : f32Sign w = decide (2 ^ 31 ≤ w.toNat) := by
  unfold f32Sign
  rw [BitVec.getLsbD, Nat.testBit_eq_decide_div_mod_eq]
  have := w.isLt
  congr 1
  simp only [eq_iff_iff]
  omega

/-- A pattern is its three fields. -/
theorem f32_toNat (w : Word) :
    w.toNat = (if f32Sign w then 2 ^ 31 else 0) + f32Expo w * 2 ^ 23 + f32Frac w := by
  rw [f32Sign_eq]
  unfold f32Expo f32Frac
  have := w.isLt
  by_cases h : 2 ^ 31 ≤ w.toNat
  · rw [if_pos (by simpa using h)]; omega
  · rw [if_neg (by simpa using h)]; omega

theorem f32_ext {a b : Word} (hs : f32Sign a = f32Sign b) (he : f32Expo a = f32Expo b) (hf : f32Frac a = f32Frac b) :
    a = b :=
  BitVec.eq_of_toNat_eq (by rw [f32_toNat a, f32_toNat b, hs, he, hf])

theorem f32Mag_eq_zero (w : Word) : f32Mag w = 0 ↔ f32Expo w = 0 ∧ f32Frac w = 0 := by
  unfold f32Mag
  by_cases h : f32Expo w = 0
  · simp [h]
  · simp [h]

/-- The value of a pattern is its magnitude up to sign. -/
theorem f32Val_natAbs (w : Word) : (f32Val w).natAbs = f32Mag w := by
  unfold f32Val
  split <;> simp

theorem f32IsNaN_iff (w : Word) : f32IsNaN w = true ↔ f32Expo w = 255 ∧ f32Frac w ≠ 0 := by
  simp [f32IsNaN]

theorem f32IsInf_iff (w : Word) : f32IsInf w = true ↔ f32Expo w = 255 ∧ f32Frac w = 0 := by
  simp [f32IsInf]

theorem f32_finite {w : Word} (h : f32Expo w < 255) : f32IsNaN w = false ∧ f32IsInf w = false := by
  have : f32Expo w ≠ 255 := by omega
  simp [f32IsNaN, f32IsInf, this]

/-! ### Rounding a quotient -/

theorem roundQuot_cases (m d : Nat) :
    (2 * (m % 2 ^ d) < 2 ^ d ∧ roundQuot m d = m / 2 ^ d)
      ∨ (2 * (m % 2 ^ d) = 2 ^ d ∧ roundQuot m d % 2 = 0
        ∧ (roundQuot m d = m / 2 ^ d ∨ roundQuot m d = m / 2 ^ d + 1))
      ∨ (2 ^ d < 2 * (m % 2 ^ d) ∧ roundQuot m d = m / 2 ^ d + 1) := by
  unfold roundQuot
  simp only []
  rcases lt_trichotomy (2 * (m % 2 ^ d)) (2 ^ d) with h | h | h
  · exact .inl ⟨h, if_neg (by omega)⟩
  · refine .inr (.inl ⟨h, ?_⟩)
    split <;> omega
  · exact .inr (.inr ⟨h, if_pos (by omega)⟩)

/-- No multiple of 2^d lies nearer to m than the rounded one, and one as near is it or the rounded quotient is even. -/
theorem roundQuot_nearest (m d j : Nat) :
    |((roundQuot m d * 2 ^ d : Nat) : Int) - m| ≤ |((j * 2 ^ d : Nat) : Int) - m|
      ∧ (|((roundQuot m d * 2 ^ d : Nat) : Int) - m| = |((j * 2 ^ d : Nat) : Int) - m| →
        j = roundQuot m d ∨ roundQuot m d % 2 = 0) := by
  have hm := Nat.div_add_mod m (2 ^ d)
  have hr := Nat.mod_lt m (show 0 < 2 ^ d from Nat.two_pow_pos d)
  have hc := roundQuot_cases m d
  generalize roundQuot m d = q at *
  generalize m % 2 ^ d = r at *
  generalize m / 2 ^ d = p at *
  generalize 2 ^ d = D at *
  have key : ∀ a b : Nat, a ≤ b → a * D ≤ b * D := fun a b h => Nat.mul_le_mul_right D h
  have hs : ∀ a : Nat, (a + 1) * D = a * D + D := fun a => by ring
  have hpm : D * p = p * D := Nat.mul_comm _ _
  have hsp := hs p
  simp only [Int.abs_eq_natAbs]
  rcases Nat.lt_trichotomy j p with hj | rfl | hj
  · have := key (j + 1) p hj
    have := hs j
    rcases hc with ⟨h1, rfl⟩ | ⟨h1, h2, rfl | rfl⟩ | ⟨h1, rfl⟩ <;> omega
  · rcases hc with ⟨h1, rfl⟩ | ⟨h1, h2, rfl | rfl⟩ | ⟨h1, rfl⟩ <;> omega
  · have := key (p + 1) j hj
    rcases Nat.eq_or_lt_of_le hj with hj1 | hj1
    · have hj2 : j = p + 1 := hj1.symm
      subst hj2
      rcases hc with ⟨h1, rfl⟩ | ⟨h1, h2, rfl | rfl⟩ | ⟨h1, rfl⟩ <;> omega
    · have := key (p + 2) j hj1
      have : (p + 2) * D = p * D + 2 * D := by ring
      rcases hc with ⟨h1, rfl⟩ | ⟨h1, h2, rfl | rfl⟩ | ⟨h1, rfl⟩ <;> omega

/-! ### The pattern of a rounded magnitude -/

theorem scale_le_dropBits (m scale : Nat) : scale ≤ dropBits m scale := le_max_right _ _

theorem lt_of_dropBits (m scale : Nat) : m < 2 ^ (dropBits m scale + 24) := by
  refine lt_of_lt_of_le (Nat.lt_log2_self (n := m)) (Nat.pow_le_pow_right (by decide) ?_)
  unfold dropBits
  omega

/-- When bits above the subnormal spacing are dropped, 24 significant bits are kept. -/
theorem le_of_dropBits {m scale : Nat} (h : scale < dropBits m scale) : 2 ^ (dropBits m scale + 23) ≤ m := by
  have hd : dropBits m scale = Nat.log2 m + 1 - 24 := by unfold dropBits at *; omega
  have hm : m ≠ 0 := by rintro rfl; simp at hd; omega
  refine le_trans (Nat.pow_le_pow_right (by decide) ?_) (Nat.log2_self_le hm)
  omega

/-- The rounded quotient has at most 24 bits, or is 2^24. -/
theorem roundQuot_le (m scale : Nat) : roundQuot m (dropBits m scale) ≤ 2 ^ 24 := by
  have h := lt_of_dropBits m scale
  rw [Nat.pow_add] at h
  have : m / 2 ^ dropBits m scale < 2 ^ 24 := Nat.div_lt_of_lt_mul h
  have := roundQuot_cases m (dropBits m scale)
  omega

theorem le_roundQuot {m scale : Nat} (h : scale < dropBits m scale) : 2 ^ 23 ≤ roundQuot m (dropBits m scale) := by
  have h' := le_of_dropBits h
  rw [Nat.pow_add] at h'
  have : 2 ^ 23 ≤ m / 2 ^ dropBits m scale := (Nat.le_div_iff_mul_le (Nat.two_pow_pos _)).2 (by linarith)
  have := roundQuot_cases m (dropBits m scale)
  omega

theorem f32Round_toNat (neg : Bool) (m scale : Nat) :
    (f32Round neg m scale).toNat = (if neg then 2 ^ 31 else 0) + min (roundBits m scale) 0x7F800000 := by
  unfold f32Round
  rw [BitVec.toNat_ofNat, Nat.mod_eq_of_lt]
  split <;> omega

theorem f32Round_sign (neg : Bool) (m scale : Nat) : f32Sign (f32Round neg m scale) = neg := by
  rw [f32Sign_eq, f32Round_toNat]
  cases neg <;> simp

/-- Exponent and fraction of a rounded value are the bits of its magnitude, capped at infinity. -/
theorem f32Round_fields (neg : Bool) (m scale : Nat) :
    f32Expo (f32Round neg m scale) = min (roundBits m scale) 0x7F800000 / 2 ^ 23
      ∧ f32Frac (f32Round neg m scale) = min (roundBits m scale) 0x7F800000 % 2 ^ 23 := by
  unfold f32Expo f32Frac
  rw [f32Round_toNat]
  cases neg
  · simp only [Bool.false_eq_true, if_false]; omega
  · simp only [if_true]; omega

theorem f32Round_not_nan (neg : Bool) (m scale : Nat) : f32IsNaN (f32Round neg m scale) = false := by
  obtain ⟨he, hf⟩ := f32Round_fields neg m scale
  unfold f32IsNaN
  rw [he, hf]
  simp only [Bool.and_eq_false_iff, beq_eq_false_iff_ne, bne_eq_false_iff_eq, ne_eq]
  omega

/-- A finite rounded value is its rounded quotient times the spacing it was rounded to. -/
theorem f32Round_mag {neg : Bool} {m scale : Nat} (h : f32Expo (f32Round neg m scale) < 255) :
    f32Mag (f32Round neg m scale) = roundQuot m (dropBits m scale) * 2 ^ (dropBits m scale - scale)
      ∧ f32Frac (f32Round neg m scale) % 2 = roundQuot m (dropBits m scale) % 2 := by
  obtain ⟨he, hf⟩ := f32Round_fields neg m scale
  have hle := roundQuot_le m scale
  have hge : scale < dropBits m scale → 2 ^ 23 ≤ roundQuot m (dropBits m scale) := le_roundQuot
  have hsc := scale_le_dropBits m scale
  rw [he] at h
  have hb : roundBits m scale < 0x7F800000 := by omega
  rw [Nat.min_eq_left (le_of_lt hb)] at he hf
  unfold f32Mag
  rw [he, hf]
  unfold roundBits at *
  generalize roundQuot m (dropBits m scale) = q at *
  generalize he' : dropBits m scale - scale = e at *
  have hq : (e = 0 ∧ q < 2 ^ 23) ∨ (2 ^ 23 ≤ q ∧ q < 2 ^ 24) ∨ q = 2 ^ 24 := by omega
  refine ⟨?_, by omega⟩
  rcases hq with ⟨rfl, hq⟩ | ⟨hq1, hq2⟩ | hq
  · rw [if_pos (by omega)]; omega
  · rw [if_neg (by omega)]
    have h1 : (e * 2 ^ 23 + q) / 2 ^ 23 - 1 = e := by omega
    have h2 : 2 ^ 23 + (e * 2 ^ 23 + q) % 2 ^ 23 = q := by omega
    rw [h1, h2]
  · subst hq
    rw [if_neg (by omega)]
    have h1 : (e * 2 ^ 23 + 2 ^ 24) / 2 ^ 23 - 1 = e + 1 := by omega
    have h2 : 2 ^ 23 + (e * 2 ^ 23 + 2 ^ 24) % 2 ^ 23 = 2 ^ 23 := by omega
    rw [h1, h2, Nat.pow_succ]
    ring

/-- A non-zero sum does not round to zero. -/
theorem roundBits_pos {m : Nat} (h : m ≠ 0) : 0 < roundBits m 0 := by
  have hge : 0 < dropBits m 0 → 2 ^ 23 ≤ roundQuot m (dropBits m 0) := le_roundQuot
  unfold roundBits
  rcases Nat.eq_zero_or_pos (dropBits m 0) with hd | hd
  · rw [hd]
    have : roundQuot m 0 = m := by
      have := roundQuot_cases m 0
      simp [Nat.mod_one] at this
      exact this
    omega
  · have := hge hd
    omega

/-- A finite value rounds to itself. -/
theorem f32Round_exact {w : Word} (hf : f32Expo w < 255) (hz : f32Mag w ≠ 0) :
    f32Round (f32Sign w) (f32Mag w) 0 = w := by
  have hfr := f32Frac_lt w
  have hbits : roundBits (f32Mag w) 0 = f32Expo w * 2 ^ 23 + f32Frac w := by
    unfold f32Mag at hz ⊢
    by_cases h0 : f32Expo w = 0
    · simp only [h0, if_true] at hz ⊢
      have hl : Nat.log2 (f32Frac w) < 23 := (Nat.log2_lt hz).2 hfr
      have hd : dropBits (f32Frac w) 0 = 0 := by unfold dropBits; omega
      have hr : roundQuot (f32Frac w) 0 = f32Frac w := by
        have := roundQuot_cases (f32Frac w) 0
        simp [Nat.mod_one] at this
        exact this
      unfold roundBits
      rw [hd, hr]
    · simp only [h0, if_false] at hz ⊢
      obtain ⟨e, he⟩ : ∃ e, f32Expo w = e + 1 := ⟨f32Expo w - 1, by omega⟩
      rw [he, Nat.add_sub_cancel]
      have hl : Nat.log2 ((2 ^ 23 + f32Frac w) * 2 ^ e) = 23 + e := by
        rw [Nat.log2_eq_iff (by positivity)]
        constructor
        · rw [Nat.pow_add]; exact Nat.mul_le_mul_right _ (by omega)
        · rw [show 23 + e + 1 = 24 + e by omega, Nat.pow_add]
          exact Nat.mul_lt_mul_of_pos_right (by omega) (Nat.two_pow_pos e)
      have hd : dropBits ((2 ^ 23 + f32Frac w) * 2 ^ e) 0 = e := by unfold dropBits; rw [hl]; omega
      have hr : roundQuot ((2 ^ 23 + f32Frac w) * 2 ^ e) e = 2 ^ 23 + f32Frac w := by
        have := roundQuot_cases ((2 ^ 23 + f32Frac w) * 2 ^ e) e
        have hp := Nat.two_pow_pos e
        rw [Nat.mul_mod_left, Nat.mul_div_cancel _ hp] at this
        omega
      unfold roundBits
      rw [hd, hr]
      omega
  have hlt : roundBits (f32Mag w) 0 < 0x7F800000 := by rw [hbits]; omega
  apply BitVec.eq_of_toNat_eq
  rw [f32Round_toNat, hbits, Nat.min_eq_left (by omega), f32_toNat w]
  omega

/-! ### Overflow -/

/-- The bits of a rounded magnitude reach those of infinity exactly from the largest finite value and half of its last
place on. -/
theorem infinite_le_roundBits_iff (m scale : Nat) :
    0x7F800000 ≤ roundBits m scale ↔ (2 ^ 25 - 1) * 2 ^ (252 + scale) ≤ m := by
  have hle := roundQuot_le m scale
  have hge : scale < dropBits m scale → 2 ^ 23 ≤ roundQuot m (dropBits m scale) := le_roundQuot
  have hlo : scale < dropBits m scale → 2 ^ (dropBits m scale + 23) ≤ m := le_of_dropBits
  have hhi := lt_of_dropBits m scale
  have hc := roundQuot_cases m (dropBits m scale)
  have hm := Nat.div_add_mod m (2 ^ dropBits m scale)
  have hsc := scale_le_dropBits m scale
  unfold roundBits
  generalize roundQuot m (dropBits m scale) = q at *
  generalize dropBits m scale = d at *
  obtain ⟨e, rfl⟩ : ∃ e, d = scale + e := ⟨d - scale, by omega⟩
  have hs : scale + e - scale = e := by omega
  rw [hs]
  rcases lt_trichotomy e 253 with h | h | h
  · have hp : 2 ^ (scale + e + 24) ≤ 2 ^ 24 * 2 ^ (252 + scale) := by
      rw [← Nat.pow_add]; exact Nat.pow_le_pow_right (by decide) (by omega)
    generalize 2 ^ (252 + scale) = D at *
    omega
  · have hD : 2 ^ (scale + e) = 2 * 2 ^ (252 + scale) := by
      rw [show scale + e = (252 + scale) + 1 by omega, Nat.pow_succ, Nat.mul_comm]
    have h24 : 2 ^ (scale + e + 24) = 2 ^ (scale + e) * 2 ^ 24 := Nat.pow_add _ _ _
    have hlt : m / 2 ^ (scale + e) < 2 ^ 24 := Nat.div_lt_of_lt_mul (h24 ▸ hhi)
    have hr := Nat.mod_lt m (Nat.two_pow_pos (scale + e))
    rw [hD] at hc hm hlt hr
    generalize m % (2 * 2 ^ (252 + scale)) = r at *
    generalize m / (2 * 2 ^ (252 + scale)) = p at *
    generalize 2 ^ (252 + scale) = D at *
    clear hhi hlo h24 hD
    rcases Nat.lt_or_ge p (2 ^ 24 - 1) with hp | hp
    · have := Nat.mul_le_mul_left (2 * D) (show p ≤ 2 ^ 24 - 2 by omega)
      omega
    · have hp' : p = 2 ^ 24 - 1 := by omega
      rw [hp'] at hm hc
      omega
  · have hq := hge (by omega)
    have hp : 2 ^ 25 * 2 ^ (252 + scale) ≤ 2 ^ (scale + e + 23) := by
      rw [← Nat.pow_add]; exact Nat.pow_le_pow_right (by decide) (by omega)
    have hl := hlo (by omega)
    generalize 2 ^ (252 + scale) = D at *
    omega

/-- From the overflow threshold on a magnitude rounds to the infinity of its sign. -/
theorem f32Round_overflow {neg : Bool} {m scale : Nat} (h : (2 ^ 25 - 1) * 2 ^ (252 + scale) ≤ m) :
    f32Round neg m scale = f32Inf neg := by
  have hb := (infinite_le_roundBits_iff m scale).2 h
  apply BitVec.eq_of_toNat_eq
  rw [f32Round_toNat, Nat.min_eq_right hb]
  cases neg <;> rfl

/-- Below the overflow threshold a magnitude rounds to a finite value. -/
theorem f32Round_finite {neg : Bool} {m scale : Nat} (h : m < (2 ^ 25 - 1) * 2 ^ (252 + scale)) :
    f32Expo (f32Round neg m scale) < 255 := by
  have hb := mt (infinite_le_roundBits_iff m scale).1 (not_le.2 h)
  rw [(f32Round_fields neg m scale).1]
  omega

/-! ### Nearest representable value -/

/-- A finite magnitude at least 2^(e+23) is a multiple of 2^e. -/
theorem f32Mag_dvd {w : Word} {e : Nat} (h : 2 ^ (e + 23) ≤ f32Mag w) : 2 ^ e ∣ f32Mag w := by
  have hfr := f32Frac_lt w
  unfold f32Mag at h ⊢
  by_cases h0 : f32Expo w = 0
  · simp only [h0, if_true] at h ⊢
    have : 2 ^ 23 ≤ 2 ^ (e + 23) := Nat.pow_le_pow_right (by decide) (by omega)
    omega
  · simp only [h0, if_false] at h ⊢
    have hlt : (2 ^ 23 + f32Frac w) * 2 ^ (f32Expo w - 1) < 2 ^ (24 + (f32Expo w - 1)) := by
      rw [Nat.pow_add]
      exact Nat.mul_lt_mul_of_pos_right (by omega) (Nat.two_pow_pos _)
    have : e + 23 < 24 + (f32Expo w - 1) := (Nat.pow_lt_pow_iff_right (by decide)).1 (lt_of_le_of_lt h hlt)
    exact Dvd.dvd.mul_left (Nat.pow_dvd_pow 2 (by omega)) _

/-- No finite magnitude lies nearer to m · 2^-scale than the rounded one, and one as near equals it or the rounded
quotient is even. -/
theorem roundQuot_nearest_mag (m scale : Nat) (c : Word) :
    |((roundQuot m (dropBits m scale) * 2 ^ dropBits m scale : Nat) : Int) - m| ≤ |((f32Mag c * 2 ^ scale : Nat) : Int) - m|
      ∧ (|((roundQuot m (dropBits m scale) * 2 ^ dropBits m scale : Nat) : Int) - m|
          = |((f32Mag c * 2 ^ scale : Nat) : Int) - m| →
        f32Mag c * 2 ^ scale = roundQuot m (dropBits m scale) * 2 ^ dropBits m scale
          ∨ roundQuot m (dropBits m scale) % 2 = 0) := by
  have hsc := scale_le_dropBits m scale
  obtain ⟨e, he⟩ : ∃ e, dropBits m scale = e + scale := ⟨dropBits m scale - scale, by omega⟩
  by_cases hmul : 2 ^ e ∣ f32Mag c
  · obtain ⟨j, hj⟩ := hmul
    have hj' : f32Mag c * 2 ^ scale = j * 2 ^ dropBits m scale := by rw [hj, he, Nat.pow_add]; ring
    have := roundQuot_nearest m (dropBits m scale) j
    rw [hj']
    exact ⟨this.1, fun h => (this.2 h).imp_left (by rintro rfl; rfl)⟩
  · have hlt : f32Mag c < 2 ^ (e + 23) := by
      by_contra h
      exact hmul (f32Mag_dvd (not_lt.1 h))
    have hpos : scale < dropBits m scale := by
      rcases Nat.eq_zero_or_pos e with rfl | h
      · exact absurd (one_dvd (f32Mag c)) (by simp at hmul)
      · omega
    have hm := le_of_dropBits hpos
    have hbelow : f32Mag c * 2 ^ scale < 2 ^ (dropBits m scale + 23) := by
      rw [he, show e + scale + 23 = e + 23 + scale by omega, Nat.pow_add]
      exact Nat.mul_lt_mul_of_pos_right hlt (Nat.two_pow_pos _)
    have hgrid := (roundQuot_nearest m (dropBits m scale) (2 ^ 23)).1
    have heq : 2 ^ 23 * 2 ^ dropBits m scale = 2 ^ (dropBits m scale + 23) := by rw [Nat.pow_add]; ring
    rw [heq] at hgrid
    generalize f32Mag c * 2 ^ scale = k at *
    generalize 2 ^ (dropBits m scale + 23) = g at *
    generalize roundQuot m (dropBits m scale) * 2 ^ dropBits m scale = q at *
    have hs : |(q : Int) - m| < |(k : Int) - m| := by
      simp only [Int.abs_eq_natAbs] at *
      omega
    exact ⟨le_of_lt hs, fun h => absurd h (ne_of_lt hs)⟩

end Sys2Proof.Machine
end

