-- ==== Sys2Proof/Laws/State.lean ====
section
/-! SUPPORT. What each named update of the state does to each field: one lemma a field, so that no later proof unfolds a
record update. -/

namespace Sys2Proof.Machine

/-! ### `returnWord`: A register read returns its word and leaves the rest. -/

@[simp] theorem returnWord_irqEn (v : Word) (s : State) : (returnWord v s).irqEn = s.irqEn := rfl
@[simp] theorem returnWord_injAllocFail (v : Word) (s : State) : (returnWord v s).injAllocFail = s.injAllocFail := rfl
@[simp] theorem returnWord_done (v : Word) (s : State) : (returnWord v s).done = s.done := rfl
@[simp] theorem returnWord_cmdOvr (v : Word) (s : State) : (returnWord v s).cmdOvr = s.cmdOvr := rfl
@[simp] theorem returnWord_errcode (v : Word) (s : State) : (returnWord v s).errcode = s.errcode := rfl
@[simp] theorem returnWord_xAddr (v : Word) (s : State) : (returnWord v s).xAddr = s.xAddr := rfl
@[simp] theorem returnWord_hAddr (v : Word) (s : State) : (returnWord v s).hAddr = s.hAddr := rfl
@[simp] theorem returnWord_yAddr (v : Word) (s : State) : (returnWord v s).yAddr = s.yAddr := rfl
@[simp] theorem returnWord_nReg (v : Word) (s : State) : (returnWord v s).nReg = s.nReg := rfl
@[simp] theorem returnWord_mReg (v : Word) (s : State) : (returnWord v s).mReg = s.mReg := rfl
@[simp] theorem returnWord_errAddr (v : Word) (s : State) : (returnWord v s).errAddr = s.errAddr := rfl
@[simp] theorem returnWord_outCount (v : Word) (s : State) : (returnWord v s).outCount = s.outCount := rfl
@[simp] theorem returnWord_lOp (v : Word) (s : State) : (returnWord v s).lOp = s.lOp := rfl
@[simp] theorem returnWord_lX (v : Word) (s : State) : (returnWord v s).lX = s.lX := rfl
@[simp] theorem returnWord_lH (v : Word) (s : State) : (returnWord v s).lH = s.lH := rfl
@[simp] theorem returnWord_lY (v : Word) (s : State) : (returnWord v s).lY = s.lY := rfl
@[simp] theorem returnWord_lN (v : Word) (s : State) : (returnWord v s).lN = s.lN := rfl
@[simp] theorem returnWord_lM (v : Word) (s : State) : (returnWord v s).lM = s.lM := rfl
@[simp] theorem returnWord_phase (v : Word) (s : State) : (returnWord v s).phase = s.phase := rfl
@[simp] theorem returnWord_pi (v : Word) (s : State) : (returnWord v s).pi = s.pi := rfl
@[simp] theorem returnWord_n (v : Word) (s : State) : (returnWord v s).n = s.n := rfl
@[simp] theorem returnWord_coef (v : Word) (s : State) : (returnWord v s).coef = s.coef := rfl
@[simp] theorem returnWord_acc (v : Word) (s : State) : (returnWord v s).acc = s.acc := rfl
@[simp] theorem returnWord_sacc (v : Word) (s : State) : (returnWord v s).sacc = s.sacc := rfl
@[simp] theorem returnWord_mem (v : Word) (s : State) : (returnWord v s).mem = s.mem := rfl
@[simp] theorem returnWord_inReset (v : Word) (s : State) : (returnWord v s).inReset = s.inReset := rfl
@[simp] theorem returnWord_platform (v : Word) (s : State) : (returnWord v s).platform = s.platform := rfl
@[simp] theorem returnWord_schedule (v : Word) (s : State) : (returnWord v s).schedule = s.schedule := rfl
@[simp] theorem returnWord_hostRead (v : Word) (s : State) : (returnWord v s).hostRead = v := rfl
@[simp] theorem returnWord_busTrace (v : Word) (s : State) : (returnWord v s).busTrace = s.busTrace := rfl

/-! ### `setCtrl`: A write of CTRL. -/

@[simp] theorem setCtrl_irqEn (v : Word) (s : State) : (setCtrl v s).irqEn = v.getLsbD 0 := rfl
@[simp] theorem setCtrl_injAllocFail (v : Word) (s : State) : (setCtrl v s).injAllocFail = v.getLsbD 1 := rfl
@[simp] theorem setCtrl_done (v : Word) (s : State) : (setCtrl v s).done = s.done := rfl
@[simp] theorem setCtrl_cmdOvr (v : Word) (s : State) : (setCtrl v s).cmdOvr = s.cmdOvr := rfl
@[simp] theorem setCtrl_errcode (v : Word) (s : State) : (setCtrl v s).errcode = s.errcode := rfl
@[simp] theorem setCtrl_xAddr (v : Word) (s : State) : (setCtrl v s).xAddr = s.xAddr := rfl
@[simp] theorem setCtrl_hAddr (v : Word) (s : State) : (setCtrl v s).hAddr = s.hAddr := rfl
@[simp] theorem setCtrl_yAddr (v : Word) (s : State) : (setCtrl v s).yAddr = s.yAddr := rfl
@[simp] theorem setCtrl_nReg (v : Word) (s : State) : (setCtrl v s).nReg = s.nReg := rfl
@[simp] theorem setCtrl_mReg (v : Word) (s : State) : (setCtrl v s).mReg = s.mReg := rfl
@[simp] theorem setCtrl_errAddr (v : Word) (s : State) : (setCtrl v s).errAddr = s.errAddr := rfl
@[simp] theorem setCtrl_outCount (v : Word) (s : State) : (setCtrl v s).outCount = s.outCount := rfl
@[simp] theorem setCtrl_lOp (v : Word) (s : State) : (setCtrl v s).lOp = s.lOp := rfl
@[simp] theorem setCtrl_lX (v : Word) (s : State) : (setCtrl v s).lX = s.lX := rfl
@[simp] theorem setCtrl_lH (v : Word) (s : State) : (setCtrl v s).lH = s.lH := rfl
@[simp] theorem setCtrl_lY (v : Word) (s : State) : (setCtrl v s).lY = s.lY := rfl
@[simp] theorem setCtrl_lN (v : Word) (s : State) : (setCtrl v s).lN = s.lN := rfl
@[simp] theorem setCtrl_lM (v : Word) (s : State) : (setCtrl v s).lM = s.lM := rfl
@[simp] theorem setCtrl_phase (v : Word) (s : State) : (setCtrl v s).phase = s.phase := rfl
@[simp] theorem setCtrl_pi (v : Word) (s : State) : (setCtrl v s).pi = s.pi := rfl
@[simp] theorem setCtrl_n (v : Word) (s : State) : (setCtrl v s).n = s.n := rfl
@[simp] theorem setCtrl_coef (v : Word) (s : State) : (setCtrl v s).coef = s.coef := rfl
@[simp] theorem setCtrl_acc (v : Word) (s : State) : (setCtrl v s).acc = s.acc := rfl
@[simp] theorem setCtrl_sacc (v : Word) (s : State) : (setCtrl v s).sacc = s.sacc := rfl
@[simp] theorem setCtrl_mem (v : Word) (s : State) : (setCtrl v s).mem = s.mem := rfl
@[simp] theorem setCtrl_inReset (v : Word) (s : State) : (setCtrl v s).inReset = s.inReset := rfl
@[simp] theorem setCtrl_platform (v : Word) (s : State) : (setCtrl v s).platform = s.platform := rfl
@[simp] theorem setCtrl_schedule (v : Word) (s : State) : (setCtrl v s).schedule = s.schedule := rfl
@[simp] theorem setCtrl_hostRead (v : Word) (s : State) : (setCtrl v s).hostRead = s.hostRead := rfl
@[simp] theorem setCtrl_busTrace (v : Word) (s : State) : (setCtrl v s).busTrace = s.busTrace := rfl

/-! ### `clearStatus`: A write of STATUS. -/

@[simp] theorem clearStatus_irqEn (v : Word) (s : State) : (clearStatus v s).irqEn = s.irqEn := rfl
@[simp] theorem clearStatus_injAllocFail (v : Word) (s : State) : (clearStatus v s).injAllocFail = s.injAllocFail := rfl
@[simp] theorem clearStatus_done (v : Word) (s : State) : (clearStatus v s).done = (s.done && !v.getLsbD 1) := rfl
@[simp] theorem clearStatus_cmdOvr (v : Word) (s : State) : (clearStatus v s).cmdOvr = (s.cmdOvr && !v.getLsbD 2) := rfl
@[simp] theorem clearStatus_errcode (v : Word) (s : State) : (clearStatus v s).errcode = s.errcode := rfl
@[simp] theorem clearStatus_xAddr (v : Word) (s : State) : (clearStatus v s).xAddr = s.xAddr := rfl
@[simp] theorem clearStatus_hAddr (v : Word) (s : State) : (clearStatus v s).hAddr = s.hAddr := rfl
@[simp] theorem clearStatus_yAddr (v : Word) (s : State) : (clearStatus v s).yAddr = s.yAddr := rfl
@[simp] theorem clearStatus_nReg (v : Word) (s : State) : (clearStatus v s).nReg = s.nReg := rfl
@[simp] theorem clearStatus_mReg (v : Word) (s : State) : (clearStatus v s).mReg = s.mReg := rfl
@[simp] theorem clearStatus_errAddr (v : Word) (s : State) : (clearStatus v s).errAddr = s.errAddr := rfl
@[simp] theorem clearStatus_outCount (v : Word) (s : State) : (clearStatus v s).outCount = s.outCount := rfl
@[simp] theorem clearStatus_lOp (v : Word) (s : State) : (clearStatus v s).lOp = s.lOp := rfl
@[simp] theorem clearStatus_lX (v : Word) (s : State) : (clearStatus v s).lX = s.lX := rfl
@[simp] theorem clearStatus_lH (v : Word) (s : State) : (clearStatus v s).lH = s.lH := rfl
@[simp] theorem clearStatus_lY (v : Word) (s : State) : (clearStatus v s).lY = s.lY := rfl
@[simp] theorem clearStatus_lN (v : Word) (s : State) : (clearStatus v s).lN = s.lN := rfl
@[simp] theorem clearStatus_lM (v : Word) (s : State) : (clearStatus v s).lM = s.lM := rfl
@[simp] theorem clearStatus_phase (v : Word) (s : State) : (clearStatus v s).phase = s.phase := rfl
@[simp] theorem clearStatus_pi (v : Word) (s : State) : (clearStatus v s).pi = s.pi := rfl
@[simp] theorem clearStatus_n (v : Word) (s : State) : (clearStatus v s).n = s.n := rfl
@[simp] theorem clearStatus_coef (v : Word) (s : State) : (clearStatus v s).coef = s.coef := rfl
@[simp] theorem clearStatus_acc (v : Word) (s : State) : (clearStatus v s).acc = s.acc := rfl
@[simp] theorem clearStatus_sacc (v : Word) (s : State) : (clearStatus v s).sacc = s.sacc := rfl
@[simp] theorem clearStatus_mem (v : Word) (s : State) : (clearStatus v s).mem = s.mem := rfl
@[simp] theorem clearStatus_inReset (v : Word) (s : State) : (clearStatus v s).inReset = s.inReset := rfl
@[simp] theorem clearStatus_platform (v : Word) (s : State) : (clearStatus v s).platform = s.platform := rfl
@[simp] theorem clearStatus_schedule (v : Word) (s : State) : (clearStatus v s).schedule = s.schedule := rfl
@[simp] theorem clearStatus_hostRead (v : Word) (s : State) : (clearStatus v s).hostRead = s.hostRead := rfl
@[simp] theorem clearStatus_busTrace (v : Word) (s : State) : (clearStatus v s).busTrace = s.busTrace := rfl

/-! ### `raiseError`: Error completion. -/

@[simp] theorem raiseError_irqEn (e : CmdError) (s : State) : (raiseError e s).irqEn = s.irqEn := rfl
@[simp] theorem raiseError_injAllocFail (e : CmdError) (s : State) : (raiseError e s).injAllocFail = s.injAllocFail := rfl
@[simp] theorem raiseError_done (e : CmdError) (s : State) : (raiseError e s).done = true := rfl
@[simp] theorem raiseError_cmdOvr (e : CmdError) (s : State) : (raiseError e s).cmdOvr = s.cmdOvr := rfl
@[simp] theorem raiseError_errcode (e : CmdError) (s : State) : (raiseError e s).errcode = errorCode e := rfl
@[simp] theorem raiseError_xAddr (e : CmdError) (s : State) : (raiseError e s).xAddr = s.xAddr := rfl
@[simp] theorem raiseError_hAddr (e : CmdError) (s : State) : (raiseError e s).hAddr = s.hAddr := rfl
@[simp] theorem raiseError_yAddr (e : CmdError) (s : State) : (raiseError e s).yAddr = s.yAddr := rfl
@[simp] theorem raiseError_nReg (e : CmdError) (s : State) : (raiseError e s).nReg = s.nReg := rfl
@[simp] theorem raiseError_mReg (e : CmdError) (s : State) : (raiseError e s).mReg = s.mReg := rfl
@[simp] theorem raiseError_outCount (e : CmdError) (s : State) : (raiseError e s).outCount = s.outCount := rfl
@[simp] theorem raiseError_lOp (e : CmdError) (s : State) : (raiseError e s).lOp = s.lOp := rfl
@[simp] theorem raiseError_lX (e : CmdError) (s : State) : (raiseError e s).lX = s.lX := rfl
@[simp] theorem raiseError_lH (e : CmdError) (s : State) : (raiseError e s).lH = s.lH := rfl
@[simp] theorem raiseError_lY (e : CmdError) (s : State) : (raiseError e s).lY = s.lY := rfl
@[simp] theorem raiseError_lN (e : CmdError) (s : State) : (raiseError e s).lN = s.lN := rfl
@[simp] theorem raiseError_lM (e : CmdError) (s : State) : (raiseError e s).lM = s.lM := rfl
@[simp] theorem raiseError_phase (e : CmdError) (s : State) : (raiseError e s).phase = .idle := rfl
@[simp] theorem raiseError_pi (e : CmdError) (s : State) : (raiseError e s).pi = s.pi := rfl
@[simp] theorem raiseError_n (e : CmdError) (s : State) : (raiseError e s).n = s.n := rfl
@[simp] theorem raiseError_coef (e : CmdError) (s : State) : (raiseError e s).coef = s.coef := rfl
@[simp] theorem raiseError_acc (e : CmdError) (s : State) : (raiseError e s).acc = s.acc := rfl
@[simp] theorem raiseError_sacc (e : CmdError) (s : State) : (raiseError e s).sacc = s.sacc := rfl
@[simp] theorem raiseError_mem (e : CmdError) (s : State) : (raiseError e s).mem = s.mem := rfl
@[simp] theorem raiseError_inReset (e : CmdError) (s : State) : (raiseError e s).inReset = s.inReset := rfl
@[simp] theorem raiseError_platform (e : CmdError) (s : State) : (raiseError e s).platform = s.platform := rfl
@[simp] theorem raiseError_schedule (e : CmdError) (s : State) : (raiseError e s).schedule = s.schedule := rfl
@[simp] theorem raiseError_hostRead (e : CmdError) (s : State) : (raiseError e s).hostRead = s.hostRead := rfl
@[simp] theorem raiseError_busTrace (e : CmdError) (s : State) : (raiseError e s).busTrace = s.busTrace := rfl
@[simp] theorem raiseError_errAddr_bus (a : Nat) (s : State) :
    (raiseError (.bus a) s).errAddr = BitVec.ofNat 32 a := rfl
theorem raiseError_errAddr_other (e : CmdError) (s : State) (h : ∀ a, e ≠ .bus a) :
    (raiseError e s).errAddr = s.errAddr := by
  cases e with
  | bus a => exact absurd rfl (h a)
  | _ => rfl

/-! ### `completeNormally`: Normal completion. -/

@[simp] theorem completeNormally_irqEn (s : State) : (completeNormally s).irqEn = s.irqEn := rfl
@[simp] theorem completeNormally_injAllocFail (s : State) : (completeNormally s).injAllocFail = s.injAllocFail := rfl
@[simp] theorem completeNormally_done (s : State) : (completeNormally s).done = true := rfl
@[simp] theorem completeNormally_cmdOvr (s : State) : (completeNormally s).cmdOvr = s.cmdOvr := rfl
@[simp] theorem completeNormally_errcode (s : State) : (completeNormally s).errcode = 0#4 := rfl
@[simp] theorem completeNormally_xAddr (s : State) : (completeNormally s).xAddr = s.xAddr := rfl
@[simp] theorem completeNormally_hAddr (s : State) : (completeNormally s).hAddr = s.hAddr := rfl
@[simp] theorem completeNormally_yAddr (s : State) : (completeNormally s).yAddr = s.yAddr := rfl
@[simp] theorem completeNormally_nReg (s : State) : (completeNormally s).nReg = s.nReg := rfl
@[simp] theorem completeNormally_mReg (s : State) : (completeNormally s).mReg = s.mReg := rfl
@[simp] theorem completeNormally_errAddr (s : State) : (completeNormally s).errAddr = s.errAddr := rfl
@[simp] theorem completeNormally_outCount (s : State) : (completeNormally s).outCount = s.outCount := rfl
@[simp] theorem completeNormally_lOp (s : State) : (completeNormally s).lOp = s.lOp := rfl
@[simp] theorem completeNormally_lX (s : State) : (completeNormally s).lX = s.lX := rfl
@[simp] theorem completeNormally_lH (s : State) : (completeNormally s).lH = s.lH := rfl
@[simp] theorem completeNormally_lY (s : State) : (completeNormally s).lY = s.lY := rfl
@[simp] theorem completeNormally_lN (s : State) : (completeNormally s).lN = s.lN := rfl
@[simp] theorem completeNormally_lM (s : State) : (completeNormally s).lM = s.lM := rfl
@[simp] theorem completeNormally_phase (s : State) : (completeNormally s).phase = .idle := rfl
@[simp] theorem completeNormally_pi (s : State) : (completeNormally s).pi = s.pi := rfl
@[simp] theorem completeNormally_n (s : State) : (completeNormally s).n = s.n := rfl
@[simp] theorem completeNormally_coef (s : State) : (completeNormally s).coef = s.coef := rfl
@[simp] theorem completeNormally_acc (s : State) : (completeNormally s).acc = s.acc := rfl
@[simp] theorem completeNormally_sacc (s : State) : (completeNormally s).sacc = s.sacc := rfl
@[simp] theorem completeNormally_mem (s : State) : (completeNormally s).mem = s.mem := rfl
@[simp] theorem completeNormally_inReset (s : State) : (completeNormally s).inReset = s.inReset := rfl
@[simp] theorem completeNormally_platform (s : State) : (completeNormally s).platform = s.platform := rfl
@[simp] theorem completeNormally_schedule (s : State) : (completeNormally s).schedule = s.schedule := rfl
@[simp] theorem completeNormally_hostRead (s : State) : (completeNormally s).hostRead = s.hostRead := rfl
@[simp] theorem completeNormally_busTrace (s : State) : (completeNormally s).busTrace = s.busTrace := rfl

/-! ### `latchCommand`: The first half of acceptance. -/

@[simp] theorem latchCommand_irqEn (op : Op) (s : State) : (latchCommand op s).irqEn = s.irqEn := rfl
@[simp] theorem latchCommand_injAllocFail (op : Op) (s : State) : (latchCommand op s).injAllocFail = s.injAllocFail := rfl
@[simp] theorem latchCommand_done (op : Op) (s : State) : (latchCommand op s).done = false := rfl
@[simp] theorem latchCommand_cmdOvr (op : Op) (s : State) : (latchCommand op s).cmdOvr = s.cmdOvr := rfl
@[simp] theorem latchCommand_errcode (op : Op) (s : State) : (latchCommand op s).errcode = 0#4 := rfl
@[simp] theorem latchCommand_xAddr (op : Op) (s : State) : (latchCommand op s).xAddr = s.xAddr := rfl
@[simp] theorem latchCommand_hAddr (op : Op) (s : State) : (latchCommand op s).hAddr = s.hAddr := rfl
@[simp] theorem latchCommand_yAddr (op : Op) (s : State) : (latchCommand op s).yAddr = s.yAddr := rfl
@[simp] theorem latchCommand_nReg (op : Op) (s : State) : (latchCommand op s).nReg = s.nReg := rfl
@[simp] theorem latchCommand_mReg (op : Op) (s : State) : (latchCommand op s).mReg = s.mReg := rfl
@[simp] theorem latchCommand_errAddr (op : Op) (s : State) : (latchCommand op s).errAddr = 0#32 := rfl
@[simp] theorem latchCommand_outCount (op : Op) (s : State) : (latchCommand op s).outCount = 0#32 := rfl
@[simp] theorem latchCommand_lOp (op : Op) (s : State) : (latchCommand op s).lOp = op := rfl
@[simp] theorem latchCommand_lX (op : Op) (s : State) : (latchCommand op s).lX = s.xAddr := rfl
@[simp] theorem latchCommand_lH (op : Op) (s : State) : (latchCommand op s).lH = s.hAddr := rfl
@[simp] theorem latchCommand_lY (op : Op) (s : State) : (latchCommand op s).lY = s.yAddr := rfl
@[simp] theorem latchCommand_lN (op : Op) (s : State) : (latchCommand op s).lN = s.nReg := rfl
@[simp] theorem latchCommand_lM (op : Op) (s : State) : (latchCommand op s).lM = s.mReg := rfl
@[simp] theorem latchCommand_phase (op : Op) (s : State) : (latchCommand op s).phase = s.phase := rfl
@[simp] theorem latchCommand_pi (op : Op) (s : State) : (latchCommand op s).pi = s.pi := rfl
@[simp] theorem latchCommand_n (op : Op) (s : State) : (latchCommand op s).n = s.n := rfl
@[simp] theorem latchCommand_coef (op : Op) (s : State) : (latchCommand op s).coef = s.coef := rfl
@[simp] theorem latchCommand_acc (op : Op) (s : State) : (latchCommand op s).acc = s.acc := rfl
@[simp] theorem latchCommand_sacc (op : Op) (s : State) : (latchCommand op s).sacc = s.sacc := rfl
@[simp] theorem latchCommand_mem (op : Op) (s : State) : (latchCommand op s).mem = s.mem := rfl
@[simp] theorem latchCommand_inReset (op : Op) (s : State) : (latchCommand op s).inReset = s.inReset := rfl
@[simp] theorem latchCommand_platform (op : Op) (s : State) : (latchCommand op s).platform = s.platform := rfl
@[simp] theorem latchCommand_schedule (op : Op) (s : State) : (latchCommand op s).schedule = s.schedule := rfl
@[simp] theorem latchCommand_hostRead (op : Op) (s : State) : (latchCommand op s).hostRead = s.hostRead := rfl
@[simp] theorem latchCommand_busTrace (op : Op) (s : State) : (latchCommand op s).busTrace = s.busTrace := rfl

/-! ### `record`: The record of an engine step's accesses. -/

@[simp] theorem record_irqEn (xs : List MemAccess) (s : State) : (record xs s).irqEn = s.irqEn := rfl
@[simp] theorem record_injAllocFail (xs : List MemAccess) (s : State) : (record xs s).injAllocFail = s.injAllocFail := rfl
@[simp] theorem record_done (xs : List MemAccess) (s : State) : (record xs s).done = s.done := rfl
@[simp] theorem record_cmdOvr (xs : List MemAccess) (s : State) : (record xs s).cmdOvr = s.cmdOvr := rfl
@[simp] theorem record_errcode (xs : List MemAccess) (s : State) : (record xs s).errcode = s.errcode := rfl
@[simp] theorem record_xAddr (xs : List MemAccess) (s : State) : (record xs s).xAddr = s.xAddr := rfl
@[simp] theorem record_hAddr (xs : List MemAccess) (s : State) : (record xs s).hAddr = s.hAddr := rfl
@[simp] theorem record_yAddr (xs : List MemAccess) (s : State) : (record xs s).yAddr = s.yAddr := rfl
@[simp] theorem record_nReg (xs : List MemAccess) (s : State) : (record xs s).nReg = s.nReg := rfl
@[simp] theorem record_mReg (xs : List MemAccess) (s : State) : (record xs s).mReg = s.mReg := rfl
@[simp] theorem record_errAddr (xs : List MemAccess) (s : State) : (record xs s).errAddr = s.errAddr := rfl
@[simp] theorem record_outCount (xs : List MemAccess) (s : State) : (record xs s).outCount = s.outCount := rfl
@[simp] theorem record_lOp (xs : List MemAccess) (s : State) : (record xs s).lOp = s.lOp := rfl
@[simp] theorem record_lX (xs : List MemAccess) (s : State) : (record xs s).lX = s.lX := rfl
@[simp] theorem record_lH (xs : List MemAccess) (s : State) : (record xs s).lH = s.lH := rfl
@[simp] theorem record_lY (xs : List MemAccess) (s : State) : (record xs s).lY = s.lY := rfl
@[simp] theorem record_lN (xs : List MemAccess) (s : State) : (record xs s).lN = s.lN := rfl
@[simp] theorem record_lM (xs : List MemAccess) (s : State) : (record xs s).lM = s.lM := rfl
@[simp] theorem record_phase (xs : List MemAccess) (s : State) : (record xs s).phase = s.phase := rfl
@[simp] theorem record_pi (xs : List MemAccess) (s : State) : (record xs s).pi = s.pi := rfl
@[simp] theorem record_n (xs : List MemAccess) (s : State) : (record xs s).n = s.n := rfl
@[simp] theorem record_coef (xs : List MemAccess) (s : State) : (record xs s).coef = s.coef := rfl
@[simp] theorem record_acc (xs : List MemAccess) (s : State) : (record xs s).acc = s.acc := rfl
@[simp] theorem record_sacc (xs : List MemAccess) (s : State) : (record xs s).sacc = s.sacc := rfl
@[simp] theorem record_mem (xs : List MemAccess) (s : State) : (record xs s).mem = s.mem := rfl
@[simp] theorem record_inReset (xs : List MemAccess) (s : State) : (record xs s).inReset = s.inReset := rfl
@[simp] theorem record_platform (xs : List MemAccess) (s : State) : (record xs s).platform = s.platform := rfl
@[simp] theorem record_schedule (xs : List MemAccess) (s : State) : (record xs s).schedule = s.schedule := rfl
@[simp] theorem record_hostRead (xs : List MemAccess) (s : State) : (record xs s).hostRead = s.hostRead := rfl
@[simp] theorem record_busTrace (xs : List MemAccess) (s : State) : (record xs s).busTrace = s.busTrace ++ performed s xs := rfl

/-! ### `resetBlock`: the block's own state takes its reset values, the rest stays. -/

@[simp] theorem resetBlock_irqEn (asserted : Bool) (s : State) : (resetBlock asserted s).irqEn = State.reset.irqEn := rfl
@[simp] theorem resetBlock_injAllocFail (asserted : Bool) (s : State) : (resetBlock asserted s).injAllocFail = State.reset.injAllocFail := rfl
@[simp] theorem resetBlock_done (asserted : Bool) (s : State) : (resetBlock asserted s).done = State.reset.done := rfl
@[simp] theorem resetBlock_cmdOvr (asserted : Bool) (s : State) : (resetBlock asserted s).cmdOvr = State.reset.cmdOvr := rfl
@[simp] theorem resetBlock_errcode (asserted : Bool) (s : State) : (resetBlock asserted s).errcode = State.reset.errcode := rfl
@[simp] theorem resetBlock_xAddr (asserted : Bool) (s : State) : (resetBlock asserted s).xAddr = State.reset.xAddr := rfl
@[simp] theorem resetBlock_hAddr (asserted : Bool) (s : State) : (resetBlock asserted s).hAddr = State.reset.hAddr := rfl
@[simp] theorem resetBlock_yAddr (asserted : Bool) (s : State) : (resetBlock asserted s).yAddr = State.reset.yAddr := rfl
@[simp] theorem resetBlock_nReg (asserted : Bool) (s : State) : (resetBlock asserted s).nReg = State.reset.nReg := rfl
@[simp] theorem resetBlock_mReg (asserted : Bool) (s : State) : (resetBlock asserted s).mReg = State.reset.mReg := rfl
@[simp] theorem resetBlock_errAddr (asserted : Bool) (s : State) : (resetBlock asserted s).errAddr = State.reset.errAddr := rfl
@[simp] theorem resetBlock_outCount (asserted : Bool) (s : State) : (resetBlock asserted s).outCount = State.reset.outCount := rfl
@[simp] theorem resetBlock_lOp (asserted : Bool) (s : State) : (resetBlock asserted s).lOp = State.reset.lOp := rfl
@[simp] theorem resetBlock_lX (asserted : Bool) (s : State) : (resetBlock asserted s).lX = State.reset.lX := rfl
@[simp] theorem resetBlock_lH (asserted : Bool) (s : State) : (resetBlock asserted s).lH = State.reset.lH := rfl
@[simp] theorem resetBlock_lY (asserted : Bool) (s : State) : (resetBlock asserted s).lY = State.reset.lY := rfl
@[simp] theorem resetBlock_lN (asserted : Bool) (s : State) : (resetBlock asserted s).lN = State.reset.lN := rfl
@[simp] theorem resetBlock_lM (asserted : Bool) (s : State) : (resetBlock asserted s).lM = State.reset.lM := rfl
@[simp] theorem resetBlock_phase (asserted : Bool) (s : State) : (resetBlock asserted s).phase = State.reset.phase := rfl
@[simp] theorem resetBlock_pi (asserted : Bool) (s : State) : (resetBlock asserted s).pi = State.reset.pi := rfl
@[simp] theorem resetBlock_n (asserted : Bool) (s : State) : (resetBlock asserted s).n = State.reset.n := rfl
@[simp] theorem resetBlock_coef (asserted : Bool) (s : State) : (resetBlock asserted s).coef = State.reset.coef := rfl
@[simp] theorem resetBlock_acc (asserted : Bool) (s : State) : (resetBlock asserted s).acc = State.reset.acc := rfl
@[simp] theorem resetBlock_sacc (asserted : Bool) (s : State) : (resetBlock asserted s).sacc = State.reset.sacc := rfl
@[simp] theorem resetBlock_mem (asserted : Bool) (s : State) : (resetBlock asserted s).mem = s.mem := rfl
@[simp] theorem resetBlock_inReset (asserted : Bool) (s : State) : (resetBlock asserted s).inReset = asserted := rfl
@[simp] theorem resetBlock_platform (asserted : Bool) (s : State) : (resetBlock asserted s).platform = s.platform := rfl
@[simp] theorem resetBlock_schedule (asserted : Bool) (s : State) : (resetBlock asserted s).schedule = s.schedule := rfl
@[simp] theorem resetBlock_hostRead (asserted : Bool) (s : State) : (resetBlock asserted s).hostRead = s.hostRead := rfl
@[simp] theorem resetBlock_busTrace (asserted : Bool) (s : State) : (resetBlock asserted s).busTrace = s.busTrace := rfl

/-! ### `startCommand` and `packTap`: the fields they never touch. -/

@[simp] theorem startCommand_irqEn (s : State) : (startCommand s).irqEn = s.irqEn := by
  unfold startCommand; split <;> rfl
@[simp] theorem startCommand_injAllocFail (s : State) : (startCommand s).injAllocFail = s.injAllocFail := by
  unfold startCommand; split <;> rfl
@[simp] theorem startCommand_done (s : State) : (startCommand s).done = s.done := by
  unfold startCommand; split <;> rfl
@[simp] theorem startCommand_cmdOvr (s : State) : (startCommand s).cmdOvr = s.cmdOvr := by
  unfold startCommand; split <;> rfl
@[simp] theorem startCommand_errcode (s : State) : (startCommand s).errcode = s.errcode := by
  unfold startCommand; split <;> rfl
@[simp] theorem startCommand_xAddr (s : State) : (startCommand s).xAddr = s.xAddr := by
  unfold startCommand; split <;> rfl
@[simp] theorem startCommand_hAddr (s : State) : (startCommand s).hAddr = s.hAddr := by
  unfold startCommand; split <;> rfl
@[simp] theorem startCommand_yAddr (s : State) : (startCommand s).yAddr = s.yAddr := by
  unfold startCommand; split <;> rfl
@[simp] theorem startCommand_nReg (s : State) : (startCommand s).nReg = s.nReg := by
  unfold startCommand; split <;> rfl
@[simp] theorem startCommand_mReg (s : State) : (startCommand s).mReg = s.mReg := by
  unfold startCommand; split <;> rfl
@[simp] theorem startCommand_errAddr (s : State) : (startCommand s).errAddr = s.errAddr := by
  unfold startCommand; split <;> rfl
@[simp] theorem startCommand_outCount (s : State) : (startCommand s).outCount = s.outCount := by
  unfold startCommand; split <;> rfl
@[simp] theorem startCommand_lOp (s : State) : (startCommand s).lOp = s.lOp := by
  unfold startCommand; split <;> rfl
@[simp] theorem startCommand_lX (s : State) : (startCommand s).lX = s.lX := by
  unfold startCommand; split <;> rfl
@[simp] theorem startCommand_lH (s : State) : (startCommand s).lH = s.lH := by
  unfold startCommand; split <;> rfl
@[simp] theorem startCommand_lY (s : State) : (startCommand s).lY = s.lY := by
  unfold startCommand; split <;> rfl
@[simp] theorem startCommand_lN (s : State) : (startCommand s).lN = s.lN := by
  unfold startCommand; split <;> rfl
@[simp] theorem startCommand_lM (s : State) : (startCommand s).lM = s.lM := by
  unfold startCommand; split <;> rfl
@[simp] theorem startCommand_coef (s : State) : (startCommand s).coef = s.coef := by
  unfold startCommand; split <;> rfl
@[simp] theorem startCommand_acc (s : State) : (startCommand s).acc = s.acc := by
  unfold startCommand; split <;> rfl
@[simp] theorem startCommand_sacc (s : State) : (startCommand s).sacc = s.sacc := by
  unfold startCommand; split <;> rfl
@[simp] theorem startCommand_mem (s : State) : (startCommand s).mem = s.mem := by
  unfold startCommand; split <;> rfl
@[simp] theorem startCommand_inReset (s : State) : (startCommand s).inReset = s.inReset := by
  unfold startCommand; split <;> rfl
@[simp] theorem startCommand_platform (s : State) : (startCommand s).platform = s.platform := by
  unfold startCommand; split <;> rfl
@[simp] theorem startCommand_schedule (s : State) : (startCommand s).schedule = s.schedule := by
  unfold startCommand; split <;> rfl
@[simp] theorem startCommand_hostRead (s : State) : (startCommand s).hostRead = s.hostRead := by
  unfold startCommand; split <;> rfl
@[simp] theorem startCommand_busTrace (s : State) : (startCommand s).busTrace = s.busTrace := by
  unfold startCommand; split <;> rfl
@[simp] theorem packTap_irqEn (v : Word) (s : State) : (packTap v s).irqEn = s.irqEn := by
  unfold packTap; simp only []; split <;> rfl
@[simp] theorem packTap_injAllocFail (v : Word) (s : State) : (packTap v s).injAllocFail = s.injAllocFail := by
  unfold packTap; simp only []; split <;> rfl
@[simp] theorem packTap_done (v : Word) (s : State) : (packTap v s).done = s.done := by
  unfold packTap; simp only []; split <;> rfl
@[simp] theorem packTap_cmdOvr (v : Word) (s : State) : (packTap v s).cmdOvr = s.cmdOvr := by
  unfold packTap; simp only []; split <;> rfl
@[simp] theorem packTap_errcode (v : Word) (s : State) : (packTap v s).errcode = s.errcode := by
  unfold packTap; simp only []; split <;> rfl
@[simp] theorem packTap_xAddr (v : Word) (s : State) : (packTap v s).xAddr = s.xAddr := by
  unfold packTap; simp only []; split <;> rfl
@[simp] theorem packTap_hAddr (v : Word) (s : State) : (packTap v s).hAddr = s.hAddr := by
  unfold packTap; simp only []; split <;> rfl
@[simp] theorem packTap_yAddr (v : Word) (s : State) : (packTap v s).yAddr = s.yAddr := by
  unfold packTap; simp only []; split <;> rfl
@[simp] theorem packTap_nReg (v : Word) (s : State) : (packTap v s).nReg = s.nReg := by
  unfold packTap; simp only []; split <;> rfl
@[simp] theorem packTap_mReg (v : Word) (s : State) : (packTap v s).mReg = s.mReg := by
  unfold packTap; simp only []; split <;> rfl
@[simp] theorem packTap_errAddr (v : Word) (s : State) : (packTap v s).errAddr = s.errAddr := by
  unfold packTap; simp only []; split <;> rfl
@[simp] theorem packTap_outCount (v : Word) (s : State) : (packTap v s).outCount = s.outCount := by
  unfold packTap; simp only []; split <;> rfl
@[simp] theorem packTap_lOp (v : Word) (s : State) : (packTap v s).lOp = s.lOp := by
  unfold packTap; simp only []; split <;> rfl
@[simp] theorem packTap_lX (v : Word) (s : State) : (packTap v s).lX = s.lX := by
  unfold packTap; simp only []; split <;> rfl
@[simp] theorem packTap_lH (v : Word) (s : State) : (packTap v s).lH = s.lH := by
  unfold packTap; simp only []; split <;> rfl
@[simp] theorem packTap_lY (v : Word) (s : State) : (packTap v s).lY = s.lY := by
  unfold packTap; simp only []; split <;> rfl
@[simp] theorem packTap_lN (v : Word) (s : State) : (packTap v s).lN = s.lN := by
  unfold packTap; simp only []; split <;> rfl
@[simp] theorem packTap_lM (v : Word) (s : State) : (packTap v s).lM = s.lM := by
  unfold packTap; simp only []; split <;> rfl
@[simp] theorem packTap_acc (v : Word) (s : State) : (packTap v s).acc = s.acc := by
  unfold packTap; simp only []; split <;> rfl
@[simp] theorem packTap_sacc (v : Word) (s : State) : (packTap v s).sacc = s.sacc := by
  unfold packTap; simp only []; split <;> rfl
@[simp] theorem packTap_mem (v : Word) (s : State) : (packTap v s).mem = s.mem := by
  unfold packTap; simp only []; split <;> rfl
@[simp] theorem packTap_inReset (v : Word) (s : State) : (packTap v s).inReset = s.inReset := by
  unfold packTap; simp only []; split <;> rfl
@[simp] theorem packTap_platform (v : Word) (s : State) : (packTap v s).platform = s.platform := by
  unfold packTap; simp only []; split <;> rfl
@[simp] theorem packTap_schedule (v : Word) (s : State) : (packTap v s).schedule = s.schedule := by
  unfold packTap; simp only []; split <;> rfl
@[simp] theorem packTap_hostRead (v : Word) (s : State) : (packTap v s).hostRead = s.hostRead := by
  unfold packTap; simp only []; split <;> rfl
@[simp] theorem packTap_busTrace (v : Word) (s : State) : (packTap v s).busTrace = s.busTrace := by
  unfold packTap; simp only []; split <;> rfl
@[simp] theorem packTap_coef (v : Word) (s : State) :
    (packTap v s).coef = s.coef.setIfInBounds (slot s.pi) v := by
  unfold packTap; simp only []; split <;> rfl
@[simp] theorem packTap_pi (v : Word) (s : State) : (packTap v s).pi = s.pi + 1 := by
  unfold packTap; simp only []; split <;> rfl

end Sys2Proof.Machine
end

