-- ==== Sys2Proof/Laws/Port.lean ====
section
/-! SUPPORT. What the engine's memory port and the end of an element step can do, said once (00_scope.md R11;
60_exceptions.md R238; 41_scalar_convolution.md R174). -/

namespace Sys2Proof.Machine

/-! ### The port's answer -/

/-- The accesses the port answers with success. -/
def Answered (s : State) (a : MemAccess) : Prop :=
  a.addr + 4 ≤ Config.memoryBytes ∧ busErr s a.dir a.addr = false

theorem portAnswer_ok_iff (s : State) (a : MemAccess) : portAnswer s a = .ok () ↔ Answered s a := by
  unfold portAnswer Answered
  by_cases h : a.addr + 4 > Config.memoryBytes
  · simp [h]
  · cases hb : busErr s a.dir a.addr <;> simp [h]
    omega

theorem portAnswer_ok {s : State} {a : MemAccess} (h : Answered s a) : portAnswer s a = .ok () :=
  (portAnswer_ok_iff s a).2 h

theorem portAnswer_busError {s : State} {a : MemAccess} (h : a.addr + 4 ≤ Config.memoryBytes)
    (hb : busErr s a.dir a.addr = true) : portAnswer s a = .busError a.addr := by
  unfold portAnswer
  rw [if_neg (by omega), if_pos hb]

theorem portAnswer_of_busError {s : State} {a : MemAccess} {b : Nat} (h : portAnswer s a = .busError b) :
    b = a.addr ∧ a.addr + 4 ≤ Config.memoryBytes ∧ busErr s a.dir a.addr = true := by
  unfold portAnswer at h
  split at h
  · cases h
  · next h1 =>
    split at h
    · next h2 => cases h; exact ⟨rfl, by omega, h2⟩
    · cases h

theorem portAnswer_of_outside {s : State} {a : MemAccess} {b : Nat} (h : portAnswer s a = .outside b) :
    b = a.addr ∧ Config.memoryBytes < a.addr + 4 := by
  unfold portAnswer at h
  split at h
  · next h1 => cases h; exact ⟨rfl, h1⟩
  · split at h <;> cases h

theorem memRead_answered {s : State} {a : Nat} (h : Answered s ⟨.read, a⟩) :
    memRead s a = .ok (s.mem.readWord a) := by
  unfold memRead
  rw [portAnswer_ok h]

theorem memRead_cases (s : State) (a : Nat) :
    (portAnswer s ⟨.read, a⟩ = .ok () ∧ memRead s a = .ok (s.mem.readWord a))
      ∨ (portAnswer s ⟨.read, a⟩ = .busError a ∧ memRead s a = .busError a)
      ∨ (portAnswer s ⟨.read, a⟩ = .outside a ∧ memRead s a = .outside a) := by
  unfold memRead
  cases h : portAnswer s ⟨.read, a⟩ with
  | ok v => exact .inl ⟨rfl, rfl⟩
  | busError b => obtain ⟨rfl, -⟩ := portAnswer_of_busError h; exact .inr (.inl ⟨rfl, rfl⟩)
  | outside b => obtain ⟨rfl, -⟩ := portAnswer_of_outside h; exact .inr (.inr ⟨rfl, rfl⟩)

theorem memWrite_cases (s : State) (a : Nat) (v : Word) :
    (portAnswer s ⟨.write, a⟩ = .ok () ∧ memWrite s a v = .ok (s.mem.writeWord a v))
      ∨ (portAnswer s ⟨.write, a⟩ = .busError a ∧ memWrite s a v = .busError a)
      ∨ (portAnswer s ⟨.write, a⟩ = .outside a ∧ memWrite s a v = .outside a) := by
  unfold memWrite
  cases h : portAnswer s ⟨.write, a⟩ with
  | ok v => exact .inl ⟨rfl, rfl⟩
  | busError b => obtain ⟨rfl, -⟩ := portAnswer_of_busError h; exact .inr (.inl ⟨rfl, rfl⟩)
  | outside b => obtain ⟨rfl, -⟩ := portAnswer_of_outside h; exact .inr (.inr ⟨rfl, rfl⟩)

/-- The port looks at the platform only. -/
theorem portAnswer_congr {s t : State} (h : t.platform = s.platform) (a : MemAccess) :
    portAnswer t a = portAnswer s a := by
  unfold portAnswer busErr
  rw [h]

/-! ### The accesses that are made -/

/-- The first access of a sequence that gets no success, as the answer it gets. -/
def firstStop (s : State) : List MemAccess → PortResult Unit
  | [] => .ok ()
  | a :: rest =>
    match portAnswer s a with
    | .ok _ => firstStop s rest
    | .busError b => .busError b
    | .outside b => .outside b

theorem firstStop_append (s : State) (xs ys : List MemAccess) :
    firstStop s (xs ++ ys) =
      match firstStop s xs with
      | .ok _ => firstStop s ys
      | .busError b => .busError b
      | .outside b => .outside b := by
  induction xs with
  | nil => rfl
  | cons a xs ih =>
    simp only [List.cons_append, firstStop]
    cases portAnswer s a with
    | ok _ => exact ih
    | busError _ => rfl
    | outside _ => rfl

theorem firstStop_all_answered {s : State} {xs : List MemAccess} (h : ∀ a ∈ xs, Answered s a) :
    firstStop s xs = .ok () := by
  induction xs with
  | nil => rfl
  | cons a xs ih =>
    simp only [firstStop, portAnswer_ok (h a List.mem_cons_self)]
    exact ih fun b hb => h b (List.mem_cons_of_mem _ hb)

theorem firstStop_busError {s : State} {xs : List MemAccess} {b : Nat} (h : firstStop s xs = .busError b) :
    ∃ a ∈ xs, b = a.addr ∧ a.addr + 4 ≤ Config.memoryBytes ∧ busErr s a.dir a.addr = true := by
  induction xs with
  | nil => cases h
  | cons a xs ih =>
    simp only [firstStop] at h
    split at h
    · obtain ⟨c, hc, hr⟩ := ih h
      exact ⟨c, List.mem_cons_of_mem _ hc, hr⟩
    · next hp => cases h; exact ⟨a, List.mem_cons_self, portAnswer_of_busError hp⟩
    · cases h

theorem firstStop_ok {s : State} {xs : List MemAccess} (h : firstStop s xs = .ok ()) : ∀ a ∈ xs, Answered s a := by
  induction xs with
  | nil => simp
  | cons a xs ih =>
    simp only [firstStop] at h
    split at h
    · next hp =>
      intro c hc
      rcases List.mem_cons.1 hc with rfl | hc
      · exact (portAnswer_ok_iff _ _).1 hp
      · exact ih h c hc
    · cases h
    · cases h

theorem firstStop_stops {s : State} {before after : List MemAccess} {a : MemAccess}
    (h : ∀ b ∈ before, Answered s b) (ha : a.addr + 4 ≤ Config.memoryBytes) (hb : busErr s a.dir a.addr = true) :
    firstStop s (before ++ a :: after) = .busError a.addr := by
  rw [firstStop_append, firstStop_all_answered h]
  simp only [firstStop, portAnswer_busError ha hb]

theorem performed_all_answered {s : State} {xs : List MemAccess} (h : ∀ a ∈ xs, Answered s a) :
    performed s xs = xs := by
  induction xs with
  | nil => rfl
  | cons a xs ih =>
    simp only [performed, portAnswer_ok (h a List.mem_cons_self)]
    rw [ih fun b hb => h b (List.mem_cons_of_mem _ hb)]

theorem performed_stops {s : State} {before after : List MemAccess} {a : MemAccess}
    (h : ∀ b ∈ before, Answered s b) (ha : ¬ Answered s a) :
    performed s (before ++ a :: after) = before ++ [a] := by
  induction before with
  | nil =>
    simp only [List.nil_append, performed]
    cases hp : portAnswer s a with
    | ok _ => exact absurd ((portAnswer_ok_iff s a).1 hp) ha
    | busError _ => rfl
    | outside _ => rfl
  | cons b before ih =>
    simp only [List.cons_append, performed, portAnswer_ok (h b List.mem_cons_self)]
    rw [ih fun c hc => h c (List.mem_cons_of_mem _ hc)]

theorem performed_subset (s : State) (xs : List MemAccess) : ∀ a ∈ performed s xs, a ∈ xs := by
  induction xs with
  | nil => simp [performed]
  | cons b xs ih =>
    intro a ha
    simp only [performed] at ha
    split at ha
    · rcases List.mem_cons.1 ha with rfl | ha
      · exact List.mem_cons_self
      · exact List.mem_cons_of_mem _ (ih a ha)
    · simp only [List.mem_singleton] at ha; simp [ha]
    · simp only [List.mem_singleton] at ha; simp [ha]

/-! ### Going on after the port -/

theorem afterPort_next {α : Type} {r : PortResult α} {s t : State}
    {go : α → Host.Outcome State Fault Refusal} (h : afterPort r s go = .next t) :
    (∃ v, r = .ok v ∧ go v = .next t) ∨ ∃ a, r = .busError a ∧ t = raiseError (.bus a) s := by
  cases r with
  | ok v => exact .inl ⟨v, rfl, h⟩
  | busError a => exact .inr ⟨a, rfl, by simpa [afterPort] using h.symm⟩
  | outside a => cases h

/-- The two ends of an element step: y[n] written, then completion or the next n; or an error response. -/
theorem storeElement_next {v : Word} {s t : State} (h : storeElement v s = .next t) :
    (Answered s ⟨.write, yElem s s.n⟩ ∧ s.n + 1 = s.lN.toNat ∧
        t = completeNormally { s with mem := s.mem.writeWord (yElem s s.n) v, outCount := s.outCount + 1#32 })
      ∨ (Answered s ⟨.write, yElem s s.n⟩ ∧ s.n + 1 ≠ s.lN.toNat ∧
        t = { s with mem := s.mem.writeWord (yElem s s.n) v, outCount := s.outCount + 1#32, n := s.n + 1 })
      ∨ (portAnswer s ⟨.write, yElem s s.n⟩ = .busError (yElem s s.n) ∧
        t = raiseError (.bus (yElem s s.n)) s) := by
  unfold storeElement at h
  rcases memWrite_cases s (yElem s s.n) v with ⟨hp, hm⟩ | ⟨hp, hm⟩ | ⟨hp, hm⟩
  · rw [hm] at h
    simp only [afterPort] at h
    have ha := (portAnswer_ok_iff _ _).1 hp
    split at h
    · next hn => cases h; exact .inl ⟨ha, hn, rfl⟩
    · next hn => cases h; exact .inr (.inl ⟨ha, hn, rfl⟩)
  · rw [hm] at h
    simp only [afterPort] at h
    cases h
    exact .inr (.inr ⟨hp, rfl⟩)
  · rw [hm] at h
    cases h

end Sys2Proof.Machine
end

