-- ==== Sys2Proof/Laws/Loops.lean ====
section
/-! SUPPORT. The accumulation loops against the access sequences of 20_memory.md R81: where a loop stops is where the
sequence first gets no success, and a loop that ends is a fold over memory (41_scalar_convolution.md R172;
42_vector_convolution.md R196). -/

namespace Sys2Proof.Machine

/-! ### CONV_SCALAR -/

/-- The reads of the taps of a list, in order. -/
def scalarReads (s : State) (ks : List Nat) : List MemAccess :=
  ks.flatMap fun k => [⟨.read, hElem s k⟩, ⟨.read, xElem s (s.n - k)⟩]

theorem scalarAccesses_eq (s : State) :
    scalarAccesses s = scalarReads s (List.range s.lM.toNat) ++ [⟨.write, yElem s s.n⟩] := rfl

theorem scalarLoop_stop (s : State) (ks : List Nat) (w : Word) :
    (scalarLoop s ks w).2 = firstStop s (scalarReads s ks) := by
  induction ks generalizing w with
  | nil => rfl
  | cons k ks ih =>
    simp only [scalarReads, List.flatMap_cons, List.cons_append, List.nil_append, firstStop, scalarLoop]
    rcases memRead_cases s (hElem s k) with ⟨hp, hm⟩ | ⟨hp, hm⟩ | ⟨hp, hm⟩ <;> rw [hp, hm]
    rcases memRead_cases s (xElem s (s.n - k)) with ⟨hp, hm⟩ | ⟨hp, hm⟩ | ⟨hp, hm⟩ <;> rw [hp, hm]
    exact ih _

theorem scalarLoop_sum (s : State) (ks : List Nat) (w : Word) (h : (scalarLoop s ks w).2 = .ok ()) :
    (scalarLoop s ks w).1 =
      ks.foldl (fun acc k => f32Add acc (f32Mul (s.mem.readWord (hElem s k)) (s.mem.readWord (xElem s (s.n - k))))) w := by
  induction ks generalizing w with
  | nil => rfl
  | cons k ks ih =>
    simp only [scalarLoop, List.foldl_cons] at h ⊢
    rcases memRead_cases s (hElem s k) with ⟨hp, hm⟩ | ⟨hp, hm⟩ | ⟨hp, hm⟩ <;> rw [hm] at h ⊢
    · rcases memRead_cases s (xElem s (s.n - k)) with ⟨hp, hm⟩ | ⟨hp, hm⟩ | ⟨hp, hm⟩ <;> simp only [hm] at h ⊢
      · exact ih _ h
      · cases h
      · cases h
    · cases h
    · cases h

/-- One element step of CONV_SCALAR, by what its reads are answered. -/
theorem scalarStep_eq (s : State) :
    scalarStep s =
      afterPort (firstStop s (scalarReads s (List.range s.lM.toNat)))
        { record (scalarAccesses s) s with sacc := (scalarLoop s (List.range s.lM.toNat) 0#32).1 }
        fun _ => storeElement (scalarLoop s (List.range s.lM.toNat) 0#32).1
          { record (scalarAccesses s) s with sacc := (scalarLoop s (List.range s.lM.toNat) 0#32).1 } := by
  rw [← scalarLoop_stop s _ 0#32]
  rfl

/-! ### CONV_VECTOR -/

/-- The reads of the active lanes of a list, in order. -/
def vectorReads (s : State) (ls : List (Nat × Fin 8)) : List MemAccess :=
  (ls.filter fun l => tapOf l.1 l.2 < s.lM.toNat).map fun l => ⟨.read, xElem s (s.n - tapOf l.1 l.2)⟩

theorem vectorAccesses_eq (s : State) :
    vectorAccesses s = vectorReads s (laneOrder (numBlocks s)) ++ [⟨.write, yElem s s.n⟩] := rfl

/-- What lane j of block b adds to its accumulator (R195, R196). -/
def laneTerm (s : State) (b : Nat) (j : Fin 8) : Word :=
  if tapOf b j < s.lM.toNat then f32Mul (coefAt s (8 * b + j)) (s.mem.readWord (xElem s (s.n - tapOf b j)))
  else 0x00000000#32

theorem vectorLoop_stop (s : State) (ls : List (Nat × Fin 8)) (acc : Vector Word 8) :
    (vectorLoop s ls acc).2 = firstStop s (vectorReads s ls) := by
  induction ls generalizing acc with
  | nil => rfl
  | cons l ls ih =>
    obtain ⟨b, j⟩ := l
    simp only [vectorLoop]
    by_cases ht : tapOf b j < s.lM.toNat
    · simp only [ht, if_true]
      have : vectorReads s ((b, j) :: ls) = ⟨.read, xElem s (s.n - tapOf b j)⟩ :: vectorReads s ls := by
        simp [vectorReads, ht]
      rw [this]
      simp only [firstStop]
      rcases memRead_cases s (xElem s (s.n - tapOf b j)) with ⟨hp, hm⟩ | ⟨hp, hm⟩ | ⟨hp, hm⟩ <;> rw [hp, hm]
      exact ih _
    · simp only [ht, if_false]
      have : vectorReads s ((b, j) :: ls) = vectorReads s ls := by simp [vectorReads, ht]
      rw [this]
      exact ih _

theorem vectorLoop_lanes (s : State) (ls : List (Nat × Fin 8)) (acc : Vector Word 8)
    (h : (vectorLoop s ls acc).2 = .ok ()) :
    (vectorLoop s ls acc).1 =
      ls.foldl (fun a l => a.set l.2 (f32Add a[l.2] (laneTerm s l.1 l.2))) acc := by
  induction ls generalizing acc with
  | nil => rfl
  | cons l ls ih =>
    obtain ⟨b, j⟩ := l
    simp only [vectorLoop, List.foldl_cons] at h ⊢
    by_cases ht : tapOf b j < s.lM.toNat
    · simp only [ht, if_true, laneTerm] at h ⊢
      rcases memRead_cases s (xElem s (s.n - tapOf b j)) with ⟨hp, hm⟩ | ⟨hp, hm⟩ | ⟨hp, hm⟩ <;> simp only [hm] at h ⊢
      · exact ih _ h
      · cases h
      · cases h
    · simp only [ht, if_false, laneTerm] at h ⊢
      exact ih _ h

/-- Lane j of a fold over lanes gathers the terms of lane j alone. -/
theorem foldl_lane (term : Nat → Fin 8 → Word) (ls : List (Nat × Fin 8)) (acc : Vector Word 8) (j : Fin 8) :
    (ls.foldl (fun a l => a.set l.2 (f32Add a[l.2] (term l.1 l.2))) acc)[j] =
      (ls.filter fun l => l.2 = j).foldl (fun a l => f32Add a (term l.1 l.2)) acc[j] := by
  induction ls generalizing acc with
  | nil => rfl
  | cons l ls ih =>
    simp only [List.foldl_cons]
    rw [ih]
    by_cases hj : l.2 = j
    · subst hj
      simp
    · have hne : (l.2 : Nat) ≠ j := fun h => hj (Fin.ext h)
      simp [hj, hne]

/-- The lanes of one block that are lane j: one, for each block. -/
theorem laneOrder_filter (blocks : Nat) (j : Fin 8) :
    (laneOrder blocks).filter (fun l => l.2 = j) = (List.range blocks).map fun b => (b, j) := by
  unfold laneOrder
  rw [List.filter_flatMap]
  have : ∀ b : Nat, ([(b, 0), (b, 1), (b, 2), (b, 3), (b, 4), (b, 5), (b, 6), (b, 7)] : List (Nat × Fin 8)).filter
      (fun l => decide (l.2 = j)) = [(b, j)] := by
    intro b
    fin_cases j <;> rfl
  simp only [this]
  induction List.range blocks with
  | nil => rfl
  | cons b bs ih => simp [ih]

/-- Lane j after the loop of R196: its products in ascending block order. -/
theorem vectorLoop_lane (s : State) (acc : Vector Word 8) (j : Fin 8)
    (h : (vectorLoop s (laneOrder (numBlocks s)) acc).2 = .ok ()) :
    (vectorLoop s (laneOrder (numBlocks s)) acc).1[j] =
      (List.range (numBlocks s)).foldl (fun a b => f32Add a (laneTerm s b j)) acc[j] := by
  rw [vectorLoop_lanes s _ acc h, foldl_lane, laneOrder_filter, List.foldl_map]

/-- One element step of CONV_VECTOR, by what its reads are answered. -/
theorem vectorStep_eq (s : State) :
    vectorStep s =
      afterPort (firstStop s (vectorReads s (laneOrder (numBlocks s))))
        { record (vectorAccesses s) s with
          acc := (vectorLoop s (laneOrder (numBlocks s)) (Vector.replicate 8 0#32)).1 }
        fun _ => storeElement (reduceLanes (vectorLoop s (laneOrder (numBlocks s)) (Vector.replicate 8 0#32)).1)
          { record (vectorAccesses s) s with
            acc := (vectorLoop s (laneOrder (numBlocks s)) (Vector.replicate 8 0#32)).1 } := by
  rw [← vectorLoop_stop s _ (Vector.replicate 8 0#32)]
  rfl

end Sys2Proof.Machine
end

