-- ==== Sys2Proof/Laws/PerInstr.lean ====
section
/-! SUPPORT. The shape of every instruction's encoding, constructor by constructor (30_encoding.md R101): a read is a
descriptor alone, a write a descriptor with W set and four bytes of data, BO is 00 and bit 7 is clear. -/

namespace Sys2Proof.Laws.EncodeShape

/-- The shape of the frame of one instruction. -/
def Statement (i : Instr) : Prop :=
  (encode i).length = (if i.isRead then 1 else 5)
    ∧ descTooWide ((encode i).headD 0x80#8) = false
    ∧ descByteOffset ((encode i).headD 0x01#8) = 0#2
    ∧ descWrite ((encode i).headD 0x00#8) = !i.isRead

/-- The shape of a write frame at an offset of the window. -/
theorem of_write {i : Instr} {off : Byte} {v : Word} (he : encode i = writeFrame off v) (hr : i.isRead = false)
    (h7 : descTooWide (0x40#8 ||| off) = false) (h0 : descByteOffset (0x40#8 ||| off) = 0#2)
    (hw : descWrite (0x40#8 ||| off) = true) : Statement i := by
  unfold Statement
  rw [he, hr]
  exact ⟨rfl, h7, h0, hw⟩

theorem convScalar : Statement .convScalar := of_write rfl rfl (by decide) (by decide) (by decide)

theorem convVector : Statement .convVector := of_write rfl rfl (by decide) (by decide) (by decide)

theorem rdId : Statement .rdId := ⟨rfl, rfl, rfl, rfl⟩

theorem wrId (v : Word) : Statement (.wrId v) := of_write rfl rfl (by decide) (by decide) (by decide)

theorem rdCaps : Statement .rdCaps := ⟨rfl, rfl, rfl, rfl⟩

theorem wrCaps (v : Word) : Statement (.wrCaps v) := of_write rfl rfl (by decide) (by decide) (by decide)

theorem rdCtrl : Statement .rdCtrl := ⟨rfl, rfl, rfl, rfl⟩

theorem wrCtrl (v : Word) : Statement (.wrCtrl v) := of_write rfl rfl (by decide) (by decide) (by decide)

theorem rdStatus : Statement .rdStatus := ⟨rfl, rfl, rfl, rfl⟩

theorem wrStatus (v : Word) : Statement (.wrStatus v) := of_write rfl rfl (by decide) (by decide) (by decide)

theorem rdCmd : Statement .rdCmd := ⟨rfl, rfl, rfl, rfl⟩

theorem wrCmd (v : Word) : Statement (.wrCmd v) := of_write rfl rfl (by decide) (by decide) (by decide)

theorem rdXAddr : Statement .rdXAddr := ⟨rfl, rfl, rfl, rfl⟩

theorem wrXAddr (v : Word) : Statement (.wrXAddr v) := of_write rfl rfl (by decide) (by decide) (by decide)

theorem rdHAddr : Statement .rdHAddr := ⟨rfl, rfl, rfl, rfl⟩

theorem wrHAddr (v : Word) : Statement (.wrHAddr v) := of_write rfl rfl (by decide) (by decide) (by decide)

theorem rdYAddr : Statement .rdYAddr := ⟨rfl, rfl, rfl, rfl⟩

theorem wrYAddr (v : Word) : Statement (.wrYAddr v) := of_write rfl rfl (by decide) (by decide) (by decide)

theorem rdN : Statement .rdN := ⟨rfl, rfl, rfl, rfl⟩

theorem wrN (v : Word) : Statement (.wrN v) := of_write rfl rfl (by decide) (by decide) (by decide)

theorem rdM : Statement .rdM := ⟨rfl, rfl, rfl, rfl⟩

theorem wrM (v : Word) : Statement (.wrM v) := of_write rfl rfl (by decide) (by decide) (by decide)

theorem rdErrAddr : Statement .rdErrAddr := ⟨rfl, rfl, rfl, rfl⟩

theorem wrErrAddr (v : Word) : Statement (.wrErrAddr v) := of_write rfl rfl (by decide) (by decide) (by decide)

theorem rdOutCount : Statement .rdOutCount := ⟨rfl, rfl, rfl, rfl⟩

theorem wrOutCount (v : Word) : Statement (.wrOutCount v) := of_write rfl rfl (by decide) (by decide) (by decide)

theorem rdReserved (i : BitVec 2) : Statement (.rdReserved i) := by
  revert i
  unfold Statement
  decide

theorem wrReserved (i : BitVec 2) (v : Word) : Statement (.wrReserved i v) :=
  of_write rfl rfl (by revert i; decide) (by revert i; decide) (by revert i; decide)

end Sys2Proof.Laws.EncodeShape
end

