-- ==== Sys2Proof/Laws/Step.lean ====
section
/-! SUPPORT. What one step can do, said once: the ends of an engine step, of a CMD write and of an event, which the
claims cite instead of unfolding the step. -/

namespace Sys2Proof.Machine

/-! ### Engine steps -/

/-- The ends of an element step with accumulators already in `u`: an error response at one of its accesses, or y[n]
written and then completion or the next n. -/
theorem element_next {s u t : State} {reads : List MemAccess} {v : Word} (hp : u.platform = s.platform)
    (h : afterPort (firstStop s reads) u (fun _ => storeElement v u) = .next t) :
    (∃ a ∈ reads ++ [⟨.write, yElem u u.n⟩], busErr s a.dir a.addr = true ∧ t = raiseError (.bus a.addr) u)
      ∨ (firstStop s (reads ++ [⟨.write, yElem u u.n⟩]) = .ok () ∧ u.n + 1 = u.lN.toNat ∧
        t = completeNormally { u with mem := u.mem.writeWord (yElem u u.n) v, outCount := u.outCount + 1#32 })
      ∨ (firstStop s (reads ++ [⟨.write, yElem u u.n⟩]) = .ok () ∧ u.n + 1 ≠ u.lN.toNat ∧
        t = { u with mem := u.mem.writeWord (yElem u u.n) v, outCount := u.outCount + 1#32, n := u.n + 1 }) := by
  rcases afterPort_next h with ⟨⟨⟩, hr, h⟩ | ⟨a, hr, rfl⟩
  · have hok : portAnswer u ⟨.write, yElem u u.n⟩ = .ok () → firstStop s (reads ++ [⟨.write, yElem u u.n⟩]) = .ok () := by
      intro hw
      rw [firstStop_append, hr]
      simp only [firstStop]
      rw [← portAnswer_congr hp, hw]
    rcases storeElement_next h with ⟨ha, hn, rfl⟩ | ⟨ha, hn, rfl⟩ | ⟨hb, rfl⟩
    · exact .inr (.inl ⟨hok (portAnswer_ok ha), hn, rfl⟩)
    · exact .inr (.inr ⟨hok (portAnswer_ok ha), hn, rfl⟩)
    · refine .inl ⟨⟨.write, yElem u u.n⟩, by simp, ?_, rfl⟩
      obtain ⟨-, -, hb⟩ := portAnswer_of_busError hb
      simpa [busErr, hp] using hb
  · obtain ⟨c, hc, rfl, -, hb⟩ := firstStop_busError hr
    exact .inl ⟨c, by simp [hc], hb, rfl⟩

/-- The state of an element step of CONV_SCALAR before it ends: accesses recorded, accumulator in place. -/
def scalarMid (s : State) : State :=
  { record (scalarAccesses s) s with sacc := (scalarLoop s (List.range s.lM.toNat) 0#32).1 }

/-- The state of an element step of CONV_VECTOR before it ends. -/
def vectorMid (s : State) : State :=
  { record (vectorAccesses s) s with
    acc := (vectorLoop s (laneOrder (numBlocks s)) (Vector.replicate 8 0#32)).1 }

/-- Everything an engine step that answers a next state can be. -/
theorem engineStep_next {s t : State} (h : engineStep s = .next t) :
    (s.phase = .idle ∧ t = s)
      ∨ (s.phase = .pack ∧ s.lOp = .vector ∧ packStep s = .next t)
      ∨ (s.phase = .conv ∧ s.lOp = .scalar ∧
        afterPort (firstStop s (scalarReads s (List.range s.lM.toNat))) (scalarMid s)
          (fun _ => storeElement (scalarMid s).sacc (scalarMid s)) = .next t)
      ∨ (s.phase = .conv ∧ s.lOp = .vector ∧
        afterPort (firstStop s (vectorReads s (laneOrder (numBlocks s)))) (vectorMid s)
          (fun _ => storeElement (reduceLanes (vectorMid s).acc) (vectorMid s)) = .next t) := by
  unfold engineStep at h
  split at h
  · next hp => cases h; exact .inl ⟨hp, rfl⟩
  · next hp ho => exact .inr (.inl ⟨hp, ho, h⟩)
  · next hp ho => rw [scalarStep_eq] at h; exact .inr (.inr (.inl ⟨hp, ho, h⟩))
  · next hp ho => rw [vectorStep_eq] at h; exact .inr (.inr (.inr ⟨hp, ho, h⟩))
  all_goals cases h

/-- The ends of a pack step: a tap packed, real or padding, or an error response. -/
theorem packStep_next {s t : State} (h : packStep s = .next t) :
    (s.pi < s.lM.toNat ∧ Answered s ⟨.read, hElem s s.pi⟩ ∧
        t = packTap (s.mem.readWord (hElem s s.pi)) (record (packAccesses s) s))
      ∨ (¬ s.pi < s.lM.toNat ∧ t = packTap 0#32 (record (packAccesses s) s))
      ∨ (s.pi < s.lM.toNat ∧ busErr s .read (hElem s s.pi) = true ∧
        t = raiseError (.bus (hElem s s.pi)) (record (packAccesses s) s)) := by
  unfold packStep at h
  simp only [] at h
  split at h
  · next hi =>
    rcases memRead_cases s (hElem s s.pi) with ⟨hp, hm⟩ | ⟨hp, hm⟩ | ⟨hp, hm⟩ <;> rw [hm] at h
    · cases h; exact .inl ⟨hi, (portAnswer_ok_iff _ _).1 hp, rfl⟩
    · cases h; exact .inr (.inr ⟨hi, (portAnswer_of_busError hp).2.2, rfl⟩)
    · cases h
  · next hi => cases h; exact .inr (.inl ⟨hi, rfl⟩)

/-- The ends of `packTap`: the last tap opens the CONV phase. -/
theorem packTap_cases (v : Word) (s : State) :
    (s.pi + 1 = mPad s ∧ packTap v s =
        { s with coef := s.coef.setIfInBounds (slot s.pi) v, pi := s.pi + 1, phase := .conv, n := s.lM.toNat - 1 })
      ∨ (s.pi + 1 ≠ mPad s ∧ packTap v s =
        { s with coef := s.coef.setIfInBounds (slot s.pi) v, pi := s.pi + 1 }) := by
  by_cases h : s.pi + 1 = mPad s
  · exact .inl ⟨h, if_pos h⟩
  · exact .inr ⟨h, if_neg h⟩

/-- What an engine step that answers a next state can be, field by field: idle, a tap packed, ended by an error
response, the last element written, or another element written. -/
theorem engineStep_cases {s t : State} (h : engineStep s = .next t) :
    (s.phase = .idle ∧ t = s)
      ∨ (s.phase = .pack ∧ s.lOp = .vector ∧
        t = packTap (if s.pi < s.lM.toNat then s.mem.readWord (hElem s s.pi) else 0#32) (record (packAccesses s) s))
      ∨ (s.phase ≠ .idle ∧ ∃ sacc acc busTrace a,
        t = raiseError (.bus a) { s with sacc := sacc, acc := acc, busTrace := busTrace })
      ∨ (s.phase = .conv ∧ (s.lOp = .scalar ∨ s.lOp = .vector) ∧ s.n + 1 = s.lN.toNat ∧
        Answered s ⟨.write, yElem s s.n⟩ ∧ ∃ sacc acc busTrace v,
        t = completeNormally { s with
          sacc := sacc, acc := acc, busTrace := busTrace
          mem := s.mem.writeWord (yElem s s.n) v, outCount := s.outCount + 1#32 })
      ∨ (s.phase = .conv ∧ (s.lOp = .scalar ∨ s.lOp = .vector) ∧ s.n + 1 ≠ s.lN.toNat ∧
        Answered s ⟨.write, yElem s s.n⟩ ∧ ∃ sacc acc busTrace v,
        t = { s with
          sacc := sacc, acc := acc, busTrace := busTrace
          mem := s.mem.writeWord (yElem s s.n) v, outCount := s.outCount + 1#32, n := s.n + 1 }) := by
  have last : ∀ {xs : List MemAccess} {a : MemAccess}, firstStop s (xs ++ [a]) = .ok () → Answered s a :=
    fun hf => firstStop_ok hf _ (List.mem_append_right _ List.mem_cons_self)
  rcases engineStep_next h with h | ⟨hp, ho, hh⟩ | ⟨hp, ho, hh⟩ | ⟨hp, ho, hh⟩
  · exact .inl h
  · rcases packStep_next hh with ⟨hi, -, e⟩ | ⟨hi, e⟩ | ⟨-, -, e⟩
    · exact .inr (.inl ⟨hp, ho, by rw [if_pos hi]; exact e⟩)
    · exact .inr (.inl ⟨hp, ho, by rw [if_neg hi]; exact e⟩)
    · exact .inr (.inr (.inl ⟨by rw [hp]; simp, s.sacc, s.acc, _, _, e⟩))
  · rcases element_next (s := s) (u := scalarMid s) rfl hh with ⟨a, -, -, e⟩ | ⟨hf, hn, e⟩ | ⟨hf, hn, e⟩
    · exact .inr (.inr (.inl ⟨by rw [hp]; simp, _, s.acc, _, _, e⟩))
    · exact .inr (.inr (.inr (.inl ⟨hp, .inl ho, hn, last hf, _, s.acc, _, _, e⟩)))
    · exact .inr (.inr (.inr (.inr ⟨hp, .inl ho, hn, last hf, _, s.acc, _, _, e⟩)))
  · rcases element_next (s := s) (u := vectorMid s) rfl hh with ⟨a, -, -, e⟩ | ⟨hf, hn, e⟩ | ⟨hf, hn, e⟩
    · exact .inr (.inr (.inl ⟨by rw [hp]; simp, s.sacc, _, _, _, e⟩))
    · exact .inr (.inr (.inr (.inl ⟨hp, .inr ho, hn, last hf, s.sacc, _, _, _, e⟩)))
    · exact .inr (.inr (.inr (.inr ⟨hp, .inr ho, hn, last hf, s.sacc, _, _, _, e⟩)))

/-- The write that ends an element step, when it is answered. -/
theorem storeElement_answered {v : Word} {s : State} (h : Answered s ⟨.write, yElem s s.n⟩) :
    storeElement v s = .next (
      let t := { s with mem := s.mem.writeWord (yElem s s.n) v, outCount := s.outCount + 1#32 }
      if s.n + 1 = s.lN.toNat then completeNormally t else { t with n := s.n + 1 }) := by
  unfold storeElement memWrite
  rw [portAnswer_ok h]
  simp only [afterPort]
  split <;> rfl

/-! ### Acceptance -/

/-- What a CMD write can do: dropped while busy, completed at once by a failing check, or started. -/
theorem presentCommand_cases (v : Word) (s : State) :
    (s.phase ≠ .idle ∧ presentCommand v s = { s with cmdOvr := true })
      ∨ (∃ e, s.phase = .idle ∧ checkLatched (latchCommand (decodeCmd v) s) = some e ∧
        presentCommand v s = raiseError e (latchCommand (decodeCmd v) s))
      ∨ (s.phase = .idle ∧ checkLatched (latchCommand (decodeCmd v) s) = none ∧ decodeCmd v = .scalar ∧
        presentCommand v s =
          { latchCommand (decodeCmd v) s with phase := .conv, n := s.mReg.toNat - 1 })
      ∨ (s.phase = .idle ∧ checkLatched (latchCommand (decodeCmd v) s) = none ∧ decodeCmd v = .vector ∧
        presentCommand v s = { latchCommand (decodeCmd v) s with phase := .pack, pi := 0 }) := by
  by_cases hb : s.phase = .idle
  · have hb' : s.busy = false := (not_busy_iff s).2 hb
    unfold presentCommand acceptCommand
    simp only [hb', Bool.false_eq_true, if_false]
    cases hc : checkLatched (latchCommand (decodeCmd v) s) with
    | some e => exact .inr (.inl ⟨e, hb, rfl, rfl⟩)
    | none =>
      cases ho : decodeCmd v with
      | scalar => exact .inr (.inr (.inl ⟨hb, rfl, rfl, rfl⟩))
      | vector => exact .inr (.inr (.inr ⟨hb, rfl, rfl, rfl⟩))
      | illegal => rw [ho] at hc; simp [checkLatched, check] at hc
  · refine .inl ⟨hb, ?_⟩
    unfold presentCommand
    rw [if_pos ((busy_iff s).2 hb)]

/-! ### Events and steps -/

theorem fetchAccess_schedule (s : State) (rest : List Event) (a : HostAccess) :
    fetchAccess { s with schedule := rest } a = fetchAccess s a := rfl

/-- Everything a step that answers a next state can be: the engine's turn, an instruction of the host, the host's own
access to memory, an edge of reset. -/
theorem step_next {s t : State} (h : step s = .next t) :
    ((s.schedule = [] ∨ s.schedule.head? = some .engine) ∧
        ∃ u, (u = s ∨ ∃ rest, s.schedule = .engine :: rest ∧ u = { s with schedule := rest })
          ∧ ((u.inReset = true ∧ t = u) ∨ (u.inReset = false ∧ engineStep u = .next t)))
      ∨ (∃ a rest i, s.schedule = .access a :: rest ∧ s.inReset = false ∧ fetchAccess s a = .ok i ∧
        exec i { s with schedule := rest } = .next t)
      ∨ (∃ a b rest, s.schedule = .hostStore a b :: rest ∧ a < Config.memoryBytes ∧
        inRunningInput s a = false ∧ inPendingOutput s a = false ∧
        t = { s with schedule := rest, mem := s.mem.writeByte a b })
      ∨ (∃ a rest w, s.schedule = .hostLoad a :: rest ∧ t = { s with schedule := rest, hostRead := w })
      ∨ (∃ b rest, s.schedule = (if b then .resetAssert else .resetRelease) :: rest ∧
        t = resetBlock b { s with schedule := rest }) := by
  unfold step at h
  cases hs : s.schedule with
  | nil =>
    rw [hs] at h
    refine .inl ⟨.inl rfl, s, .inl rfl, ?_⟩
    simp only [runEngine] at h
    cases hr : s.inReset with
    | true => rw [hr] at h; cases h; exact .inl ⟨rfl, rfl⟩
    | false => rw [hr] at h; exact .inr ⟨rfl, h⟩
  | cons e rest =>
    rw [hs] at h
    simp only [runEvent] at h
    cases e with
    | access a =>
      simp only [runAccess, fetchAccess_schedule] at h
      refine .inr (.inl ?_)
      cases hf : fetchAccess s a with
      | error r => rw [hf] at h; cases h
      | ok i =>
        rw [hf] at h
        refine ⟨a, rest, i, rfl, ?_, hf, h⟩
        cases hr : s.inReset with
        | false => rfl
        | true => simp [fetchAccess, hr] at hf
    | engine =>
      simp only [runEngine] at h
      refine .inl ⟨.inr rfl, _, .inr ⟨rest, rfl, rfl⟩, ?_⟩
      cases hr : s.inReset with
      | true => rw [hr] at h; cases h; exact .inl ⟨rfl, rfl⟩
      | false => rw [hr] at h; exact .inr ⟨rfl, h⟩
    | hostStore a b =>
      refine .inr (.inr (.inl ⟨a, b, rest, rfl, ?_⟩))
      simp only [hostStoreByte] at h
      split at h
      · cases h
      · next h1 =>
        split at h
        · cases h
        · next h2 =>
          split at h
          · cases h
          · next h3 =>
            cases h
            exact ⟨by omega, eq_false_of_ne_true h2, eq_false_of_ne_true h3, rfl⟩
    | hostLoad a =>
      refine .inr (.inr (.inr (.inl ⟨a, rest, (s.mem.readByte a).setWidth 32, rfl, ?_⟩)))
      simp only [hostLoadByte] at h
      split at h
      · cases h
      · split at h
        · cases h
        · cases h; rfl
    | resetAssert => cases h; exact .inr (.inr (.inr (.inr ⟨true, rest, rfl, rfl⟩)))
    | resetRelease => cases h; exact .inr (.inr (.inr (.inr ⟨false, rest, rfl, rfl⟩)))

/-- A turn of the engine that the schedule gives. -/
theorem step_engine {s : State} {rest : List Event} (h : s.schedule = .engine :: rest) :
    step s = runEngine { s with schedule := rest } := by
  unfold step
  rw [h]
  rfl

/-- A turn of the engine while reset is not asserted. -/
theorem runEngine_running {s : State} (h : s.inReset = false) : runEngine s = engineStep s :=
  if_neg (by simp [h])

/-- A turn of the engine while reset is asserted. -/
theorem runEngine_inReset {s : State} (h : s.inReset = true) : runEngine s = .next s := if_pos h

/-- An edge of reset. -/
theorem step_reset {s : State} {rest : List Event} {b : Bool}
    (h : s.schedule = (if b then .resetAssert else .resetRelease) :: rest) :
    step s = .next (resetBlock b { s with schedule := rest }) := by
  unfold step
  rw [h]
  cases b <;> rfl

/-- The claims' run is the host's run. -/
theorem runSteps_eq_core_run (k : Nat) (s : State) : runSteps k s = Host.Core.run core k s := by
  induction k generalizing s with
  | zero => rfl
  | succ k ih =>
    simp only [runSteps, Host.Core.run]
    cases h : step s with
    | next t => rw [show core.step s = .next t from h]; exact ih t
    | fault r => rw [show core.step s = .fault r from h]; rfl
    | refused r => rw [show core.step s = .refused r from h]; rfl

theorem runSteps_add (j k : Nat) (s : State) :
    runSteps (j + k) s =
      match runSteps j s with
      | .next t => runSteps k t
      | .fault f => .fault f
      | .refused r => .refused r := by
  induction j generalizing s with
  | zero => simp [runSteps]
  | succ j ih =>
    rw [Nat.add_right_comm]
    simp only [runSteps]
    cases step s with
    | next t => exact ih t
    | fault f => rfl
    | refused r => rfl

theorem runSteps_step {s t : State} (h : step s = .next t) (k : Nat) : runSteps (1 + k) s = runSteps k t := by
  rw [Nat.add_comm]; simp [runSteps, h]

theorem runSteps_snoc {s t : State} {k : Nat} (h : runSteps k s = .next t) : runSteps (k + 1) s = step t := by
  rw [runSteps_add, h]
  simp only [runSteps]
  cases step t <;> rfl

end Sys2Proof.Machine
end

