-- ==== Sys2Proof/Tests/Slice0.lean ====
section
/-! SUPPORT. Tests of one step each, and a witness for the hypotheses of every statement. Expected values come from
spec/95_test_vectors.md (the vector is named in front of the test) or from the rule named there. -/

namespace Sys2Proof.Tests

open Sys2Proof Sys2Proof.Machine

/-! ### Helpers -/

/-- Whether an outcome is a next state with a property. -/
def nextIs (p : State → Bool) : Host.Outcome State Fault Refusal → Bool
  | .next t => p t
  | .fault _ => false
  | .refused _ => false

theorem next_of {p : State → Bool} {o : Host.Outcome State Fault Refusal} (h : nextIs p o = true) :
    ∃ t, o = .next t ∧ p t = true := by
  cases o with
  | next t => exact ⟨t, rfl, h⟩
  | fault f => cases h
  | refused r => cases h

/-- The refusal an outcome is, if it is one. -/
def refusalOf? : Host.Outcome State Fault Refusal → Option Refusal
  | .refused r => some r
  | .next _ => none
  | .fault _ => none

/-- Words laid out from an address up. -/
def place (a : Nat) (ws : List Word) (m : Memory) : Memory :=
  (ws.foldl (fun (am : Nat × Memory) v => (am.1 + 4, am.2.writeWord am.1 v)) (a, m)).2

/-- The machine after reset with operand registers written. -/
def ready (x h y n m : Word) : State :=
  { State.reset with xAddr := x, hAddr := h, yAddr := y, nReg := n, mReg := m }

/-- The operands of program P1 (95_test_vectors.md L2.2, base row). -/
def base : State := ready 0x1000#32 0x2000#32 0x3000#32 12#32 5#32

/-- A coefficient RAM that holds taps in their slots. -/
def packed (taps : List Word) : Vector Word Config.coefDepth :=
  taps.zipIdx.foldl (fun c wi => c.setIfInBounds (slot wi.2) wi.1) (Vector.replicate Config.coefDepth 0x00000000#32)

/-- A running command at output index n, with signal and filter in memory and the taps packed. -/
def running (op : Op) (xs hs : List Word) (n : Nat) : State :=
  { State.reset with
    xAddr := 0x1000#32, hAddr := 0x2000#32, yAddr := 0x3000#32
    nReg := BitVec.ofNat 32 xs.length, mReg := BitVec.ofNat 32 hs.length
    lOp := op, lX := 0x1000#32, lH := 0x2000#32, lY := 0x3000#32
    lN := BitVec.ofNat 32 xs.length, lM := BitVec.ofNat 32 hs.length
    phase := .conv, n := n, outCount := BitVec.ofNat 32 (n - (hs.length - 1))
    coef := if op = .vector then packed hs else Vector.replicate Config.coefDepth 0x00000000#32
    mem := place 0x2000 hs (place 0x1000 xs []) }

/-- The output element an engine step leaves. -/
def yAfter (s : State) : Option Word :=
  match engineStep s with
  | .next t => some (t.mem.readWord (yElem s s.n))
  | .fault _ => none
  | .refused _ => none

/-- The word a register read leaves with the host. -/
def readBack (i : Instr) (s : State) : Option Word :=
  match exec i s with
  | .next t => some t.hostRead
  | .fault _ => none
  | .refused _ => none

/-- STATUS after an instruction. -/
def statusAfter (i : Instr) (s : State) : Option Word :=
  match exec i s with
  | .next t => some (statusWord t)
  | .fault _ => none
  | .refused _ => none

/-- The state after an instruction, the given one if it stops. -/
def after (i : Instr) (s : State) : State :=
  match exec i s with
  | .next t => t
  | .fault _ => s
  | .refused _ => s

/-! ### Well-formed terms (30_encoding.md R111) -/

theorem test_wf_refuses_scalar_word : Instr.wellFormed (.wrCmd 0x00000001#32) = false := by decide
theorem test_wf_refuses_vector_word : Instr.wellFormed (.wrCmd 0x00000002#32) = false := by decide
theorem test_wf_takes_illegal_word : Instr.wellFormed (.wrCmd 0x00000012#32) = true := by decide

/-! ### Decoding: frames written out from the descriptors of R101 and R103 and the D of each rule of 40_host_access.md -/

theorem test_decode_rdId : decode [0b00000000#8] = .ok .rdId := by decide
theorem test_decode_rdCaps : decode [0b00000100#8] = .ok .rdCaps := by decide
theorem test_decode_rdCtrl : decode [0b00001000#8] = .ok .rdCtrl := by decide
theorem test_decode_rdStatus : decode [0b00001100#8] = .ok .rdStatus := by decide
theorem test_decode_rdCmd : decode [0b00010000#8] = .ok .rdCmd := by decide
theorem test_decode_rdXAddr : decode [0b00010100#8] = .ok .rdXAddr := by decide
theorem test_decode_rdHAddr : decode [0b00011000#8] = .ok .rdHAddr := by decide
theorem test_decode_rdYAddr : decode [0b00011100#8] = .ok .rdYAddr := by decide
theorem test_decode_rdN : decode [0b00100000#8] = .ok .rdN := by decide
theorem test_decode_rdM : decode [0b00100100#8] = .ok .rdM := by decide
theorem test_decode_rdErrAddr : decode [0b00101000#8] = .ok .rdErrAddr := by decide
theorem test_decode_rdOutCount : decode [0b00101100#8] = .ok .rdOutCount := by decide
theorem test_decode_rdReserved : decode [0b00110100#8] = .ok (.rdReserved 1#2) := by decide
theorem test_decode_convScalar : decode [0b01010000#8, 0x01#8, 0x00#8, 0x00#8, 0x00#8] = .ok .convScalar := by decide
theorem test_decode_convVector : decode [0b01010000#8, 0x02#8, 0x00#8, 0x00#8, 0x00#8] = .ok .convVector := by decide
theorem test_decode_wrId :
    decode [0b01000000#8, 0x00#8, 0x00#8, 0x00#8, 0x00#8] = .ok (.wrId 0x00000000#32) := by decide
theorem test_decode_wrCaps :
    decode [0b01000100#8, 0xFF#8, 0xFF#8, 0xFF#8, 0xFF#8] = .ok (.wrCaps 0xFFFFFFFF#32) := by decide
theorem test_decode_wrCtrl :
    decode [0b01001000#8, 0x01#8, 0x00#8, 0x00#8, 0x00#8] = .ok (.wrCtrl 0x00000001#32) := by decide
theorem test_decode_wrStatus :
    decode [0b01001100#8, 0x02#8, 0x00#8, 0x00#8, 0x00#8] = .ok (.wrStatus 0x00000002#32) := by decide
theorem test_decode_wrCmd :
    decode [0b01010000#8, 0x12#8, 0x00#8, 0x00#8, 0x00#8] = .ok (.wrCmd 0x00000012#32) := by decide
theorem test_decode_wrXAddr :
    decode [0b01010100#8, 0x00#8, 0x10#8, 0x00#8, 0x00#8] = .ok (.wrXAddr 0x00001000#32) := by decide
theorem test_decode_wrHAddr :
    decode [0b01011000#8, 0x00#8, 0x20#8, 0x00#8, 0x00#8] = .ok (.wrHAddr 0x00002000#32) := by decide
theorem test_decode_wrYAddr :
    decode [0b01011100#8, 0x00#8, 0x30#8, 0x00#8, 0x00#8] = .ok (.wrYAddr 0x00003000#32) := by decide
theorem test_decode_wrN :
    decode [0b01100000#8, 0x80#8, 0x96#8, 0x98#8, 0x00#8] = .ok (.wrN 0x00989680#32) := by decide
theorem test_decode_wrM :
    decode [0b01100100#8, 0x00#8, 0x01#8, 0x00#8, 0x00#8] = .ok (.wrM 0x00000100#32) := by decide
theorem test_decode_wrErrAddr :
    decode [0b01101000#8, 0x05#8, 0x00#8, 0x00#8, 0x00#8] = .ok (.wrErrAddr 0x00000005#32) := by decide
theorem test_decode_wrOutCount :
    decode [0b01101100#8, 0x07#8, 0x00#8, 0x00#8, 0x00#8] = .ok (.wrOutCount 0x00000007#32) := by decide
theorem test_decode_wrReserved :
    decode [0b01111100#8, 0x44#8, 0x33#8, 0x22#8, 0x11#8] = .ok (.wrReserved 3#2 0x11223344#32) := by decide
theorem test_decode_rejects_offset : decode [0b00001101#8] = .error .byteOffset := by decide
theorem test_decode_rejects_wide_descriptor : decode [0b10001100#8] = .error .descriptorWidth := by decide
theorem test_decode_rejects_short_write : decode [0b01010000#8, 0x01#8] = .error .frameLength := by decide
theorem test_decode_rejects_long_read : decode [0b00001100#8, 0x00#8] = .error .frameLength := by decide
theorem test_decode_rejects_nothing : decode [] = .error .frameLength := by decide
theorem test_encode_convVector : encode .convVector = [0x50#8, 0x02#8, 0x00#8, 0x00#8, 0x00#8] := by decide

/-! ### The opcode table's words -/

theorem test_table_convScalar : decodeTableWord 32 0x00000001 = some .convScalar := by decide
theorem test_table_convVector : decodeTableWord 32 0x00000002 = some .convVector := by decide
theorem test_table_rdStatus : decodeTableWord 8 0x0C = some .rdStatus := by decide
theorem test_table_wrCmd : decodeTableWord 8 0x50 = some (.wrCmd 0x00000000#32) := by decide
theorem test_table_wrReserved : decodeTableWord 8 0x70 = some (.wrReserved 0#2 0x00000000#32) := by decide
theorem test_fetch_runs_rdId :
    nextIs (fun t => t.hostRead = 0x46495238#32 && t.schedule.isEmpty) (step (State.reset.withFetchWord 8 0x00)) = true := by
  decide
theorem test_fetch_runs_convScalar :
    nextIs (fun t => t.lOp = .scalar && t.errcode = 2#4) (step (State.reset.withFetchWord 32 1)) = true := by decide

/-! ### Register accesses (95_test_vectors.md L2.1) -/

/-- V-M1. -/
theorem test_rdId : readBack .rdId State.reset = some 0x46495238#32 := by decide
/-- V-M5. -/
theorem test_wrId : readBack .rdId (after (.wrId 0x00000000#32) State.reset) = some 0x46495238#32 := by decide
/-- V-M2. -/
theorem test_rdCaps : readBack .rdCaps State.reset = some 0x01000108#32 := by decide
/-- V-M6. -/
theorem test_wrCaps : readBack .rdCaps (after (.wrCaps 0xFFFFFFFF#32) State.reset) = some 0x01000108#32 := by decide
/-- V-M7. -/
theorem test_rdCtrl : readBack .rdCtrl (after (.wrCtrl 0xFFFFFFFF#32) State.reset) = some 0x00000003#32 := by decide
/-- V-M8. -/
theorem test_wrCtrl : readBack .rdCtrl (after (.wrCtrl 0x00000004#32) State.reset) = some 0x00000000#32 := by decide
/-- V-M18. -/
theorem test_wrCtrl_irq : (after (.wrCtrl 0x00000001#32) (after (.wrCmd 0#32) State.reset)).irq = true := by decide
/-- V-M15. -/
theorem test_rdStatus : readBack .rdStatus (after (.wrCmd 0#32) State.reset) = some 0x00000102#32 := by decide
/-- V-M14. -/
theorem test_wrStatus_idle : statusAfter (.wrStatus 0xFFFFFFFF#32) State.reset = some 0x00000000#32 := by decide
/-- V-M16. -/
theorem test_wrStatus_ack : statusAfter (.wrStatus 0x00000002#32) (after (.wrCmd 0#32) State.reset) = some 0x00000100#32 := by
  decide
/-- V-M3. -/
theorem test_rdCmd : readBack .rdCmd (after .convVector State.reset) = some 0x00000000#32 := by decide
/-- V-M21. -/
theorem test_wrCmd : statusAfter (.wrCmd 0x00000012#32) State.reset = some 0x00000102#32 := by decide
/-- V-M22. -/
theorem test_wrCmd_opcode15 : statusAfter (.wrCmd 0x0000000F#32) State.reset = some 0x00000102#32 := by decide
/-- V-M9. -/
theorem test_rdXAddr : readBack .rdXAddr (after (.wrXAddr 0x00001003#32) State.reset) = some 0x00001003#32 := by decide
/-- R144: a write while BUSY = 1 does not change L_X. -/
theorem test_wrXAddr : (after (.wrXAddr 0x00005000#32) (after .convVector base)).lX = 0x00001000#32 := by decide
/-- R145. -/
theorem test_rdHAddr : readBack .rdHAddr (after (.wrHAddr 0x00002000#32) State.reset) = some 0x00002000#32 := by decide
/-- R146. -/
theorem test_wrHAddr : (after (.wrHAddr 0x00002000#32) State.reset).hAddr = 0x00002000#32 := by decide
/-- R147. -/
theorem test_rdYAddr : readBack .rdYAddr (after (.wrYAddr 0x00003000#32) State.reset) = some 0x00003000#32 := by decide
/-- R148. -/
theorem test_wrYAddr : (after (.wrYAddr 0x00003000#32) State.reset).yAddr = 0x00003000#32 := by decide
/-- V-M10. -/
theorem test_rdN : readBack .rdN (after (.wrN 0xFFFFFFFF#32) State.reset) = some 0xFFFFFFFF#32 := by decide
/-- R150. -/
theorem test_wrN : (after (.wrN 0x0000000C#32) State.reset).nReg = 0x0000000C#32 := by decide
/-- V-M11. -/
theorem test_rdM : readBack .rdM (after (.wrM 0#32) base) = some 0x00000000#32 := by decide
/-- R152. -/
theorem test_wrM : (after (.wrM 0xFFFFFFFF#32) State.reset).mReg = 0xFFFFFFFF#32 := by decide
/-- R153's example, from a state whose last command faulted at 0x1010. -/
theorem test_rdErrAddr : readBack .rdErrAddr { State.reset with errAddr := 0x00001010#32 } = some 0x00001010#32 := by decide
/-- V-M12. -/
theorem test_wrErrAddr : readBack .rdErrAddr (after (.wrErrAddr 5#32) State.reset) = some 0x00000000#32 := by decide
/-- R155's example. -/
theorem test_rdOutCount : readBack .rdOutCount { State.reset with outCount := 8#32 } = some 0x00000008#32 := by decide
/-- V-M12. -/
theorem test_wrOutCount : readBack .rdOutCount (after (.wrOutCount 7#32) State.reset) = some 0x00000000#32 := by decide
/-- V-M13. -/
theorem test_rdReserved : readBack (.rdReserved 3#2) State.reset = some 0x00000000#32 := by decide
/-- V-M13. -/
theorem test_wrReserved :
    readBack (.rdReserved 0#2) (after (.wrReserved 0#2 1#32) State.reset) = some 0x00000000#32 := by decide
/-- V-A2. -/
theorem test_convScalar_starts :
    nextIs (fun t => t.phase = .conv && t.n = 4 && t.lOp = .scalar) (exec .convScalar base) = true := by decide
/-- R139's example: a second command while busy sets CMD_OVR. -/
theorem test_convScalar_busy : statusAfter .convScalar (after .convVector base) = some 0x00000005#32 := by decide
/-- R140's example and V-A1. -/
theorem test_convVector_starts : statusAfter .convVector base = some 0x00000001#32 := by decide
/-- L1.6 (program P3): the injected failure. -/
theorem test_convVector_alloc : statusAfter .convVector { base with injAllocFail := true } = some 0x00000602#32 := by decide

/-! ### Acceptance checks (95_test_vectors.md L2.2) -/

/-- V-A5, V-A6, V-A7, V-A9, V-A10. -/
theorem test_checks_A5_to_A10 :
    check .vector 0x1000 0x2000 0x3000 12 0 false = some .param
      ∧ check .vector 0x1000 0x2000 0x3000 5 5 false = none
      ∧ check .vector 0x1000 0x2000 0x3000 4 5 false = some .param
      ∧ check .vector 0x1000 0x2000 0x3001 12 5 false = some .align
      ∧ check .vector 0xFFFFFFD0 0x2000 0x3000 12 5 false = none := by
  decide
/-- V-A11, V-A12, V-A13, V-A14, V-A15. -/
theorem test_checks_A11_to_A15 :
    check .vector 0xFFFFFFD4 0x2000 0x3000 12 5 false = some .range
      ∧ check .vector 0x1000 0x2000 0x1020 12 5 false = none
      ∧ check .vector 0x1010 0x2000 0x1000 12 5 false = some .overlap
      ∧ check .vector 0x1030 0x2000 0x1000 12 5 false = none
      ∧ check .vector 0x1000 0x3010 0x3000 12 5 false = some .overlap := by
  decide
/-- V-A16, V-A17, V-A18, V-A19, V-A21. -/
theorem test_checks_A16_to_A21 :
    check .vector 0x1000 0x1000 0x3000 12 5 false = none
      ∧ check .vector 0x10000 0x20000 0x30000 300 256 false = none
      ∧ check .vector 0x10000 0x20000 0x30000 300 257 false = some .alloc
      ∧ check .scalar 0x10000 0x20000 0x30000 300 257 false = none
      ∧ check .scalar 0x1000 0x2000 0x3000 12 5 true = none := by
  decide
/-- V-A22, V-A23, V-A24, V-A25. -/
theorem test_checks_A22_to_A25 :
    check .vector 0x1001 0x2000 0x3000 12 0 false = some .param
      ∧ check .vector 0xFFFFFFF1 0x2000 0x3000 12 5 false = some .align
      ∧ check .vector 0x1000 0x2000 0x1010 12 5 true = some .overlap
      ∧ check .illegal 0x1001 0x2000 0x3000 12 0 true = some .illegal := by
  decide

/-- V-A7, V-A9, V-A11, V-A13: STATUS after ERR_PARAM, ERR_ALIGN, ERR_RANGE, ERR_OVERLAP (R231). -/
theorem test_checks_codes :
    statusAfter .convVector (ready 0x1000#32 0x2000#32 0x3000#32 4#32 5#32) = some 0x00000202#32
      ∧ statusAfter .convVector (ready 0x1000#32 0x2000#32 0x3001#32 12#32 5#32) = some 0x00000302#32
      ∧ statusAfter .convVector (ready 0xFFFFFFD4#32 0x2000#32 0x3000#32 12#32 5#32) = some 0x00000402#32
      ∧ statusAfter .convVector (ready 0x1010#32 0x2000#32 0x1000#32 12#32 5#32) = some 0x00000502#32 := by
  decide

/-! ### CONV_SCALAR, one element step (95_test_vectors.md L2.3) -/

/-- V-S1, V-S3, V-S4, V-S6, V-S7, V-S8, V-S9, V-S10, V-S12, V-S13, V-S15 and L1.3 with M = 10. -/
theorem test_scalar_values :
    yAfter (running .scalar [0x3F800000#32, 0x40000000#32, 0x40400000#32, 0x40800000#32]
        [0x3F000000#32, 0x3E800000#32] 1) = some 0x3FA00000#32
      ∧ yAfter (running .scalar [0x3F800000#32, 0x40000000#32, 0x40400000#32]
        [0x40800000#32, 0x40A00000#32, 0x40C00000#32] 2) = some 0x41E00000#32
      ∧ yAfter (running .scalar [0x00000000#32]
        [0xBF800000#32] 0) = some 0x00000000#32
      ∧ yAfter (running .scalar [0x7F61B1E6#32, 0x7F61B1E6#32, 0xFF61B1E6#32]
        [0x3F800000#32, 0x3F800000#32] 1) = some 0x7F800000#32
      ∧ yAfter (running .scalar [0x3F000000#32]
        [0x006CE3EE#32] 0) = some 0x003671F7#32
      ∧ yAfter (running .scalar [0x7F800000#32]
        [0x00000000#32] 0) = some 0x7FC00000#32
      ∧ yAfter (running .scalar [0x7F800000#32, 0xFF800000#32]
        [0x3F800000#32, 0x3F800000#32] 1) = some 0x7FC00000#32
      ∧ yAfter (running .scalar [0x3F800000#32]
        [0x7FA00001#32] 0) = some 0x7FC00000#32
      ∧ yAfter (running .scalar [0x3F000000#32]
        [0x00000001#32] 0) = some 0x00000000#32
      ∧ yAfter (running .scalar [0x3FC00000#32]
        [0x00000001#32] 0) = some 0x00000002#32
      ∧ yAfter (running .scalar [0x3DCCCCCD#32, 0x3DCCCCCD#32, 0x3DCCCCCD#32]
        [0x3EAAAAAB#32, 0x3EAAAAAB#32, 0x3EAAAAAB#32] 2) = some 0x3DCCCCCE#32
      ∧ scalarValue (place 0x2000 (List.replicate 10 0x3DCCCCCD#32)
        (place 0x1000 (List.replicate 10 0x3F800000#32) [])) 0x1000 0x2000 10 9 = 0x3F800001#32 := by
  decide +kernel
/-- The accesses of V-S1 for n = 1, in order, and the completion by the last element (R179, R241). -/
theorem test_scalar_trace_and_completion :
    nextIs (fun t => t.busTrace =
        [⟨.read, 0x2000⟩, ⟨.read, 0x1004⟩, ⟨.read, 0x2004⟩, ⟨.read, 0x1000⟩, ⟨.write, 0x3004⟩] && t.n = 2
          && t.outCount = 1#32)
      (engineStep (running .scalar [0x3F800000#32, 0x40000000#32, 0x40400000#32, 0x40800000#32]
        [0x3F000000#32, 0x3E800000#32] 1)) = true
    ∧ nextIs (fun t => statusWord t = 0x00000002#32 && t.outCount = 3#32 && t.irq = false)
      (engineStep (running .scalar [0x3F800000#32, 0x40000000#32, 0x40400000#32, 0x40800000#32]
        [0x3F000000#32, 0x3E800000#32] 3)) = true := by decide +kernel

/-! ### CONV_VECTOR, one step (95_test_vectors.md L2.4, L2.5) -/

/-- V-V1, V-V4, V-V7, V-V8, V-V9, V-V12. -/
theorem test_vector_values :
    yAfter (running .vector [0x3F800000#32, 0x40000000#32, 0x40400000#32, 0x40800000#32, 0x40A00000#32, 0x40C00000#32]
        [0x3F800000#32, 0x40000000#32, 0x40400000#32, 0x40800000#32, 0x40A00000#32] 4) = some 0x420C0000#32
      ∧ yAfter (running .vector [0x3F800000#32, 0xC0000000#32, 0x3F000000#32]
        [0x40400000#32] 1) = some 0xC0C00000#32
      ∧ yAfter (running .vector [0x7F800000#32, 0x3F800000#32, 0x3F800000#32, 0x3F800000#32, 0x3F800000#32, 0x3F800000#32, 0x3F800000#32, 0x3F800000#32, 0x3F800000#32]
        [0x3F800000#32, 0x40000000#32, 0x40400000#32, 0x40800000#32, 0x40A00000#32] 5) = some 0x41700000#32
      ∧ yAfter (running .vector [0x7FC12345#32, 0x3F800000#32, 0x3F800000#32, 0x3F800000#32, 0x3F800000#32, 0x3F800000#32, 0x3F800000#32, 0x3F800000#32, 0x3F800000#32]
        [0x3F800000#32, 0x40000000#32, 0x40400000#32, 0x40800000#32, 0x40A00000#32] 4) = some 0x7FC00000#32
      ∧ yAfter (running .vector [0x00000000#32]
        [0xBF800000#32] 0) = some 0x00000000#32
      ∧ yAfter (running .vector [0x7F61B1E6#32, 0x7F61B1E6#32, 0xFF61B1E6#32]
        [0x3F800000#32, 0x3F800000#32] 2) = some 0x00000000#32 := by
  decide +kernel
/-- V-V1, the accumulator and the reads for n = 4. -/
theorem test_vector_acc :
    nextIs (fun t => t.acc.toList = [0x00000000#32, 0x00000000#32, 0x00000000#32, 0x40A00000#32, 0x41000000#32,
          0x41100000#32, 0x41000000#32, 0x40A00000#32]
        && t.busTrace = [⟨.read, 0x1000⟩, ⟨.read, 0x1004⟩, ⟨.read, 0x1008⟩, ⟨.read, 0x100C⟩, ⟨.read, 0x1010⟩,
          ⟨.write, 0x3010⟩])
      (engineStep (running .vector [0x3F800000#32, 0x40000000#32, 0x40400000#32, 0x40800000#32, 0x40A00000#32,
        0x40C00000#32] [0x3F800000#32, 0x40000000#32, 0x40400000#32, 0x40800000#32, 0x40A00000#32] 4)) = true := by
  decide +kernel
/-- V-T2. -/
theorem test_reduce_T2 :
    reduceLanes #v[0x4B800000#32, 0x3F800000#32, 0x3F800000#32, 0x3F800000#32, 0x3F800000#32, 0x00000000#32,
      0x00000000#32, 0x00000000#32] = 0x4B800001#32 := by decide +kernel
/-- V-T4. -/
theorem test_reduce_T4 :
    reduceLanes #v[0x7F800000#32, 0x00000000#32, 0x00000000#32, 0x00000000#32, 0xFF800000#32, 0x00000000#32,
      0x00000000#32, 0x00000000#32] = 0x7FC00000#32 := by decide +kernel

/-- A CONV_VECTOR of five taps about to pack tap `p`. -/
def packing (p : Nat) : State :=
  { running .vector (List.replicate 9 0x3F800000#32)
      [0x3F800000#32, 0x40000000#32, 0x40400000#32, 0x40800000#32, 0x40A00000#32] 0 with
    phase := .pack, pi := p, outCount := 0#32 }

/-- V-P, M = 5: tap 4 stands in entry 3. -/
theorem test_pack_real :
    nextIs (fun t => coefAt t 3 = 0x40A00000#32 && t.pi = 5 && t.phase = .pack && t.busTrace = [⟨.read, 0x2010⟩])
      (engineStep { packing 4 with coef := Vector.replicate Config.coefDepth 0xFFFFFFFF#32 }) = true := by
  decide +kernel
/-- V-P, M = 5: tap 7 is padding in entry 0, and the phase becomes CONV at n = 4 (R194). -/
theorem test_pack_padding :
    nextIs (fun t => coefAt t 0 = 0x00000000#32 && coefAt t 1 = 0xFFFFFFFF#32 && t.phase = .conv && t.n = 4
        && t.busTrace = [])
      (engineStep { packing 7 with coef := Vector.replicate Config.coefDepth 0xFFFFFFFF#32 }) = true := by
  decide +kernel

/-! ### Memory and the bus -/

/-- R73: the element 1.0 at address a is the bytes 00 00 80 3F. -/
theorem test_little_endian :
    Memory.writeWord [] 0x100 0x3F800000#32 = [(0x102, 0x80#8), (0x103, 0x3F#8)] := by decide
/-- R242: an error response on the second tap leaves the output alone and records the address. -/
theorem test_bus_error :
    nextIs (fun t => statusWord t = 0x00000702#32 && t.errAddr = 0x00002004#32 && t.outCount = 0#32
        && t.mem.readWord 0x3004 = 0x00000000#32 && t.busTrace.length = 3)
      (engineStep { running .scalar [0x3F800000#32, 0x40000000#32, 0x40400000#32, 0x40800000#32]
        [0x3F000000#32, 0x3E800000#32] 1 with platform := { regBase := 0, busErr := [⟨.read, 0x2004⟩] } }) = true := by
  decide +kernel
/-- The bus refuses a half-word and a misaligned access (R102), and what is not in the window. -/
theorem test_bus_refusals :
    refusalOf? (step { State.reset with schedule := [.access ⟨false, 0x0C, 2, 0#32⟩] }) = some (.accessWidth 2)
      ∧ refusalOf? (step { State.reset with schedule := [.access ⟨false, 0x0D, 4, 0#32⟩] }) = some .byteOffset
      ∧ refusalOf? (step { State.reset with schedule := [.access ⟨false, 0x40, 4, 0#32⟩] }) = some (.outsideWindow 0x40) := by
  decide

/-! ### Witnesses: for each statement with hypotheses, a state and operands that meet them, clause by clause -/

/-- A running CONV_SCALAR of four samples and two taps at output index n. -/
def convS (n : Nat) : State :=
  running .scalar [0x3F800000#32, 0x40000000#32, 0x40400000#32, 0x40800000#32] [0x3F000000#32, 0x3E800000#32] n

/-- A running CONV_VECTOR of six samples and five taps at output index n, packed. -/
def convV (n : Nat) : State :=
  running .vector [0x3F800000#32, 0x40000000#32, 0x40400000#32, 0x40800000#32, 0x40A00000#32, 0x40C00000#32]
    [0x3F800000#32, 0x40000000#32, 0x40400000#32, 0x40800000#32, 0x40A00000#32] n

/-- A state in which the given accesses of the platform receive an error response. -/
def erring (xs : List MemAccess) (s : State) : State := { s with platform := { regBase := 0, busErr := xs } }

theorem witness_inv_scalar : Inv (convS 1) where
  mem_wf := by decide
  errcode_produced := by decide
  errAddr_zero := by decide
  busy_flags := by decide
  busy_checked := by decide
  pack_position := by decide
  conv_position := by decide
  held_in_reset := by decide

theorem witness_inv_vector : Inv (convV 5) where
  mem_wf := by decide
  errcode_produced := by decide
  errAddr_zero := by decide
  busy_flags := by decide
  busy_checked := by decide
  pack_position := by decide
  conv_position := by decide
  held_in_reset := by decide

theorem witness_inv_pack : Inv (packing 0) where
  mem_wf := by decide
  errcode_produced := by decide
  errAddr_zero := by decide
  busy_flags := by decide
  busy_checked := by decide
  pack_position := by decide
  conv_position := by decide
  held_in_reset := by decide

theorem witness_DecodeOfEncodeGivesTheInstruction :
    Instr.wellFormed (.wrReserved 3#2 0xFFFFFFFF#32) = true ∧ Instr.wellFormed (.wrCmd 0x00000003#32) = true := by
  decide

theorem witness_DecodedBytesAreTheEncoding :
    decode [0x7C#8, 0xFF#8, 0xFF#8, 0xFF#8, 0xFF#8] = .ok (.wrReserved 3#2 0xFFFFFFFF#32) := by decide

theorem witness_CommandWordsAreDecodedWhole :
    decodeCmd 0#32 = .illegal ∧ decodeCmd 3#32 = .illegal ∧ decodeCmd 0x11#32 = .illegal
      ∧ decodeCmd 0x80000002#32 = .illegal ∧ decodeCmd 1#32 = .scalar ∧ decodeCmd 2#32 = .vector := by decide

theorem witness_EveryWordIndexHasADefinedEffect :
    (∃ d : Byte, d.toNat < 128 ∧ d.toNat < 64 ∧ d.toNat % 4 = 0)
      ∧ (∃ d : Byte, d.toNat < 128 ∧ ¬ d.toNat < 64 ∧ d.toNat % 4 = 0)
      ∧ (∃ d : Byte, d.toNat < 128 ∧ d.toNat % 4 ≠ 0) :=
  ⟨⟨0x3C#8, by decide⟩, ⟨0x7C#8, by decide⟩, ⟨0x7F#8, by decide⟩⟩

theorem witness_StepRunsTheDecodedAccess :
    (∃ (s : State) (a : HostAccess) (rest : List Event) (frame : List Byte) (i : Instr),
      s.schedule = .access a :: rest ∧ s.inReset = false ∧ busFrame s.platform a = .ok frame ∧ decode frame = .ok i)
    ∧ (∃ (s : State) (rest : List Event) (i : Instr), i.wellFormed = true ∧ s.inReset = false ∧
      s.schedule = .access (accessOfFrame s.platform (encode i)) :: rest) :=
  ⟨⟨{ base with schedule := [.access ⟨true, 0x10, 4, 2#32⟩] }, _, [], [0x50#8, 2#8, 0#8, 0#8, 0#8], .convVector,
      rfl, rfl, by decide, by decide⟩,
    ⟨{ base with schedule := [.access (accessOfFrame base.platform (encode (.rdReserved 3#2)))] }, [],
      .rdReserved 3#2, by decide, rfl, rfl⟩⟩

theorem witness_StepGivesTheEngineItsTurn :
    (∃ (s : State) (rest : List Event), s.schedule = .engine :: rest ∧ s.inReset = false)
      ∧ (∃ (s : State) (rest : List Event), s.schedule = .engine :: rest ∧ s.inReset = true)
      ∧ (∃ s : State, s.schedule = [] ∧ s.inReset = false) ∧ (∃ s : State, s.schedule = [] ∧ s.inReset = true) :=
  ⟨⟨{ convS 1 with schedule := [.engine] }, [], rfl, rfl⟩,
    ⟨{ State.reset with inReset := true, schedule := [.engine] }, [], rfl, rfl⟩, ⟨convS 1, rfl, rfl⟩,
    ⟨{ State.reset with inReset := true }, rfl, rfl⟩⟩

theorem witness_UnsupportedAccessesAreRefused :
    (∃ (s : State) (a : HostAccess), s.schedule = [.access a] ∧ s.inReset = false
      ∧ s.platform.regBase ≤ a.addr ∧ a.addr < s.platform.regBase + 64 ∧ a.width ≠ 4)
    ∧ ∃ (s : State) (a : HostAccess), s.schedule = [.access a] ∧ s.inReset = false
      ∧ s.platform.regBase ≤ a.addr ∧ a.addr < s.platform.regBase + 64 ∧ a.width = 4
      ∧ (a.addr - s.platform.regBase) % 4 ≠ 0 :=
  ⟨⟨{ base with schedule := [.access ⟨true, 0, 1, 0#32⟩] }, ⟨true, 0, 1, 0#32⟩, by decide⟩,
    ⟨{ base with schedule := [.access ⟨false, 63, 4, 0#32⟩] }, ⟨false, 63, 4, 0#32⟩, by decide⟩⟩

theorem witness_BusReadReturnsTheRegister :
    ∃ (s u : State) (v : Word), s.inReset = false ∧ u.inReset = false
      ∧ s.schedule = [.access { write := false, addr := s.platform.regBase + 4 * 0, width := 4, data := v }]
      ∧ u.schedule = [.access { write := false, addr := u.platform.regBase + 4 * 15, width := 4, data := v }] :=
  ⟨{ base with schedule := [.access ⟨false, 0, 4, 0#32⟩] }, { base with schedule := [.access ⟨false, 60, 4, 0#32⟩] },
    0#32, by decide⟩

theorem witness_OperandRegistersReadBackAsWritten :
    ∃ (s u : State) (v w : Word), s.inReset = false ∧ u.inReset = false
      ∧ s.schedule = [.access { write := true, addr := s.platform.regBase + 4 * 5, width := 4, data := v },
          .access { write := false, addr := s.platform.regBase + 4 * 5, width := 4, data := w }]
      ∧ u.schedule = [.access { write := true, addr := u.platform.regBase + 4 * 9, width := 4, data := v },
          .access { write := false, addr := u.platform.regBase + 4 * 9, width := 4, data := w }] :=
  ⟨{ convS 1 with schedule := [.access ⟨true, 20, 4, 7#32⟩, .access ⟨false, 20, 4, 0#32⟩] },
    { convS 1 with schedule := [.access ⟨true, 36, 4, 7#32⟩, .access ⟨false, 36, 4, 0#32⟩] }, 7#32, 0#32, by decide⟩

/-- One access of another register for each clause: a read of ID changes none of them. -/
theorem witness_AccessesChangeOnlyTheirOwnState :
    ∃ t, exec (.wrXAddr 5#32) (convS 1) = .next t ∧ Instr.isRead (.wrXAddr 5#32) = false
      ∧ ∃ u, exec .rdId (convS 1) = .next u := ⟨_, rfl, rfl, _, rfl⟩

theorem witness_CommandWhileBusyIsDropped : (convS 1).phase ≠ .idle ∧ (packing 0).phase ≠ .idle := by decide

theorem witness_AcceptanceLatchesAndChecks :
    ∃ (s : State) (v : Word), s.phase = .idle ∧
      (Instr.wrCmd v = .wrCmd v ∧ Instr.convScalar = .convScalar ∧ 1#32 = 0x00000001#32
        ∧ Instr.convVector = .convVector ∧ 2#32 = 0x00000002#32) := ⟨base, 0xFFFFFFFF#32, by decide⟩

/-- The boundary values around the two commands. -/
theorem witness_IllegalCommandCompletesAtOnce :
    base.phase = .idle ∧ (0#32).toNat ≠ 1 ∧ (0#32).toNat ≠ 2 ∧ (3#32).toNat ≠ 1 ∧ (3#32).toNat ≠ 2 := by decide

/-- The premises of a command that passes its checks, as they stand in the two statements about starting. -/
def legalOperands (s : State) : Prop :=
  s.phase = .idle ∧ 1 ≤ s.mReg.toNat ∧ s.mReg.toNat ≤ s.nReg.toNat
    ∧ s.xAddr.toNat % 4 = 0 ∧ s.hAddr.toNat % 4 = 0 ∧ s.yAddr.toNat % 4 = 0
    ∧ s.xAddr.toNat + 4 * s.nReg.toNat ≤ 2 ^ 32 ∧ s.hAddr.toNat + 4 * s.mReg.toNat ≤ 2 ^ 32
    ∧ s.yAddr.toNat + 4 * s.nReg.toNat ≤ 2 ^ 32
    ∧ (s.xAddr.toNat + 4 * s.nReg.toNat ≤ s.yAddr.toNat + 4 * (s.mReg.toNat - 1)
      ∨ s.yAddr.toNat + 4 * s.nReg.toNat ≤ s.xAddr.toNat)
    ∧ (s.hAddr.toNat + 4 * s.mReg.toNat ≤ s.yAddr.toNat + 4 * (s.mReg.toNat - 1)
      ∨ s.yAddr.toNat + 4 * s.nReg.toNat ≤ s.hAddr.toNat)

/-- Ordinary operands, M = N = 1, and buffers that end at 2^32 (V-A10). -/
theorem witness_ScalarCommandStarts :
    legalOperands base ∧ legalOperands (ready 0x1000#32 0x2000#32 0x3000#32 1#32 1#32)
      ∧ legalOperands (ready 0xFFFFFFD0#32 0x2000#32 0x3000#32 12#32 5#32)
      ∧ legalOperands (ready 0x1000#32 0x2000#32 0x1020#32 12#32 5#32) := by
  unfold legalOperands; decide

/-- M = 1 and M = 256, the capacity. -/
theorem witness_VectorCommandStarts :
    ∀ s ∈ [ready 0x1000#32 0x2000#32 0x3000#32 1#32 1#32, ready 0x10000#32 0x20000#32 0x30000#32 300#32 256#32],
      legalOperands s ∧ s.mReg.toNat ≤ 256 ∧ s.injAllocFail = false := by
  unfold legalOperands; decide

theorem witness_AllocationFailsForVectorOnly :
    (∃ s t : State, s.phase = .idle ∧ exec .convVector s = .next t ∧
      check .scalar s.xAddr.toNat s.hAddr.toNat s.yAddr.toNat s.nReg.toNat s.mReg.toNat false = none ∧
      8 * ((s.mReg.toNat + 7) / 8) > 256)
    ∧ (∃ s t : State, s.phase = .idle ∧ exec .convVector s = .next t ∧
      check .scalar s.xAddr.toNat s.hAddr.toNat s.yAddr.toNat s.nReg.toNat s.mReg.toNat false = none ∧
      s.injAllocFail = true)
    ∧ (∃ s t : State, s.phase = .idle ∧ exec .convVector s = .next t ∧
      check .scalar s.xAddr.toNat s.hAddr.toNat s.yAddr.toNat s.nReg.toNat s.mReg.toNat false = none ∧
      8 * ((s.mReg.toNat + 7) / 8) ≤ 256 ∧ s.injAllocFail = false)
    ∧ (∃ s t : State, s.phase = .idle ∧ exec .convScalar s = .next t)
    ∧ (∃ s t : State, (s.phase ≠ .idle ∧ s.lOp = .scalar ∧ s.errcode = 0#4) ∧ engineStep s = .next t) :=
  ⟨⟨ready 0x10000#32 0x20000#32 0x30000#32 300#32 257#32, _, rfl, rfl, by decide, by decide⟩,
    ⟨{ base with injAllocFail := true }, _, rfl, rfl, by decide, by decide⟩,
    ⟨ready 0x10000#32 0x20000#32 0x30000#32 300#32 256#32, _, rfl, rfl, by decide, by decide, rfl⟩,
    ⟨base, _, rfl, rfl⟩,
    let ⟨t, h, _⟩ := next_of (p := fun _ => true) (o := engineStep (convS 1)) (by decide +kernel);
    ⟨convS 1, t, by decide, h⟩⟩

/-- A real tap and a padding tap. -/
theorem witness_PackStepStoresTheTapReversed :
    ∀ p ∈ [0, 4, 5, 7], (packing p).phase = .pack ∧ (packing p).lOp = .vector ∧
      ((packing p).pi < (packing p).lM.toNat →
        hElem (packing p) (packing p).pi + 4 ≤ 2 ^ 32 ∧ busErr (packing p) .read (hElem (packing p) (packing p).pi) = false) := by
  decide

/-- The first and the last element. -/
theorem witness_ScalarElementStepWritesTheSum :
    ∀ n ∈ [1, 3], (convS n).phase = .conv ∧ (convS n).lOp = .scalar ∧
      ∀ a ∈ scalarAccesses (convS n), a.addr + 4 ≤ 2 ^ 32 ∧ busErr (convS n) a.dir a.addr = false := by decide

theorem witness_VectorElementStepWritesTheReduction :
    ∀ n ∈ [4, 5], (convV n).phase = .conv ∧ (convV n).lOp = .vector ∧
      ∀ a ∈ vectorAccesses (convV n), a.addr + 4 ≤ 2 ^ 32 ∧ busErr (convV n) a.dir a.addr = false := by decide

/-- Whether an access is answered with success. -/
def succeeds (s : State) (b : MemAccess) : Prop := b.addr + 4 ≤ 2 ^ 32 ∧ busErr s b.dir b.addr = false

/-- An error on a tap, on the write of an output, and on a tap while packing. -/
theorem witness_FirstBusErrorEndsTheCommand :
    (∃ (s : State) (before after : List MemAccess) (a : MemAccess),
      (s.phase = .conv ∧ s.lOp = .scalar ∧ scalarAccesses s = before ++ a :: after)
        ∧ (∀ b ∈ before, succeeds s b) ∧ a.addr + 4 ≤ 2 ^ 32 ∧ busErr s a.dir a.addr = true)
    ∧ (∃ (s : State) (before after : List MemAccess) (a : MemAccess),
      (s.phase = .conv ∧ s.lOp = .vector ∧ vectorAccesses s = before ++ a :: after)
        ∧ (∀ b ∈ before, succeeds s b) ∧ a.addr + 4 ≤ 2 ^ 32 ∧ busErr s a.dir a.addr = true)
    ∧ (∃ (s : State) (before after : List MemAccess) (a : MemAccess),
      (s.phase = .pack ∧ s.lOp = .vector ∧ packAccesses s = before ++ a :: after)
        ∧ (∀ b ∈ before, succeeds s b) ∧ a.addr + 4 ≤ 2 ^ 32 ∧ busErr s a.dir a.addr = true) :=
  ⟨⟨erring [⟨.read, 0x2004⟩] (convS 1), [⟨.read, 0x2000⟩, ⟨.read, 0x1004⟩], [⟨.read, 0x1000⟩, ⟨.write, 0x3004⟩],
      ⟨.read, 0x2004⟩, by unfold succeeds; decide⟩,
    ⟨erring [⟨.write, 0x3010⟩] (convV 4),
      [⟨.read, 0x1000⟩, ⟨.read, 0x1004⟩, ⟨.read, 0x1008⟩, ⟨.read, 0x100C⟩, ⟨.read, 0x1010⟩], [], ⟨.write, 0x3010⟩,
      by unfold succeeds; decide⟩,
    ⟨erring [⟨.read, 0x2010⟩] (packing 4), [], [], ⟨.read, 0x2010⟩, by unfold succeeds; decide⟩⟩

/-- Both regions of reads and the write of an element are met in one step; the lanes of the first and the last block. -/
theorem witness_AccessesFollowTheArchitecturalOrder :
    0 < (convS 1).lM.toNat ∧ 8 * 0 + 7 - 7 < (convV 4).lM.toNat ∧ 8 * 0 + 7 - 3 < (convV 4).lM.toNat := by decide

theorem witness_EngineWritesOnlyTheCurrentElement :
    (∃ t, engineStep (packing 4) = .next t ∧ (packing 4).phase ≠ .conv)
      ∧ (∃ t, engineStep (convS 1) = .next t ∧
        ((convS 1).mem.wf && decide ((convS 1).phase = .conv) && decide (t.outCount ≠ (convS 1).outCount)) = true)
      ∧ (∃ t, engineStep (convV 5) = .next t ∧
        ((convV 5).mem.wf && decide ((convV 5).phase = .conv) && decide (t.outCount ≠ (convV 5).outCount)) = true)
      ∧ (∃ t, engineStep (erring [⟨.write, 0x3004⟩] (convS 1)) = .next t ∧
        decide (t.outCount = (convS 1).outCount) = true) :=
  ⟨let ⟨t, h, _⟩ := next_of (p := fun _ => true) (o := engineStep (packing 4)) (by decide +kernel);
    ⟨t, h, by decide⟩,
    next_of (p := fun t => (convS 1).mem.wf && decide ((convS 1).phase = .conv)
      && decide (t.outCount ≠ (convS 1).outCount)) (by decide +kernel),
    next_of (p := fun t => (convV 5).mem.wf && decide ((convV 5).phase = .conv)
      && decide (t.outCount ≠ (convV 5).outCount)) (by decide +kernel),
    next_of (p := fun t => decide (t.outCount = (convS 1).outCount)) (by decide +kernel)⟩

theorem witness_EngineLeavesTheHostsRegisters :
    (∃ t, engineStep (convS 1) = .next t) ∧ (∃ t, engineStep (convV 4) = .next t)
      ∧ (convS 1).phase ≠ .pack ∧ (convS 1).lOp = .scalar ∧ (convV 4).lOp = .vector :=
  ⟨let ⟨t, h, _⟩ := next_of (p := fun _ => true) (o := engineStep (convS 1)) (by decide +kernel); ⟨t, h⟩,
    let ⟨t, h, _⟩ := next_of (p := fun _ => true) (o := engineStep (convV 4)) (by decide +kernel); ⟨t, h⟩,
    by decide⟩

/-- The access of the step is a real one, in each phase. -/
theorem witness_EngineAccessesStayInTheRegions :
    (Inv (packing 0) ∧ ∃ t, engineStep (packing 0) = .next t ∧ decide (t.busTrace = [⟨.read, 0x2000⟩]) = true)
      ∧ Inv (convV 5) ∧ ∃ t, engineStep (convV 5) = .next t ∧ decide (t.busTrace.length = 6) = true :=
  ⟨⟨witness_inv_pack, next_of (p := fun t => decide (t.busTrace = [⟨.read, 0x2000⟩])) (by decide +kernel)⟩,
    witness_inv_vector, next_of (p := fun t => decide (t.busTrace.length = 6)) (by decide +kernel)⟩

theorem witness_EngineAlwaysMakesProgress :
    (Inv (convS 1) ∧ (convS 1).busy = true) ∧ Inv (packing 0) ∧ (packing 0).busy = true :=
  ⟨⟨witness_inv_scalar, by decide⟩, witness_inv_pack, by decide⟩

/-- Program P1's operands, the host's CMD write and the engine's eight turns (95_test_vectors.md L2.2). -/
theorem witness_ScalarCommandComputesTheConvolution :
    ∃ (s : State) (rest : List Event), s.phase = .idle ∧ s.inReset = false ∧ s.mem.wf = true ∧ NoBusErrors s ∧
      s.schedule = .access (accessOfFrame s.platform (encode .convScalar))
        :: (List.replicate (s.nReg.toNat - s.mReg.toNat + 1) .engine ++ rest) ∧
      check .scalar s.xAddr.toNat s.hAddr.toNat s.yAddr.toNat s.nReg.toNat s.mReg.toNat s.injAllocFail = none :=
  ⟨{ base with
      schedule := .access ⟨true, 0x10, 4, 1#32⟩ :: (List.replicate 8 .engine ++ [.hostLoad 0x3010])
      mem := place 0x1000 [0x3F800000#32] [] },
    [.hostLoad 0x3010], rfl, rfl, by decide, fun _ _ => rfl, by decide, by decide⟩

/-- The same with eight turns for the pack steps of five taps. -/
theorem witness_VectorCommandComputesTheConvolution :
    ∃ (s : State) (rest : List Event), s.phase = .idle ∧ s.inReset = false ∧ s.mem.wf = true ∧ NoBusErrors s ∧
      s.schedule = .access (accessOfFrame s.platform (encode .convVector))
        :: (List.replicate (8 * ((s.mReg.toNat + 7) / 8) + (s.nReg.toNat - s.mReg.toNat + 1)) .engine ++ rest) ∧
      check .vector s.xAddr.toNat s.hAddr.toNat s.yAddr.toNat s.nReg.toNat s.mReg.toNat s.injAllocFail = none :=
  ⟨{ base with
      schedule := .access ⟨true, 0x10, 4, 2#32⟩ :: (List.replicate 16 .engine ++ [.hostLoad 0x3010])
      mem := place 0x1000 [0x3F800000#32] [] },
    [.hostLoad 0x3010], rfl, rfl, by decide, fun _ _ => rfl, by decide, by decide⟩

/-- Eight pack steps and five elements, with a bus error on the way. -/
theorem witness_EveryRunningCommandCompletes :
    ∃ s : State, Inv s ∧ s.busy = true ∧ s.schedule = List.replicate (stepsLeft s) .engine ++ []
      ∧ busErr s .read 0x2010 = true := by
  have hi := witness_inv_pack
  refine ⟨{ packing 0 with
    schedule := List.replicate 13 .engine, platform := { regBase := 0, busErr := [⟨.read, 0x2010⟩] } },
    ⟨hi.mem_wf, hi.errcode_produced, hi.errAddr_zero, hi.busy_flags, hi.busy_checked, hi.pack_position,
      hi.conv_position, by decide⟩, by decide, by decide, by decide⟩

/-- Whether the premises of the statement about reset hold for a command, a number of turns and what follows. -/
def resetPremises (s : State) (i : Instr) (op : Op) (packs turns : Nat) (rest : List Event) : Prop :=
  (i = .convScalar ∧ op = .scalar ∧ packs = 0 ∨ i = .convVector ∧ op = .vector ∧ packs = 8 * ((s.mReg.toNat + 7) / 8)) ∧
    s.phase = .idle ∧ s.inReset = false ∧ s.mem.wf = true ∧
    check op s.xAddr.toNat s.hAddr.toNat s.yAddr.toNat s.nReg.toNat s.mReg.toNat s.injAllocFail = none ∧
    turns ≤ packs + (s.nReg.toNat - s.mReg.toNat + 1) ∧
    s.schedule =
      .access (accessOfFrame s.platform (encode i)) :: (List.replicate turns .engine ++ .resetAssert :: rest)

/-- The operands of P1, a CMD word, a number of engine turns and a reset. -/
def resetAfter (v : Word) (turns : Nat) : State :=
  { base with schedule := .access ⟨true, 0x10, 4, v⟩ :: (List.replicate turns .engine ++ [.resetAssert]) }

/-- Reset before the first and after the last element of each command, and at the end of PACK. -/
theorem witness_ResetLeavesAPrefixWritten :
    (NoBusErrors (resetAfter 1#32 0) ∧ resetPremises (resetAfter 1#32 0) .convScalar .scalar 0 0 [])
      ∧ resetPremises (resetAfter 1#32 8) .convScalar .scalar 0 8 []
      ∧ (NoBusErrors (resetAfter 2#32 0) ∧ resetPremises (resetAfter 2#32 0) .convVector .vector 8 0 [])
      ∧ resetPremises (resetAfter 2#32 8) .convVector .vector 8 8 []
      ∧ resetPremises (resetAfter 2#32 16) .convVector .vector 8 16 [] :=
  ⟨⟨fun _ _ => rfl, by unfold resetPremises; decide⟩, by unfold resetPremises; decide,
    ⟨fun _ _ => rfl, by unfold resetPremises; decide⟩, by unfold resetPremises; decide, by unfold resetPremises; decide⟩

/-- A busy state, not the one after reset, under each agent's step. -/
theorem witness_StepKeepsTheInvariant :
    (∃ t, Inv (convS 1) ∧ step (convS 1) = .next t) ∧ (∃ t, Inv (packing 0) ∧ step (packing 0) = .next t) :=
  ⟨let ⟨t, h, _⟩ := next_of (p := fun _ => true) (o := step (convS 1)) (by decide +kernel);
    ⟨t, witness_inv_scalar, h⟩,
    let ⟨t, h, _⟩ := next_of (p := fun _ => true) (o := step (packing 0)) (by decide +kernel);
    ⟨t, witness_inv_pack, h⟩⟩

/-- All eight entries of a packed block stand in their slots. -/
theorem witness_StepKeepsThePackedTaps :
    packedTaps (convV 5) = 8 ∧ Inv (convV 5) ∧ CoefHoldsTaps (convV 5) ∧ ∃ t, step (convV 5) = .next t :=
  ⟨by decide, witness_inv_vector, by unfold CoefHoldsTaps; decide +kernel,
    let ⟨t, h, _⟩ := next_of (p := fun _ => true) (o := step (convV 5)) (by decide +kernel); ⟨t, h⟩⟩

/-- A completion of the running command, reset of one, and a command that fails its checks. -/
theorem witness_OnlyCompletionsEndCommands :
    (∃ t, step (convS 3) = .next t ∧ ((convS 3).busy && !t.busy && !(convS 3).done && t.done) = true)
      ∧ (∃ t, step { convS 1 with schedule := [.resetAssert] } = .next t ∧ ((convS 1).busy && !t.busy) = true)
      ∧ (∃ t, step { base with schedule := [.access ⟨true, 0x10, 4, 0#32⟩] } = .next t
        ∧ (!base.done && t.done) = true) :=
  ⟨next_of (p := fun t => (convS 3).busy && !t.busy && !(convS 3).done && t.done) (by decide +kernel),
    next_of (p := fun t => (convS 1).busy && !t.busy) (by decide),
    next_of (p := fun t => !base.done && t.done) (by decide)⟩

theorem witness_IdleIsLeftByAcceptanceOnly :
    base.phase = .idle ∧ ∃ t, step { base with schedule := [.access ⟨true, 0x10, 4, 2#32⟩] } = .next t
      ∧ decide (t.phase ≠ .idle) = true :=
  ⟨rfl, next_of (p := fun t => decide (t.phase ≠ .idle)) (by decide)⟩

theorem witness_OnlyStoresChangeMemory :
    ∃ (s t : State) (e : Event) (rest : List Event),
      s.schedule = e :: rest ∧ step s = .next t ∧ e ≠ .engine ∧ ∀ a b, e ≠ .hostStore a b :=
  ⟨{ convS 1 with schedule := [.resetAssert] }, _, .resetAssert, [], rfl, rfl, by decide, by simp⟩

theorem witness_InterruptFollowsCompletion :
    (∃ t, engineStep { convS 3 with irqEn := true } = .next t ∧ ((convS 3).busy && !t.busy) = true)
      ∧ (∃ t, exec (.wrStatus 2#32) { base with done := true, irqEn := true } = .next t ∧ (2#32).toNat / 2 % 2 = 1)
      ∧ (∃ t, exec .convScalar base = .next t ∧ (!base.busy && t.busy) = true)
      ∧ (∃ s t : State, s.schedule = [.resetAssert] ∧ step s = .next t)
      ∧ (∃ s t : State, s.schedule = [.resetRelease] ∧ step s = .next t)
      ∧ (∃ t, exec (.wrCtrl 0#32) { base with done := true, irqEn := true } = .next t ∧ (0#32).toNat % 2 = 0) :=
  ⟨next_of (p := fun t => (convS 3).busy && !t.busy) (by decide +kernel), ⟨_, rfl, by decide⟩,
    next_of (p := fun t => !base.busy && t.busy) (by decide),
    ⟨{ convS 1 with schedule := [.resetAssert] }, _, rfl, rfl⟩,
    ⟨{ convS 1 with schedule := [.resetRelease] }, _, rfl, rfl⟩, ⟨_, rfl, by decide⟩⟩

theorem witness_EngineIgnoresTheHostsWrites :
    ∃ t u : State, (convS 1).busy = true ∧ t.busy = true ∧ engineStep (convS 1) = .next t
      ∧ exec (.wrXAddr 0x5000#32) (convS 1) = .next u :=
  let ⟨t, h, b⟩ := next_of (p := fun t => t.busy) (o := engineStep (convS 1)) (by decide +kernel);
  ⟨t, _, by decide, b, h, rfl⟩

theorem witness_ResetEdgesRestoreTheResetValues :
    ∀ b : Bool, ∃ s : State, s.schedule = (if b then .resetAssert else .resetRelease) :: [] :=
  fun b => ⟨{ convS 1 with schedule := [if b then .resetAssert else .resetRelease] }, rfl⟩

/-- The first and last bytes of the signal, the filter and the pending output, and the bytes beside them. -/
theorem witness_HostDutyBreachesAreRefused :
    (∀ a ∈ [0x1000, 0x100F, 0x2000, 0x2007], inRunningInput (convS 1) a = true)
      ∧ (∀ a ∈ [0x3004, 0x300F], inRunningInput (convS 1) a = false ∧ inPendingOutput (convS 1) a = true)
      ∧ (∀ a ∈ [0, 0xFFF, 0x1010, 0x2008, 0x3000, 0x3003, 0x3010, 2 ^ 32 - 1],
        inRunningInput (convS 1) a = false ∧ inPendingOutput (convS 1) a = false)
      ∧ inPendingOutput { convS 2 with outCount := 1#32 } 0x3004 = false
      ∧ (∃ s : State, s.schedule = [.hostStore 0x1000 1#8] ∧ s.phase ≠ .idle)
      ∧ (∃ s : State, s.schedule = [.hostLoad 0x300F] ∧ s.phase ≠ .idle)
      ∧ (∃ (s : State) (b : HostAccess), s.schedule = [.access b] ∧ s.inReset = true) :=
  ⟨by decide, by decide, by decide, by decide,
    ⟨{ convS 1 with schedule := [.hostStore 0x1000 1#8] }, rfl, by decide⟩,
    ⟨{ convS 1 with schedule := [.hostLoad 0x300F] }, rfl, by decide⟩,
    ⟨{ State.reset with inReset := true, schedule := [.access ⟨false, 0, 4, 0#32⟩] }, ⟨false, 0, 4, 0#32⟩, rfl, rfl⟩⟩

theorem witness_AdditionSpecialCases :
    f32IsNaN 0x7F800001#32 = true ∧ f32IsNaN (f32Add 0x7F800000#32 0xFF800000#32) = true
      ∧ (f32IsInf 0xFF800000#32 = true ∧ f32IsNaN 0x7F7FFFFF#32 = false ∧ f32IsInf 0x7F7FFFFF#32 = false)
      ∧ (f32Expo 0x80000000#32 < 255 ∧ f32Val 0x80000000#32 + f32Val 0x80000000#32 = 0)
      ∧ (f32Expo 0xFF7FFFFF#32 < 255 ∧ f32Val 0x7F7FFFFF#32 + f32Val 0xFF7FFFFF#32 = 0) := by decide +kernel

theorem witness_MultiplicationSpecialCases :
    f32IsNaN 0xFFFFFFFF#32 = true ∧ f32IsNaN (f32Mul 0x7F800000#32 0x80000000#32) = true
      ∧ (f32IsInf 0x7F800000#32 = true ∧ f32Expo 0x80000000#32 < 255 ∧ f32Mag 0x80000000#32 = 0)
      ∧ (f32IsInf 0xFF800000#32 = true ∧ f32IsNaN 0x80000001#32 = false ∧ f32Mag 0x80000001#32 ≠ 0)
      ∧ (f32IsNaN 0x7F800000#32 = false ∧ f32Mag 0x7F800000#32 ≠ 0)
      ∧ f32IsNaN (f32Mul 0x80000000#32 0x3F800000#32) = false := by decide +kernel

/-- 1 + 2^-24 lies midway between 1 and 1 + 2^-23: the tie clause is met as well. The largest finite value and half of its
last place (0x73000000) are at the threshold, with the value before that (0x72FFFFFF) below it. -/
theorem witness_FiniteSumsAreRoundedToNearestEven :
    (∃ a b c : Word, f32Expo a < 255 ∧ f32Expo b < 255 ∧ f32Expo c < 255 ∧
      |f32Val a + f32Val b| < (2 ^ 25 - 1) * 2 ^ 252 ∧
      |f32Val (f32Add a b) - (f32Val a + f32Val b)| = |f32Val c - (f32Val a + f32Val b)| ∧ c ≠ f32Add a b)
    ∧ (f32Expo 0xFF7FFFFF#32 < 255 ∧ f32Expo 0xF3000000#32 < 255
      ∧ |f32Val 0xFF7FFFFF#32 + f32Val 0xF3000000#32| = (2 ^ 25 - 1) * 2 ^ 252)
    ∧ (f32Expo 0x7F7FFFFF#32 < 255 ∧ f32Expo 0x72FFFFFF#32 < 255
      ∧ |f32Val 0x7F7FFFFF#32 + f32Val 0x72FFFFFF#32| < (2 ^ 25 - 1) * 2 ^ 252) :=
  ⟨⟨0x3F800000#32, 0x33800000#32, 0x3F800001#32, by decide +kernel⟩, by decide +kernel, by decide +kernel⟩

/-- 1.5 times the least subnormal lies midway between it and its double (V-S13). 2^64 times -2^64 is past the threshold, the
largest finite value times 1.0 below it. -/
theorem witness_FiniteProductsAreRoundedToNearestEven :
    (∃ a b c : Word, f32Expo a < 255 ∧ f32Expo b < 255 ∧ f32Expo c < 255 ∧
      |f32Val a * f32Val b| < (2 ^ 25 - 1) * 2 ^ 401 ∧
      |f32Val (f32Mul a b) * 2 ^ 149 - f32Val a * f32Val b| = |f32Val c * 2 ^ 149 - f32Val a * f32Val b|
      ∧ c ≠ f32Mul a b)
    ∧ (f32Expo 0x5F800000#32 < 255 ∧ f32Expo 0xDF800000#32 < 255
      ∧ (2 ^ 25 - 1) * 2 ^ 401 ≤ |f32Val 0x5F800000#32 * f32Val 0xDF800000#32|)
    ∧ |f32Val 0x7F7FFFFF#32 * f32Val 0x3F800000#32| < (2 ^ 25 - 1) * 2 ^ 401 :=
  ⟨⟨0x3FC00000#32, 0x00000001#32, 0x00000001#32, by decide +kernel⟩, by decide +kernel, by decide +kernel⟩

/-- A NaN tap, the last one, and a NaN sample. -/
theorem witness_NaNReachesTheOutput :
    (4 < 5 ∧ f32IsNaN (Memory.readWord (place 0x2010 [0x7FC12345#32] []) (0x2000 + 4 * 4)) = true)
      ∧ (0 < 5 ∧ f32IsNaN (Memory.readWord (place 0x1010 [0x7FA00001#32] []) (0x1000 + 4 * (4 - 0))) = true) := by
  decide

theorem witness_PaddedLanesContributeNothing :
    (0xFF800000#32 ≠ 0x80000000#32 ∧ f32IsNaN 0xFF800000#32 = false ∧ f32Expo 0xFF7FFFFF#32 < 255)
      ∧ (0x00000000#32 ≠ 0x80000000#32 ∧ f32IsNaN 0x00000000#32 = false)
      ∧ (0x7FC00000#32 ≠ 0x80000000#32 ∧ f32IsNaN 0x7FC00000#32 = true) := by decide +kernel

theorem witness_EveryTapHasItsLane : slot 7 = 0 ∧ slot 0 = 7 ∧ slot 8 = 15 ∧ tapOf 1 7 = 8 := by decide

end Sys2Proof.Tests
end

/-! PROOFS. The binary32 operations (00_scope.md R12 to R14): an equation per kind of operands, commutativity, the
special cases, and the rounding to nearest even. -/

namespace Sys2Proof.Machine

/-! ### Kinds of patterns and their values -/

/-- A pattern is a NaN, an infinity or finite (R12). -/
theorem f32_nan_or_inf_or_finite (w : Word) : f32IsNaN w = true ∨ f32IsInf w = true ∨ f32Expo w < 255 := by
  have := f32Expo_lt w
  rw [f32IsNaN_iff, f32IsInf_iff]
  omega

theorem f32IsInf_not_nan {w : Word} (h : f32IsInf w = true) : f32IsNaN w = false := by
  simp [f32IsNaN, ((f32IsInf_iff w).1 h).2]

theorem f32IsInf_mag_ne_zero {w : Word} (h : f32IsInf w = true) : f32Mag w ≠ 0 := by
  simp [f32Mag_eq_zero, ((f32IsInf_iff w).1 h).1]

/-- Infinities of one sign are one pattern. -/
theorem f32IsInf_ext {a b : Word} (ha : f32IsInf a = true) (hb : f32IsInf b = true) (hs : f32Sign a = f32Sign b) :
    a = b := by
  obtain ⟨hea, hfa⟩ := (f32IsInf_iff a).1 ha
  obtain ⟨heb, hfb⟩ := (f32IsInf_iff b).1 hb
  exact f32_ext hs (hea.trans heb.symm) (hfa.trans hfb.symm)

theorem f32IsInf_f32Inf (neg : Bool) : f32IsInf (f32Inf neg) = true := by cases neg <;> decide

theorem f32Sign_f32Inf (neg : Bool) : f32Sign (f32Inf neg) = neg := by cases neg <;> decide

/-- -0.0 is the only pattern of negative sign and magnitude zero. -/
theorem eq_negZero_iff (w : Word) : w = 0x80000000#32 ↔ f32Sign w = true ∧ f32Mag w = 0 := by
  refine ⟨by rintro rfl; decide, fun ⟨hs, hm⟩ => ?_⟩
  obtain ⟨he, hf⟩ := (f32Mag_eq_zero w).1 hm
  exact f32_ext (hs.trans (by decide)) (he.trans (by decide)) (hf.trans (by decide))

theorem f32Val_of_neg {w : Word} (h : f32Sign w = true) : f32Val w = -(f32Mag w : Int) := by simp [f32Val, h]

theorem f32Val_of_pos {w : Word} (h : f32Sign w = false) : f32Val w = f32Mag w := by simp [f32Val, h]

/-! ### f32_add, by the kinds of its operands -/

theorem f32Add_of_nan {a b : Word} (h : f32IsNaN a = true ∨ f32IsNaN b = true) : f32Add a b = f32NaN := by
  simp [f32Add, h]

theorem f32Add_of_inf_inf {a b : Word} (ha : f32IsInf a = true) (hb : f32IsInf b = true) :
    f32Add a b = if f32Sign a = f32Sign b then a else f32NaN := by
  by_cases hs : f32Sign a = f32Sign b <;> simp [f32Add, ha, hb, f32IsInf_not_nan, hs]

theorem f32Add_of_inf_finite {a b : Word} (ha : f32IsInf a = true) (hb : f32Expo b < 255) : f32Add a b = a := by
  simp [f32Add, ha, f32IsInf_not_nan, f32_finite hb]

theorem f32Add_of_finite_inf {a b : Word} (ha : f32Expo a < 255) (hb : f32IsInf b = true) : f32Add a b = b := by
  simp [f32Add, hb, f32IsInf_not_nan, f32_finite ha]

theorem f32Add_of_zero_sum {a b : Word} (ha : f32Expo a < 255) (hb : f32Expo b < 255) (h0 : f32Val a + f32Val b = 0) :
    f32Add a b = if f32Sign a && f32Sign b then 0x80000000#32 else 0x00000000#32 := by
  simp [f32Add, f32_finite ha, f32_finite hb, h0]

theorem f32Add_of_nonzero_sum {a b : Word} (ha : f32Expo a < 255) (hb : f32Expo b < 255)
    (h0 : f32Val a + f32Val b ≠ 0) :
    f32Add a b = f32Round (decide (f32Val a + f32Val b < 0)) (f32Val a + f32Val b).natAbs 0 := by
  simp [f32Add, f32_finite ha, f32_finite hb, h0]

theorem f32Add_comm_of_finite {a b : Word} (ha : f32Expo a < 255) (hb : f32Expo b < 255) :
    f32Add a b = f32Add b a := by
  have hsum : f32Val a + f32Val b = f32Val b + f32Val a := Int.add_comm ..
  by_cases h0 : f32Val a + f32Val b = 0
  · rw [f32Add_of_zero_sum ha hb h0, f32Add_of_zero_sum hb ha (hsum ▸ h0), Bool.and_comm]
  · rw [f32Add_of_nonzero_sum ha hb h0, f32Add_of_nonzero_sum hb ha (hsum ▸ h0), hsum]

theorem f32Add_comm (a b : Word) : f32Add a b = f32Add b a := by
  rcases f32_nan_or_inf_or_finite a with ha | ha | ha
  · rw [f32Add_of_nan (.inl ha), f32Add_of_nan (.inr ha)]
  · rcases f32_nan_or_inf_or_finite b with hb | hb | hb
    · rw [f32Add_of_nan (.inl hb), f32Add_of_nan (.inr hb)]
    · rw [f32Add_of_inf_inf ha hb, f32Add_of_inf_inf hb ha]
      by_cases hs : f32Sign a = f32Sign b
      · rw [f32IsInf_ext ha hb hs]
      · rw [if_neg hs, if_neg (Ne.symm hs)]
    · rw [f32Add_of_inf_finite ha hb, f32Add_of_finite_inf hb ha]
  · rcases f32_nan_or_inf_or_finite b with hb | hb | hb
    · rw [f32Add_of_nan (.inl hb), f32Add_of_nan (.inr hb)]
    · rw [f32Add_of_inf_finite hb ha, f32Add_of_finite_inf ha hb]
    · exact f32Add_comm_of_finite ha hb

/-- An exact zero sum is +0.0 but for two negative zeros (R14). -/
theorem f32Add_zero_sum_eq {a b : Word} (ha : f32Expo a < 255) (hb : f32Expo b < 255) (h0 : f32Val a + f32Val b = 0) :
    f32Add a b = if a = 0x80000000#32 ∧ b = 0x80000000#32 then 0x80000000#32 else 0x00000000#32 := by
  have hzeros : (f32Sign a && f32Sign b) = true ↔ a = 0x80000000#32 ∧ b = 0x80000000#32 := by
    rw [Bool.and_eq_true, eq_negZero_iff, eq_negZero_iff]
    refine ⟨fun ⟨hsa, hsb⟩ => ?_, fun ⟨hza, hzb⟩ => ⟨hza.1, hzb.1⟩⟩
    rw [f32Val_of_neg hsa, f32Val_of_neg hsb] at h0
    exact ⟨⟨hsa, by omega⟩, ⟨hsb, by omega⟩⟩
  rw [f32Add_of_zero_sum ha hb h0]
  exact if_congr hzeros rfl rfl

/-- A sum of finite values is no NaN: it is a zero or a rounded value. -/
theorem f32Add_not_nan_of_finite {a b : Word} (ha : f32Expo a < 255) (hb : f32Expo b < 255) :
    f32IsNaN (f32Add a b) = false := by
  by_cases h0 : f32Val a + f32Val b = 0
  · rw [f32Add_of_zero_sum ha hb h0]
    split <;> decide
  · rw [f32Add_of_nonzero_sum ha hb h0]
    exact f32Round_not_nan ..

/-- A NaN sum is the canonical NaN: infinities and finite sums are no NaN (R14). -/
theorem f32Add_eq_nan {a b : Word} (h : f32IsNaN (f32Add a b) = true) : f32Add a b = f32NaN := by
  rcases f32_nan_or_inf_or_finite a with ha | ha | ha
  · exact f32Add_of_nan (.inl ha)
  · rcases f32_nan_or_inf_or_finite b with hb | hb | hb
    · exact f32Add_of_nan (.inr hb)
    · rw [f32Add_of_inf_inf ha hb] at h ⊢
      by_cases hs : f32Sign a = f32Sign b
      · simp [hs, f32IsInf_not_nan ha] at h
      · rw [if_neg hs]
    · simp [f32Add_of_inf_finite ha hb, f32IsInf_not_nan ha] at h
  · rcases f32_nan_or_inf_or_finite b with hb | hb | hb
    · exact f32Add_of_nan (.inr hb)
    · simp [f32Add_of_finite_inf ha hb, f32IsInf_not_nan hb] at h
    · simp [f32Add_not_nan_of_finite ha hb] at h

/-! ### f32_mul, by the kinds of its operands -/

theorem f32Mul_of_nan {a b : Word} (h : f32IsNaN a = true ∨ f32IsNaN b = true) : f32Mul a b = f32NaN := by
  simp [f32Mul, h]

theorem f32Mul_of_inf_left {a b : Word} (ha : f32IsInf a = true) (hb : f32IsNaN b = false) :
    f32Mul a b = if f32Mag b = 0 then f32NaN else f32Inf (f32Sign a != f32Sign b) := by
  simp [f32Mul, ha, hb, f32IsInf_not_nan, f32IsInf_mag_ne_zero]

theorem f32Mul_of_finite {a b : Word} (ha : f32Expo a < 255) (hb : f32Expo b < 255) :
    f32Mul a b = f32Round (f32Sign a != f32Sign b) (f32Mag a * f32Mag b) 149 := by
  simp [f32Mul, f32_finite ha, f32_finite hb]

theorem f32Mul_comm (a b : Word) : f32Mul a b = f32Mul b a := by
  unfold f32Mul
  simp only [Bool.or_comm (f32IsNaN a), Bool.or_comm (f32IsInf a), or_comm (a := f32Mag a = 0),
    bne_comm (a := f32Sign a), Nat.mul_comm (f32Mag a)]

/-- A product is the canonical NaN, an infinity or a rounded value, the last two with the exclusive-or of the signs
(R13). -/
theorem f32Mul_cases (a b : Word) :
    f32Mul a b = f32NaN ∨ f32Mul a b = f32Inf (f32Sign a != f32Sign b)
      ∨ f32Mul a b = f32Round (f32Sign a != f32Sign b) (f32Mag a * f32Mag b) 149 := by
  unfold f32Mul
  split
  · exact .inl rfl
  · split
    · split
      · exact .inl rfl
      · exact .inr (.inl rfl)
    · exact .inr (.inr rfl)

/-- A NaN product is the canonical NaN (R13). -/
theorem f32Mul_eq_nan {a b : Word} (h : f32IsNaN (f32Mul a b) = true) : f32Mul a b = f32NaN := by
  rcases f32Mul_cases a b with hc | hc | hc
  · exact hc
  · simp [hc, f32IsInf_not_nan (f32IsInf_f32Inf _)] at h
  · simp [hc, f32Round_not_nan] at h

/-- Every product but NaN has the exclusive-or of the signs (R13). -/
theorem f32Mul_sign {a b : Word} (h : f32IsNaN (f32Mul a b) = false) :
    f32Sign (f32Mul a b) = (f32Sign a != f32Sign b) := by
  rcases f32Mul_cases a b with hc | hc | hc
  · rw [hc] at h
    exact absurd h (by decide)
  · rw [hc, f32Sign_f32Inf]
  · rw [hc, f32Round_sign]

theorem f32Mul_inf_zero {a b : Word} (ha : f32IsInf a = true) (hb : f32Expo b < 255) (h0 : f32Mag b = 0) :
    f32Mul a b = f32NaN := by
  rw [f32Mul_of_inf_left ha (f32_finite hb).1, if_pos h0]

theorem f32Mul_inf_nonzero {a b : Word} (ha : f32IsInf a = true) (hb : f32IsNaN b = false) (h0 : f32Mag b ≠ 0) :
    f32Mul a b = if f32Sign a = f32Sign b then 0x7F800000#32 else 0xFF800000#32 := by
  rw [f32Mul_of_inf_left ha hb, if_neg h0]
  by_cases hs : f32Sign a = f32Sign b <;> simp [f32Inf, hs]

/-! ### Rounding to nearest, ties to even -/

/-- `neg` is the sign of x; a zero x may have either. -/
def SignOf (neg : Bool) (x : Int) : Prop := (x < 0 → neg = true) ∧ (0 < x → neg = false)

/-- r is a finite pattern nearest to x · 2^-(149 + scale): no finite value lies closer, and one that lies as close has
r's value or the significand of r is even. -/
def RoundsToNearestEven (r : Word) (x : Int) (scale : Nat) : Prop :=
  f32Expo r < 255 ∧ ∀ c : Word, f32Expo c < 255 →
    |f32Val r * 2 ^ scale - x| ≤ |f32Val c * 2 ^ scale - x|
      ∧ (|f32Val r * 2 ^ scale - x| = |f32Val c * 2 ^ scale - x| → f32Val c = f32Val r ∨ f32Frac r % 2 = 0)

theorem signOf_decide (x : Int) : SignOf (decide (x < 0)) x :=
  ⟨decide_eq_true, fun h => decide_eq_false h.not_gt⟩

theorem signOf_f32Sign (w : Word) : SignOf (f32Sign w) (f32Val w) := by
  cases h : f32Sign w
  · rw [f32Val_of_pos h]
    exact ⟨fun _ => by omega, fun _ => rfl⟩
  · rw [f32Val_of_neg h]
    exact ⟨fun _ => rfl, fun _ => by omega⟩

/-- The exclusive-or of two signs is the sign of the product. -/
theorem signOf_mul (a b : Word) : SignOf (f32Sign a != f32Sign b) (f32Val a * f32Val b) := by
  obtain ⟨hna, hpa⟩ := signOf_f32Sign a
  obtain ⟨hnb, hpb⟩ := signOf_f32Sign b
  constructor
  · intro h
    rcases mul_neg_iff.1 h with ⟨ha, hb⟩ | ⟨ha, hb⟩
    · rw [hpa ha, hnb hb]; rfl
    · rw [hna ha, hpb hb]; rfl
  · intro h
    rcases mul_pos_iff.1 h with ⟨ha, hb⟩ | ⟨ha, hb⟩
    · rw [hpa ha, hpb hb]; rfl
    · rw [hna ha, hnb hb]; rfl

/-- The distance of a value to x is at least that of the magnitudes. -/
theorem abs_mag_sub_natAbs_le (c : Word) (x : Int) (scale : Nat) :
    |((f32Mag c * 2 ^ scale : Nat) : Int) - x.natAbs| ≤ |f32Val c * 2 ^ scale - x| := by
  have h := abs_abs_sub_abs_le_abs_sub (f32Val c * 2 ^ scale) x
  rw [← f32Val_natAbs]
  simpa [abs_mul] using h

/-- The distance of a value of the sign of x to x is that of the magnitudes. -/
theorem abs_val_sub_eq {c : Word} {x : Int} (hs : SignOf (f32Sign c) x) (scale : Nat) :
    |f32Val c * 2 ^ scale - x| = |((f32Mag c * 2 ^ scale : Nat) : Int) - x.natAbs| := by
  obtain ⟨hn, hp⟩ := hs
  cases h : f32Sign c
  · have hx : 0 ≤ x := not_lt.1 fun hlt => by simpa [h] using hn hlt
    rw [f32Val_of_pos h, Int.natAbs_of_nonneg hx]
    push_cast
    rfl
  · have hx : x ≤ 0 := not_lt.1 fun hlt => by simpa [h] using hp hlt
    rw [f32Val_of_neg h, Int.ofNat_natAbs_of_nonpos hx, ← abs_neg]
    push_cast
    ring_nf

/-- Opposite values are equally near to x only when they are zeros or x is zero. -/
theorem f32Val_eq_of_mag_eq {r c : Word} {x : Int} {scale : Nat} (hm : f32Mag c = f32Mag r)
    (hd : |f32Val r * 2 ^ scale - x| = |f32Val c * 2 ^ scale - x|) (hx : x = 0 → f32Mag r = 0) :
    f32Val c = f32Val r := by
  have habs : |f32Val c| = |f32Val r| := by rw [Int.abs_eq_natAbs, Int.abs_eq_natAbs, f32Val_natAbs, f32Val_natAbs, hm]
  rcases abs_eq_abs.1 habs with hc | hc
  · exact hc
  · have hz : f32Val r = 0 := by
      rw [hc] at hd
      rcases abs_eq_abs.1 hd with h | h
      · have hr : f32Val r * 2 ^ scale = 0 := by linarith
        exact (mul_eq_zero.1 hr).resolve_right (by positivity)
      · exact Int.natAbs_eq_zero.1 ((f32Val_natAbs r).trans (hx (by linarith)))
    rw [hc, hz, neg_zero]

theorem f32Round_zero_mag {neg : Bool} {scale : Nat} (h : f32Expo (f32Round neg 0 scale) < 255) :
    f32Mag (f32Round neg 0 scale) = 0 := by
  rw [(f32Round_mag h).1]
  simp [roundQuot]

/-- The overflow threshold of `infinite_le_roundBits_iff` for the magnitude of an exact result. -/
theorem threshold_le_natAbs_iff (x : Int) (e : Nat) :
    (2 ^ 25 - 1) * 2 ^ e ≤ x.natAbs ↔ (2 ^ 25 - 1) * 2 ^ e ≤ |x| := by
  rw [Int.abs_eq_natAbs, ← Nat.cast_le (α := Int)]
  norm_num

/-- Below the overflow threshold `f32Round` rounds to nearest, ties to even (R13, R14). Towards a value of either sign
the distances are at least those of the magnitudes, among which the rounded one is nearest. -/
theorem f32Round_nearest {neg : Bool} {x : Int} {scale e : Nat} (hs : SignOf neg x)
    (he : 252 + scale = e) (hx : |x| < (2 ^ 25 - 1) * 2 ^ e) :
    RoundsToNearestEven (f32Round neg x.natAbs scale) x scale := by
  have hfin : f32Expo (f32Round neg x.natAbs scale) < 255 := by
    apply f32Round_finite
    rwa [he, ← not_le, threshold_le_natAbs_iff, not_le]
  obtain ⟨hmag, hfrac⟩ := f32Round_mag hfin
  have hzero : x = 0 → f32Mag (f32Round neg x.natAbs scale) = 0 := by
    rintro rfl
    exact f32Round_zero_mag hfin
  have hdist := abs_val_sub_eq (c := f32Round neg x.natAbs scale) (x := x) (by rwa [f32Round_sign]) scale
  have hgrid : f32Mag (f32Round neg x.natAbs scale) * 2 ^ scale
      = roundQuot x.natAbs (dropBits x.natAbs scale) * 2 ^ dropBits x.natAbs scale := by
    rw [hmag, Nat.mul_assoc, ← Nat.pow_add, Nat.sub_add_cancel (scale_le_dropBits ..)]
  refine ⟨hfin, fun c _ => ?_⟩
  obtain ⟨hle, htie⟩ := roundQuot_nearest_mag x.natAbs scale c
  have hc := abs_mag_sub_natAbs_le c x scale
  rw [← hgrid, ← hfrac] at htie
  rw [← hgrid] at hle
  refine ⟨hdist ▸ hle.trans hc, fun heq => ?_⟩
  refine (htie (le_antisymm hle (by rwa [← hdist, heq]))).imp_left fun hm => ?_
  exact f32Val_eq_of_mag_eq (Nat.eq_of_mul_eq_mul_right (Nat.two_pow_pos scale) hm) heq hzero

theorem f32Inf_eq_of_signOf {neg : Bool} {x : Int} (hs : SignOf neg x) (hx : x ≠ 0) :
    f32Inf neg = if x < 0 then 0xFF800000#32 else 0x7F800000#32 := by
  obtain ⟨hn, hp⟩ := hs
  by_cases h : x < 0
  · rw [hn h, if_pos h]; rfl
  · rw [hp (by omega), if_neg h]; rfl

/-- From the overflow threshold on `f32Round` gives the infinity of the sign of x (R13, R14). -/
theorem f32Round_infinite {neg : Bool} {x : Int} {scale e : Nat} (hs : SignOf neg x)
    (he : 252 + scale = e) (hx : (2 ^ 25 - 1) * 2 ^ e ≤ |x|) :
    f32Round neg x.natAbs scale = if x < 0 then 0xFF800000#32 else 0x7F800000#32 := by
  have hne : x ≠ 0 := by
    rintro rfl
    exact absurd hx (by simp)
  rw [f32Round_overflow (by rwa [he, threshold_le_natAbs_iff]), f32Inf_eq_of_signOf hs hne]

/-- A sum of finite values is the exact sum rounded; an exact zero sum is the zero of one sign or the other. -/
theorem f32Add_eq_round_val {a b : Word} (ha : f32Expo a < 255) (hb : f32Expo b < 255) :
    ∃ neg, SignOf neg (f32Val a + f32Val b) ∧ f32Add a b = f32Round neg (f32Val a + f32Val b).natAbs 0 := by
  by_cases h0 : f32Val a + f32Val b = 0
  · refine ⟨f32Sign a && f32Sign b, ⟨by omega, by omega⟩, ?_⟩
    rw [f32Add_of_zero_sum ha hb h0, h0]
    cases f32Sign a && f32Sign b <;> decide
  · exact ⟨_, signOf_decide _, f32Add_of_nonzero_sum ha hb h0⟩

/-- A product of finite values is the exact product rounded, in units of 2^-298. -/
theorem f32Mul_eq_round_val {a b : Word} (ha : f32Expo a < 255) (hb : f32Expo b < 255) :
    f32Mul a b = f32Round (f32Sign a != f32Sign b) (f32Val a * f32Val b).natAbs 149 := by
  rw [f32Mul_of_finite ha hb, Int.natAbs_mul, f32Val_natAbs, f32Val_natAbs]

/-! ### The obligations -/

/-- Settles O51: in each kind of operands the two sums are equal. -/
theorem additionCommutes : Obligations.AdditionCommutes := f32Add_comm

/-- Settles O52, by the kinds of the operands of `f32Add`. -/
theorem additionSpecialCases : Obligations.AdditionSpecialCases := by
  unfold Obligations.AdditionSpecialCases
  refine ⟨fun a b h => ⟨f32Add_of_nan h, f32Add_of_nan h.symm⟩, fun a b => f32Add_eq_nan, by decide, by decide,
    by decide, by decide, fun a b ha hnan hinf => ?_, fun a b => f32Add_zero_sum_eq⟩
  have hb : f32Expo b < 255 := by simpa [hnan, hinf] using f32_nan_or_inf_or_finite b
  exact ⟨f32Add_of_inf_finite ha hb, f32Add_of_finite_inf hb ha⟩

/-- Settles O53, by the kinds of the operands of `f32Mul`; the factors exchanged give the same product. -/
theorem multiplicationSpecialCases : Obligations.MultiplicationSpecialCases := by
  unfold Obligations.MultiplicationSpecialCases
  refine ⟨fun a b => f32Mul_of_nan, fun a b => f32Mul_eq_nan, fun a b ha hb h0 => ?_, fun a b ha hb h0 => ?_,
    fun a b => f32Mul_sign, f32Mul_comm⟩
  · rw [f32Mul_comm b a]
    exact ⟨f32Mul_inf_zero ha hb h0, f32Mul_inf_zero ha hb h0⟩
  · rw [f32Mul_comm b a]
    exact ⟨f32Mul_inf_nonzero ha hb h0, f32Mul_inf_nonzero ha hb h0⟩

/-- Settles O54: a sum of finite values is the exact sum rounded by `f32Round`. -/
theorem finiteSumsAreRoundedToNearestEven : Obligations.FiniteSumsAreRoundedToNearestEven := by
  unfold Obligations.FiniteSumsAreRoundedToNearestEven
  intro a b ha hb
  obtain ⟨neg, hs, hadd⟩ := f32Add_eq_round_val ha hb
  rw [hadd]
  refine ⟨f32Round_infinite hs rfl, fun h => ?_⟩
  simpa only [RoundsToNearestEven, pow_zero, mul_one] using f32Round_nearest (scale := 0) hs rfl h

/-- Settles O55: a product of finite values is the exact product rounded by `f32Round`. -/
theorem finiteProductsAreRoundedToNearestEven : Obligations.FiniteProductsAreRoundedToNearestEven := by
  unfold Obligations.FiniteProductsAreRoundedToNearestEven
  intro a b ha hb
  rw [f32Mul_eq_round_val ha hb]
  exact ⟨f32Round_infinite (signOf_mul a b) rfl, f32Round_nearest (signOf_mul a b) rfl⟩

end Sys2Proof.Machine

/-! PROOFS. The state and its reset (10_state.md R30 to R53; 70_reset_and_hazards.md R270 to R277): what the host's own
registers are to the engine, the step of every agent under the invariant, the interrupt output and the reset values. -/

namespace Sys2Proof.Machine

/-! ### The host's side of the state -/

/-- The fields that a register access changes while a command runs (10_state.md R44; 70_reset_and_hazards.md R275). -/
structure HostSide where
  irqEn : Bool
  injAllocFail : Bool
  done : Bool
  cmdOvr : Bool
  xAddr : Word
  hAddr : Word
  yAddr : Word
  nReg : Word
  mReg : Word
  hostRead : Word

/-- The host's side of a state. -/
def hostSide (s : State) : HostSide where
  irqEn := s.irqEn
  injAllocFail := s.injAllocFail
  done := s.done
  cmdOvr := s.cmdOvr
  xAddr := s.xAddr
  hAddr := s.hAddr
  yAddr := s.yAddr
  nReg := s.nReg
  mReg := s.mReg
  hostRead := s.hostRead

/-- The state with another host's side. -/
def setHostSide (c : HostSide) (s : State) : State :=
  { s with
    irqEn := c.irqEn
    injAllocFail := c.injAllocFail
    done := c.done
    cmdOvr := c.cmdOvr
    xAddr := c.xAddr
    hAddr := c.hAddr
    yAddr := c.yAddr
    nReg := c.nReg
    mReg := c.mReg
    hostRead := c.hostRead }

/-- What an access makes of the host's side while a command runs, but for the word a read returns: a command is dropped
with CMD_OVR set (40_host_access.md R139). -/
def hostUpdate : Instr → HostSide → HostSide
  | .convScalar, c | .convVector, c | .wrCmd _, c => { c with cmdOvr := true }
  | .wrCtrl v, c => { c with irqEn := v.getLsbD 0, injAllocFail := v.getLsbD 1 }
  | .wrStatus v, c => { c with done := c.done && !v.getLsbD 1, cmdOvr := c.cmdOvr && !v.getLsbD 2 }
  | .wrXAddr v, c => { c with xAddr := v }
  | .wrHAddr v, c => { c with hAddr := v }
  | .wrYAddr v, c => { c with yAddr := v }
  | .wrN v, c => { c with nReg := v }
  | .wrM v, c => { c with mReg := v }
  | _, c => c

/-- An update of the host's side never sets DONE: only a completion does (60_exceptions.md R246). -/
theorem hostUpdate_done {i : Instr} {c : HostSide} (h : (hostUpdate i c).done = true) : c.done = true := by
  cases i with
  | wrStatus v => exact (Bool.and_eq_true_iff.1 h).1
  | _ => exact h

/-- Everything a register access can be: a command word presented to the engine, or an update of the host's side. -/
theorem exec_cases (i : Instr) (s : State) :
    (∃ v, exec i s = .next (presentCommand v s) ∧ ∀ c, hostUpdate i c = { c with cmdOvr := true })
      ∨ ∃ r, exec i s = .next (setHostSide { hostUpdate i (hostSide s) with hostRead := r } s) := by
  cases i with
  | convScalar | convVector => exact .inl ⟨_, rfl, fun _ => rfl⟩
  | wrCmd v => exact .inl ⟨v, rfl, fun _ => rfl⟩
  | _ => exact .inr ⟨_, rfl⟩

/-- While a command runs, every register access is an update of the host's side. -/
theorem exec_busy (i : Instr) {s : State} (hb : s.busy = true) :
    ∃ r, exec i s = .next (setHostSide { hostUpdate i (hostSide s) with hostRead := r } s) := by
  rcases exec_cases i s with ⟨v, he, hu⟩ | h
  · rw [he, presentCommand, if_pos hb, hu]
    exact ⟨s.hostRead, rfl⟩
  · exact h

/-! ### The engine beside the host's side -/

@[simp] theorem setHostSide_phase (c : HostSide) (s : State) : (setHostSide c s).phase = s.phase := rfl
@[simp] theorem setHostSide_lOp (c : HostSide) (s : State) : (setHostSide c s).lOp = s.lOp := rfl

theorem performed_congr {s t : State} (h : t.platform = s.platform) (xs : List MemAccess) :
    performed t xs = performed s xs := by
  induction xs with
  | nil => rfl
  | cons x xs ih => simp only [performed, portAnswer_congr h, ih]

theorem record_setHostSide (c : HostSide) (s : State) (xs : List MemAccess) :
    record xs (setHostSide c s) = setHostSide c (record xs s) := by
  unfold record
  rw [performed_congr (show (setHostSide c s).platform = s.platform from rfl)]
  rfl

theorem memRead_setHostSide (c : HostSide) (s : State) (a : Nat) : memRead (setHostSide c s) a = memRead s a := rfl

theorem scalarLoop_setHostSide (c : HostSide) (s : State) (ks : List Nat) (w : Word) :
    scalarLoop (setHostSide c s) ks w = scalarLoop s ks w := by
  induction ks generalizing w with
  | nil => rfl
  | cons k ks ih => simp only [scalarLoop, memRead_setHostSide, ih]; rfl

theorem vectorLoop_setHostSide (c : HostSide) (s : State) (ls : List (Nat × Fin 8)) (a : Vector Word 8) :
    vectorLoop (setHostSide c s) ls a = vectorLoop s ls a := by
  induction ls generalizing a with
  | nil => rfl
  | cons l ls ih => simp only [vectorLoop, memRead_setHostSide, ih]; rfl

/-- An access that does not end the command is answered, whatever the host's side. -/
theorem afterPort_setHostSide {α : Type} {r : PortResult α} {s t : State} {c : HostSide}
    {go go' : α → Host.Outcome State Fault Refusal} (hb : t.busy = true) (h : afterPort r s go = .next t)
    (hgo : ∀ v, go v = .next t → go' v = .next (setHostSide c t)) :
    afterPort r (setHostSide c s) go' = .next (setHostSide c t) := by
  rcases afterPort_next h with ⟨v, rfl, hv⟩ | ⟨a, -, rfl⟩
  · exact hgo v hv
  · exact absurd hb (by simp [State.busy])

theorem packTap_setHostSide (c : HostSide) (v : Word) (s : State) :
    packTap v (setHostSide c s) = setHostSide c (packTap v s) := by
  rcases packTap_cases v s with ⟨hp, e⟩ | ⟨hp, e⟩ <;> rw [e]
  · exact if_pos hp
  · exact if_neg hp

theorem packStep_setHostSide {s t : State} (c : HostSide) (hb : t.busy = true) (h : packStep s = .next t) :
    packStep (setHostSide c s) = .next (setHostSide c t) := by
  have ha : packAccesses (setHostSide c s) = packAccesses s := rfl
  unfold packStep at h ⊢
  simp only [ha, record_setHostSide, packTap_setHostSide] at h ⊢
  by_cases hi : s.pi < s.lM.toNat
  · rw [if_pos hi] at h
    refine (if_pos hi).trans (afterPort_setHostSide hb h fun v hv => ?_)
    rw [Host.Outcome.next.inj hv]
  · rw [if_neg hi] at h
    refine (if_neg hi).trans ?_
    rw [Host.Outcome.next.inj h]

theorem storeElement_setHostSide {v : Word} {s t : State} (c : HostSide) (hb : t.busy = true)
    (h : storeElement v s = .next t) : storeElement v (setHostSide c s) = .next (setHostSide c t) := by
  unfold storeElement at h ⊢
  refine afterPort_setHostSide hb h fun m hm => ?_
  by_cases hn : s.n + 1 = s.lN.toNat
  · simp only [if_pos hn] at hm
    cases hm
    exact absurd hb (by simp [State.busy])
  · simp only [if_neg hn] at hm
    cases hm
    exact if_neg hn

theorem scalarStep_setHostSide {s t : State} (c : HostSide) (hb : t.busy = true) (h : scalarStep s = .next t) :
    scalarStep (setHostSide c s) = .next (setHostSide c t) := by
  have ha : scalarAccesses (setHostSide c s) = scalarAccesses s := rfl
  unfold scalarStep at h ⊢
  simp only [ha, scalarLoop_setHostSide, record_setHostSide]
  exact afterPort_setHostSide hb h fun _ hs => storeElement_setHostSide c hb hs

theorem vectorStep_setHostSide {s t : State} (c : HostSide) (hb : t.busy = true) (h : vectorStep s = .next t) :
    vectorStep (setHostSide c s) = .next (setHostSide c t) := by
  have ha : vectorAccesses (setHostSide c s) = vectorAccesses s := rfl
  unfold vectorStep at h ⊢
  simp only [ha, vectorLoop_setHostSide, record_setHostSide]
  exact afterPort_setHostSide hb h fun _ hs => storeElement_setHostSide c hb hs

/-- An engine step that does not complete the command neither reads nor writes the host's side. -/
theorem engineStep_setHostSide {s t : State} (c : HostSide) (hb : t.busy = true) (h : engineStep s = .next t) :
    engineStep (setHostSide c s) = .next (setHostSide c t) := by
  unfold engineStep at h ⊢
  simp only [setHostSide_phase, setHostSide_lOp]
  split at h
  · rw [Host.Outcome.next.inj h]
  · exact packStep_setHostSide c hb h
  · exact scalarStep_setHostSide c hb h
  · exact vectorStep_setHostSide c hb h
  all_goals cases h

/-- An engine step that does not complete the command leaves the host's side as it was. -/
theorem hostSide_of_engineStep {s t : State} (hb : t.busy = true) (h : engineStep s = .next t) :
    hostSide t = hostSide s := by
  rcases engineStep_cases h with ⟨-, rfl⟩ | ⟨-, -, rfl⟩ | ⟨-, _, _, _, _, rfl⟩ | ⟨-, -, -, -, _, _, _, _, rfl⟩
    | ⟨-, -, -, -, _, _, _, _, rfl⟩
  · rfl
  · simp [hostSide]
  · exact absurd hb (by simp [State.busy])
  · exact absurd hb (by simp [State.busy])
  · rfl

/-- Settles O47: either order gives the step's state with the host's side that the access makes of the old one. -/
theorem engineIgnoresTheHostsWrites : Obligations.EngineIgnoresTheHostsWrites := by
  unfold Obligations.EngineIgnoresTheHostsWrites
  intro i s t u hs ht hstep hexec
  obtain ⟨r, hu⟩ := exec_busy i hs
  obtain ⟨r', hx⟩ := exec_busy i ht
  obtain rfl : u = _ := Host.Outcome.next.inj (hexec.symm.trans hu)
  refine ⟨_, _, engineStep_setHostSide _ ht hstep, hx, ?_⟩
  rw [hostSide_of_engineStep ht hstep]
  rfl

/-! ### The invariant: states that meet it -/

theorem errorCode_lt (e : CmdError) : (errorCode e).toNat < 8 := by cases e <;> simp [errorCode]

/-- A check that passes with an injected failure or without passes without (60_exceptions.md R237). -/
theorem check_none_without_injection {op : Op} {x h y n m : Nat} {inj : Bool}
    (hc : check op x h y n m inj = none) : check op x h y n m false = none := by
  by_cases ho : op = .vector
  · obtain ⟨-, -, -, -, -, -, -, -, -, -, -, hv⟩ := check_none hc
    rwa [(hv ho).2] at hc
  · simpa only [check, badAlloc, ho, decide_false, Bool.false_and] using hc

theorem mPad_pos {s : State} (h : 1 ≤ s.lM.toNat) : 0 < mPad s := by
  unfold mPad ceil8
  omega

/-- Out of reset there is nothing for reset to hold. -/
theorem held_of_running {t : State} (hr : t.inReset = false) (h : t.inReset = true) : t = resetBlock true t :=
  absurd (hr.symm.trans h) (by decide)

/-- An idle state meets the invariant by its memory and its result registers, and by what reset holds. -/
theorem Inv.of_idle {t : State} (hp : t.phase = .idle) (hm : t.mem.wf = true) (he : t.errcode.toNat < 8)
    (ha : t.errcode ≠ 7#4 → t.errAddr = 0x00000000#32) (hr : t.inReset = true → t = resetBlock true t) : Inv t where
  mem_wf := hm
  errcode_produced := he
  errAddr_zero := ha
  busy_flags hb := absurd hp ((busy_iff t).1 hb)
  busy_checked hb := absurd hp ((busy_iff t).1 hb)
  pack_position h := absurd (hp.symm.trans h) (by decide)
  conv_position h := absurd (hp.symm.trans h) (by decide)
  held_in_reset := hr

/-- A state out of reset with no completion to show meets the invariant by the running command's checks and position. -/
theorem Inv.of_running {t : State} (hr : t.inReset = false) (hm : t.mem.wf = true) (hd : t.done = false)
    (he : t.errcode = 0#4) (ha : t.errAddr = 0x00000000#32)
    (hc : check t.lOp t.lX.toNat t.lH.toNat t.lY.toNat t.lN.toNat t.lM.toNat false = none)
    (hpack : t.phase = .pack → t.lOp = .vector ∧ t.pi < mPad t ∧ t.outCount = 0x00000000#32)
    (hconv : t.phase = .conv →
      t.lM.toNat - 1 ≤ t.n ∧ t.n < t.lN.toNat ∧ t.outCount.toNat = t.n - (t.lM.toNat - 1)) : Inv t where
  mem_wf := hm
  errcode_produced := by rw [he]; decide
  errAddr_zero _ := ha
  busy_flags _ := ⟨hd, he⟩
  busy_checked _ := hc
  pack_position := hpack
  conv_position := hconv
  held_in_reset := held_of_running hr

/-- A running command of a state that meets the invariant shows no completion (10_state.md R34, R41). -/
theorem Inv.result_of_busy {s : State} (hi : Inv s) (hb : s.busy = true) :
    s.done = false ∧ s.errcode = 0#4 ∧ s.errAddr = 0x00000000#32 := by
  obtain ⟨hd, he⟩ := hi.busy_flags hb
  exact ⟨hd, he, hi.errAddr_zero (by rw [he]; decide)⟩

/-! ### The invariant: the step of each agent -/

/-- Reset establishes the invariant over any canonical memory (70_reset_and_hazards.md R270). -/
theorem inv_resetBlock (b : Bool) {s : State} (hm : s.mem.wf = true) : Inv (resetBlock b s) := by
  refine Inv.of_idle rfl hm (Nat.zero_lt_succ 7) (fun _ => rfl) fun h => ?_
  obtain rfl : b = true := h
  rfl

/-- The host's own use of memory and the schedule keep the invariant. -/
theorem Inv.setEnvironment {s : State} (hi : Inv s) (rest : List Event) {m : Memory} (hm : m.wf = true) (w : Word) :
    Inv { s with schedule := rest, mem := m, hostRead := w } where
  mem_wf := hm
  errcode_produced := hi.errcode_produced
  errAddr_zero := hi.errAddr_zero
  busy_flags := hi.busy_flags
  busy_checked := hi.busy_checked
  pack_position := hi.pack_position
  conv_position := hi.conv_position
  held_in_reset h :=
    congrArg (fun u : State => { u with schedule := rest, mem := m, hostRead := w }) (hi.held_in_reset h)

/-- An update of the host's side that does not set DONE keeps the invariant out of reset. -/
theorem Inv.setHostSide {s : State} (hi : Inv s) (hr : s.inReset = false) {c : HostSide}
    (hd : c.done = true → s.done = true) : Inv (setHostSide c s) where
  mem_wf := hi.mem_wf
  errcode_produced := hi.errcode_produced
  errAddr_zero := hi.errAddr_zero
  busy_flags hb := by
    obtain ⟨h0, he⟩ := hi.busy_flags hb
    exact ⟨Bool.eq_false_iff.2 fun h => absurd ((hd h).symm.trans h0) (by decide), he⟩
  busy_checked := hi.busy_checked
  pack_position := hi.pack_position
  conv_position := hi.conv_position
  held_in_reset := held_of_running hr

theorem presentCommand_keeps_inv {s : State} (hi : Inv s) (hr : s.inReset = false) (v : Word) :
    Inv (presentCommand v s) := by
  rcases presentCommand_cases v s with ⟨-, e⟩ | ⟨err, -, hc, e⟩ | ⟨-, hc, -, e⟩ | ⟨-, hc, ho, e⟩ <;> rw [e]
  · exact hi.setHostSide (c := { hostSide s with cmdOvr := true }) hr id
  · refine Inv.of_idle rfl hi.mem_wf (errorCode_lt err) (fun _ => ?_) (held_of_running hr)
    exact raiseError_errAddr_other _ _ fun a ha => check_ne_bus _ _ _ _ _ _ _ a (hc.trans (congrArg some ha))
  · obtain ⟨-, h1, h2, -⟩ := check_none hc
    refine Inv.of_running hr hi.mem_wf rfl rfl rfl (check_none_without_injection hc) nofun fun _ => ?_
    exact ⟨le_rfl, Nat.sub_one_lt_of_le h1 h2, (Nat.sub_self _).symm⟩
  · obtain ⟨-, h1, -⟩ := check_none hc
    exact Inv.of_running hr hi.mem_wf rfl rfl rfl (check_none_without_injection hc)
      (fun _ => ⟨ho, mPad_pos h1, rfl⟩) nofun

theorem exec_keeps_inv {i : Instr} {s t : State} (hi : Inv s) (hr : s.inReset = false) (h : exec i s = .next t) :
    Inv t := by
  rcases exec_cases i s with ⟨v, he, -⟩ | ⟨r, he⟩ <;> obtain rfl := Host.Outcome.next.inj (he.symm.trans h)
  · exact presentCommand_keeps_inv hi hr v
  · exact hi.setHostSide hr hostUpdate_done

/-- A packed tap is followed by the next one, or by the first output element (10_state.md R46). -/
theorem packTap_keeps_inv {s : State} (hi : Inv s) (hr : s.inReset = false) (hp : s.phase = .pack) (v : Word) :
    Inv (packTap v s) := by
  have hb : s.busy = true := (busy_iff s).2 (by rw [hp]; decide)
  obtain ⟨hd, he, ha⟩ := hi.result_of_busy hb
  obtain ⟨ho, hpi, hout⟩ := hi.pack_position hp
  have hc := hi.busy_checked hb
  obtain ⟨-, h1, h2, -⟩ := check_none hc
  rcases packTap_cases v s with ⟨hlast, e⟩ | ⟨hlast, e⟩ <;> rw [e]
  · refine Inv.of_running hr hi.mem_wf hd he ha hc nofun fun _ => ⟨le_rfl, Nat.sub_one_lt_of_le h1 h2, ?_⟩
    simp [hout]
  · refine Inv.of_running hr hi.mem_wf hd he ha hc (fun _ => ⟨ho, ?_, hout⟩) fun h => ?_
    · exact lt_of_le_of_ne hpi hlast
    · exact absurd (hp.symm.trans h) (by decide)

/-- The record of the engine's accesses is free (log 9). -/
theorem Inv.record {s : State} (hi : Inv s) (hr : s.inReset = false) (xs : List MemAccess) : Inv (record xs s) where
  mem_wf := hi.mem_wf
  errcode_produced := hi.errcode_produced
  errAddr_zero := hi.errAddr_zero
  busy_flags := hi.busy_flags
  busy_checked := hi.busy_checked
  pack_position := hi.pack_position
  conv_position := hi.conv_position
  held_in_reset := held_of_running hr

theorem engineStep_keeps_inv {s t : State} (hi : Inv s) (hr : s.inReset = false) (h : engineStep s = .next t) :
    Inv t := by
  rcases engineStep_cases h with ⟨-, rfl⟩ | ⟨hp, -, rfl⟩ | ⟨-, _, _, _, _, rfl⟩
    | ⟨hp, -, hn, hw, _, _, _, v, rfl⟩ | ⟨hp, -, hn, hw, _, _, _, v, rfl⟩
  · exact hi
  · exact packTap_keeps_inv (hi.record hr _) hr hp _
  · exact Inv.of_idle rfl hi.mem_wf (errorCode_lt _) (fun h => absurd rfl h) (held_of_running hr)
  · have hb : s.busy = true := (busy_iff s).2 (by rw [hp]; decide)
    obtain ⟨-, -, ha⟩ := hi.result_of_busy hb
    exact Inv.of_idle rfl (Memory.writeWord_wf hi.mem_wf hw.1 v) (Nat.zero_lt_succ 7) (fun _ => ha) (held_of_running hr)
  · have hb : s.busy = true := (busy_iff s).2 (by rw [hp]; decide)
    obtain ⟨hd, he, ha⟩ := hi.result_of_busy hb
    obtain ⟨hlo, hhi, hout⟩ := hi.conv_position hp
    have hlN : s.lN.toNat < 2 ^ 32 := s.lN.isLt
    refine Inv.of_running hr (Memory.writeWord_wf hi.mem_wf hw.1 v) hd he ha (hi.busy_checked hb)
      (fun h => absurd (hp.symm.trans h) (by decide)) fun _ => ⟨?_, ?_, ?_⟩
    · exact Nat.le_succ_of_le hlo
    · exact lt_of_le_of_ne hhi hn
    · show (s.outCount + 1#32).toNat = s.n + 1 - (s.lM.toNat - 1)
      rw [BitVec.toNat_add, hout, BitVec.toNat_ofNat]
      omega

/-- Settles O40: the steps of the engine, of the host's accesses, of its own use of memory and of reset, one by one. -/
theorem stepKeepsTheInvariant : Obligations.StepKeepsTheInvariant := by
  unfold Obligations.StepKeepsTheInvariant
  intro s t hi h
  have hrest : ∀ rest, Inv { s with schedule := rest } := fun rest => hi.setEnvironment rest hi.mem_wf s.hostRead
  rcases step_next h with ⟨-, u, hu, hstep⟩ | ⟨a, rest, i, -, hr, -, he⟩ | ⟨a, b, rest, -, ha, -, -, rfl⟩
    | ⟨a, rest, w, -, rfl⟩ | ⟨b, rest, -, rfl⟩
  · have hiu : Inv u := by
      rcases hu with rfl | ⟨rest, -, rfl⟩
      · exact hi
      · exact hrest rest
    rcases hstep with ⟨-, rfl⟩ | ⟨hr, he⟩
    · exact hiu
    · exact engineStep_keeps_inv hiu hr he
  · exact exec_keeps_inv (hrest rest) hr he
  · exact hi.setEnvironment rest (Memory.writeByte_wf hi.mem_wf ha b) s.hostRead
  · exact hi.setEnvironment rest hi.mem_wf w
  · exact inv_resetBlock b hi.mem_wf

/-- Settles O41: the state after reset is the release of reset over an empty memory. -/
theorem resetMeetsTheInvariant : Obligations.ResetMeetsTheInvariant :=
  inv_resetBlock false (s := State.reset) rfl

/-! ### The operand registers -/

/-- Each operand register, once written, is read back with all its bits (10_state.md R36 to R40). -/
theorem exec_read_of_written_operand {k : Nat} (h5 : 5 ≤ k) (h9 : k ≤ 9) (v : Word) (s : State) :
    ∃ t, exec (decodeWrite (BitVec.ofNat 4 k) v) s = .next t
      ∧ t.inReset = s.inReset ∧ t.platform = s.platform ∧ t.schedule = s.schedule
      ∧ ∀ rest, exec (decodeRead (BitVec.ofNat 4 k)) { t with schedule := rest }
          = .next (returnWord v { t with schedule := rest }) := by
  interval_cases k <;> exact ⟨_, rfl, rfl, rfl, rfl, fun _ => rfl⟩

/-- Settles O10: the write stores the word, and the read after it returns the register. -/
theorem operandRegistersReadBackAsWritten : Obligations.OperandRegistersReadBackAsWritten := by
  unfold Obligations.OperandRegistersReadBackAsWritten
  intro s k v w rest h5 h9 hr hs
  have hwrite := step_access hs (fetchAccess_write s v (by omega : k < 16) hr)
  obtain ⟨t, ht, htr, htp, hts, hread⟩ := exec_read_of_written_operand h5 h9 v
    { s with schedule := .access ⟨false, s.platform.regBase + 4 * k, 4, w⟩ :: rest }
  have hfetch := fetchAccess_read t w (by omega : k < 16) (htr.trans hr)
  rw [htp] at hfetch
  refine ⟨returnWord v { t with schedule := rest }, ?_, rfl, rfl⟩
  rw [runSteps_step (hwrite.trans ht) 1, runSteps_snoc rfl, step_access hts hfetch, hread]

/-! ### The interrupt output -/

/-- A completion of a running command raises the interrupt output exactly when IRQ_EN is 1 (R245). -/
theorem irq_of_completion {s t : State} (hb : s.busy = true) (h : engineStep s = .next t) (ht : t.busy = false) :
    t.irq = s.irqEn := by
  rcases engineStep_cases h with ⟨-, rfl⟩ | ⟨hp, -, rfl⟩ | ⟨-, _, _, _, _, rfl⟩ | ⟨-, -, -, -, _, _, _, _, rfl⟩
    | ⟨hp, -, -, -, _, _, _, _, rfl⟩
  · rw [hb] at ht; cases ht
  · rw [not_busy_iff] at ht
    rcases packTap_cases _ _ with ⟨-, e⟩ | ⟨-, e⟩ <;> rw [e] at ht
    · cases ht
    · exact absurd (hp.symm.trans ht) (by decide)
  · simp [State.irq]
  · simp [State.irq]
  · exact absurd (hp.symm.trans ((not_busy_iff _).1 ht)) (by decide)

/-- An access that leaves the engine busy where it was idle is the start of a command, with DONE clear (R140). -/
theorem done_of_start {i : Instr} {s t : State} (h : exec i s = .next t) (hs : s.busy = false) (ht : t.busy = true) :
    t.done = false := by
  rcases exec_cases i s with ⟨v, he, -⟩ | ⟨r, he⟩ <;> obtain rfl := Host.Outcome.next.inj (he.symm.trans h)
  · rcases presentCommand_cases v s with ⟨hp, -⟩ | ⟨e, -, -, hc⟩ | ⟨-, -, -, hc⟩ | ⟨-, -, -, hc⟩
    · exact absurd ((not_busy_iff s).1 hs) hp
    · rw [hc] at ht
      exact absurd ht (by simp [State.busy])
    · rw [hc]; rfl
    · rw [hc]; rfl
  · rw [busy_congr (setHostSide_phase _ s), hs] at ht
    cases ht

/-- Settles O46: each clause by the lemma of its rise or fall. -/
theorem interruptFollowsCompletion : Obligations.InterruptFollowsCompletion := by
  unfold Obligations.InterruptFollowsCompletion
  refine ⟨fun _ _ => irq_of_completion, ?_, ?_, ?_, ?_⟩
  · rintro s _ v hv ⟨⟩
    simp [State.irq, clearStatus, getLsbD_eq_decide, hv]
  · intro i s t h hs ht
    rw [State.irq, done_of_start h hs ht, Bool.false_and]
  · intro b s t rest hs h
    obtain rfl := Host.Outcome.next.inj ((step_reset hs).symm.trans h)
    rfl
  · rintro s _ v hv ⟨⟩
    have h0 : v.getLsbD 0 = false := by rw [getLsbD_eq_decide]; simp [hv]
    exact ⟨by rw [State.irq, setCtrl_irqEn, h0, Bool.and_false], rfl⟩

/-! ### Reset -/

/-- Settles O48: an edge of reset is `resetBlock`, which takes the block's fields from the reset state. -/
theorem resetEdgesRestoreTheResetValues : Obligations.ResetEdgesRestoreTheResetValues := by
  unfold Obligations.ResetEdgesRestoreTheResetValues
  intro s b rest hs
  refine ⟨resetBlock b { s with schedule := rest }, step_reset hs, ctrlWord_resetBlock _ _,
    statusWord_resetBlock _ _, ?_⟩
  simp [State.irq, State.reset]

/-- Settles O49: the reset state by its values, and its step is an idle engine's. -/
theorem resetValuesAreTheSpecs : Obligations.ResetValuesAreTheSpecs := by
  unfold Obligations.ResetValuesAreTheSpecs
  refine ⟨ctrlWord_resetBlock false State.reset, statusWord_resetBlock false State.reset, ?_⟩
  simp [State.irq, State.reset, step, runEngine, engineStep]

end Sys2Proof.Machine

/-! PROOFS. The engine in system memory (20_memory.md R70 to R81): the accesses of an element by position, the accesses of
a step and their regions, and who changes a byte. -/

namespace Sys2Proof.Machine

/-! ### The reads of a CONV_SCALAR element, by position -/

theorem length_scalarReads (s : State) (ks : List Nat) : (scalarReads s ks).length = 2 * ks.length := by
  simp [scalarReads, Nat.mul_comm]

/-- Tap number i of a list has the reads number 2i and 2i + 1. -/
theorem getElem?_scalarReads (s : State) (ks : List Nat) (i : Nat) :
    (scalarReads s ks)[2 * i]? = ks[i]?.map (fun k => ⟨.read, hElem s k⟩)
      ∧ (scalarReads s ks)[2 * i + 1]? = ks[i]?.map (fun k => ⟨.read, xElem s (s.n - k)⟩) := by
  induction ks generalizing i with
  | nil => exact ⟨rfl, rfl⟩
  | cons k ks ih =>
    cases i with
    | zero => exact ⟨rfl, rfl⟩
    | succ i => exact ih i

/-! ### The active lanes of a CONV_VECTOR element, by position -/

/-- The active lanes of some blocks, in the order of their reads (R195, R196). -/
def activeLanes (taps blocks : Nat) : List (Nat × Fin 8) :=
  (laneOrder blocks).filter fun l => tapOf l.1 l.2 < taps

theorem vectorReads_laneOrder (s : State) (blocks : Nat) :
    vectorReads s (laneOrder blocks) =
      (activeLanes s.lM.toNat blocks).map fun l => ⟨.read, xElem s (s.n - tapOf l.1 l.2)⟩ := rfl

/-- How many lanes of block b are inactive. They are its first ones, for lane j of block b has tap 8b + 7 - j. -/
def inactiveLanes (taps b : Nat) : Nat := 8 * b + 8 - min (8 * b + 8) taps

theorem tapOf_lt_iff (taps b : Nat) (j : Fin 8) : tapOf b j < taps ↔ inactiveLanes taps b ≤ j := by
  have hj := j.isLt
  unfold tapOf inactiveLanes
  omega

theorem laneOrder_succ (blocks : Nat) :
    laneOrder (blocks + 1) = laneOrder blocks ++ (List.finRange 8).map (Prod.mk blocks) := by
  simp only [laneOrder, List.range_succ, List.flatMap_append, List.flatMap_singleton]
  rfl

theorem filter_le_finRange_eight (k : Nat) :
    (List.finRange 8).filter (fun j => k ≤ j.val) = (List.finRange 8).drop k := by
  have small : ∀ k ≤ 8, (List.finRange 8).filter (fun j => k ≤ j.val) = (List.finRange 8).drop k := by decide
  rcases Nat.le_total k 8 with hk | hk
  · exact small k hk
  · rw [List.drop_eq_nil_of_le (by simpa using hk), List.filter_eq_nil_iff]
    intro j _
    have hj := j.isLt
    simp only [decide_eq_true_eq]
    omega

/-- A block adds its lanes but for the inactive first ones. -/
theorem activeLanes_succ (taps b : Nat) :
    activeLanes taps (b + 1) =
      activeLanes taps b ++ ((List.finRange 8).drop (inactiveLanes taps b)).map (Prod.mk b) := by
  simp only [activeLanes, laneOrder_succ, List.filter_append, List.filter_map, Function.comp_def, tapOf_lt_iff,
    filter_le_finRange_eight]

/-- There are as many active lanes as real taps. -/
theorem length_activeLanes (taps blocks : Nat) : (activeLanes taps blocks).length = min (8 * blocks) taps := by
  induction blocks with
  | zero => simp [activeLanes, laneOrder]
  | succ b ih =>
    rw [activeLanes_succ, List.length_append, List.length_map, List.length_drop, List.length_finRange, ih]
    unfold inactiveLanes
    omega

/-- An active lane is the read number of the active lanes before it: all of the blocks before its own, and those of its
own block after the inactive ones (R81). -/
theorem getElem?_activeLanes {taps blocks b : Nat} (hb : b < blocks) {j : Fin 8} (hj : tapOf b j < taps) :
    (activeLanes taps blocks)[8 * b + j - inactiveLanes taps b]? = some (b, j) := by
  have hj8 := j.isLt
  have hskip := (tapOf_lt_iff taps b j).1 hj
  have hfull : 8 * b < taps := by unfold tapOf at hj; omega
  induction blocks with
  | zero => omega
  | succ c ih =>
    rw [activeLanes_succ]
    rcases Nat.lt_succ_iff_lt_or_eq.1 hb with hlt | rfl
    · rw [List.getElem?_append_left (by rw [length_activeLanes]; unfold inactiveLanes at hskip ⊢; omega)]
      exact ih hlt
    · have hlen : (activeLanes taps b).length = 8 * b := by rw [length_activeLanes]; omega
      have hpos : inactiveLanes taps b + (8 * b + j - inactiveLanes taps b - 8 * b) = j := by omega
      rw [List.getElem?_append_right (by omega), hlen, List.getElem?_map, List.getElem?_drop, hpos]
      simp

/-- The blocks hold every tap (R191). -/
theorem le_numBlocks (s : State) : s.lM.toNat ≤ 8 * numBlocks s := by
  unfold numBlocks mPad ceil8
  omega

theorem length_vectorReads (s : State) : (vectorReads s (laneOrder (numBlocks s))).length = s.lM.toNat := by
  rw [vectorReads_laneOrder, List.length_map, length_activeLanes, Nat.min_eq_right (le_numBlocks s)]

/-- The read of an active lane of the element, by its position among the reads. -/
theorem getElem?_vectorReads (s : State) {b j : Nat} (hj8 : j < 8) (hj : tapOf b j < s.lM.toNat) :
    (vectorReads s (laneOrder (numBlocks s)))[8 * b + j - inactiveLanes s.lM.toNat b]? =
      some ⟨.read, xElem s (s.n - tapOf b j)⟩ := by
  have hb : b < numBlocks s := by
    have hle := le_numBlocks s
    unfold tapOf at hj
    omega
  rw [vectorReads_laneOrder, List.getElem?_map, getElem?_activeLanes hb (j := ⟨j, hj8⟩) hj]
  rfl

/-- Settles O31: the reads of the taps and of the active lanes by position, then the write behind all of them. -/
theorem accessesFollowTheArchitecturalOrder : Obligations.AccessesFollowTheArchitecturalOrder := by
  unfold Obligations.AccessesFollowTheArchitecturalOrder
  refine ⟨fun s => ?_, fun s => ?_⟩
  · have hlen : (scalarReads s (List.range s.lM.toNat)).length = 2 * s.lM.toNat := by
      rw [length_scalarReads, List.length_range]
    rw [scalarAccesses_eq]
    refine ⟨by simp [hlen], fun k hk => ?_, by simp [hlen, yElem]⟩
    obtain ⟨hh, hx⟩ := getElem?_scalarReads s (List.range s.lM.toNat) k
    rw [List.getElem?_range hk] at hh hx
    exact ⟨(List.getElem?_append_left (by omega)).trans hh, (List.getElem?_append_left (by omega)).trans hx⟩
  · have hlen := length_vectorReads s
    rw [vectorAccesses_eq]
    refine ⟨by simp [hlen], fun b j hj8 hj => ?_, by simp [hlen, yElem]⟩
    have hread := getElem?_vectorReads s hj8 hj
    exact (List.getElem?_append_left (List.getElem?_eq_some_iff.1 hread).1).trans hread

/-! ### The end of an element step, field by field -/

/-- An element step keeps the record and the accumulators of its middle state `u`, and either leaves memory or writes
y[n] and counts it. -/
theorem element_ends {s u t : State} {reads : List MemAccess} {v : Word} (hp : u.platform = s.platform)
    (h : afterPort (firstStop s reads) u (fun _ => storeElement v u) = .next t) :
    t.busTrace = u.busTrace ∧ t.sacc = u.sacc ∧ t.acc = u.acc
      ∧ (t.mem = u.mem ∧ t.outCount = u.outCount
        ∨ Answered s ⟨.write, yElem u u.n⟩ ∧ t.mem = u.mem.writeWord (yElem u u.n) v
          ∧ t.outCount = u.outCount + 1#32) := by
  have last : firstStop s (reads ++ [⟨.write, yElem u u.n⟩]) = .ok () → Answered s ⟨.write, yElem u u.n⟩ :=
    fun hf => firstStop_ok hf _ (List.mem_append_right _ List.mem_cons_self)
  rcases element_next hp h with ⟨a, -, -, rfl⟩ | ⟨hf, -, rfl⟩ | ⟨hf, -, rfl⟩
  · exact ⟨rfl, rfl, rfl, .inl ⟨rfl, rfl⟩⟩
  · exact ⟨rfl, rfl, rfl, .inr ⟨last hf, rfl, rfl⟩⟩
  · exact ⟨rfl, rfl, rfl, .inr ⟨last hf, rfl, rfl⟩⟩

/-- A pack step leaves memory and the count, and its accesses are recorded. -/
theorem packStep_ends {s t : State} (h : packStep s = .next t) :
    t.busTrace = s.busTrace ++ performed s (packAccesses s) ∧ t.mem = s.mem ∧ t.outCount = s.outCount := by
  rcases packStep_next h with ⟨-, -, rfl⟩ | ⟨-, rfl⟩ | ⟨-, -, rfl⟩ <;> simp

/-! ### What an engine step does to memory -/

/-- An engine step leaves memory and the count, or it is an element step that writes the value and counts it. -/
theorem engineStep_memory {s t : State} (h : engineStep s = .next t) :
    (t.mem = s.mem ∧ t.outCount = s.outCount)
      ∨ (s.phase = .conv ∧ Answered s ⟨.write, yElem s s.n⟩ ∧ t.outCount = s.outCount + 1#32
        ∧ t.mem = s.mem.writeWord (yElem s s.n) (if s.lOp = .scalar then t.sacc else reduceLanes t.acc)) := by
  rcases engineStep_next h with ⟨-, rfl⟩ | ⟨-, -, hh⟩ | ⟨hp, ho, hh⟩ | ⟨hp, ho, hh⟩
  · exact .inl ⟨rfl, rfl⟩
  · exact .inl (packStep_ends hh).2
  · obtain ⟨-, hs, -, hm | ⟨ha, hm, hc⟩⟩ := element_ends (s := s) (u := scalarMid s) rfl hh
    · exact .inl hm
    · exact .inr ⟨hp, ha, hc, by rw [if_pos ho, hs]; exact hm⟩
  · obtain ⟨-, -, hs, hm | ⟨ha, hm, hc⟩⟩ := element_ends (s := s) (u := vectorMid s) rfl hh
    · exact .inl hm
    · exact .inr ⟨hp, ha, hc, by rw [if_neg (by rw [ho]; decide), hs]; exact hm⟩

/-- Settles O32: no byte changes but by the write of y[n], which is counted and touches its four bytes only. -/
theorem engineWritesOnlyTheCurrentElement : Obligations.EngineWritesOnlyTheCurrentElement := by
  unfold Obligations.EngineWritesOnlyTheCurrentElement
  intro s t h
  rcases engineStep_memory h with ⟨hm, hc⟩ | ⟨hp, ⟨hin, -⟩, hc, hm⟩
  · exact ⟨fun _ _ => by rw [hm], fun _ _ => hm, fun _ _ hne => absurd hc hne⟩
  · refine ⟨fun a ha => ?_, fun _ heq => ?_, fun hwf _ _ k hk => ?_⟩
    · rw [hm]
      exact Memory.readByte_writeWord_other _ _ (ha.resolve_left fun hne => hne hp)
    · rw [hc] at heq
      bv_omega
    · rw [hm]
      exact Memory.readByte_writeWord_same hwf hin _ hk

/-! ### The accesses of an engine step and their regions -/

/-- The accesses of the step of the latched command in its phase, if none errors (R81). -/
def stepAccesses (s : State) : List MemAccess :=
  match s.phase, s.lOp with
  | .pack, .vector => packAccesses s
  | .conv, .scalar => scalarAccesses s
  | .conv, .vector => vectorAccesses s
  | _, _ => []

/-- The accesses an engine step makes are the performed ones of its sequence. -/
theorem engineStep_busTrace {s t : State} (h : engineStep s = .next t) :
    t.busTrace = s.busTrace ++ performed s (stepAccesses s) := by
  unfold stepAccesses
  rcases engineStep_next h with ⟨hp, rfl⟩ | ⟨hp, ho, hh⟩ | ⟨hp, ho, hh⟩ | ⟨hp, ho, hh⟩
  · simp [hp, performed]
  · rw [hp, ho]; exact (packStep_ends hh).1
  · rw [hp, ho]; exact (element_ends (s := s) (u := scalarMid s) rfl hh).1
  · rw [hp, ho]; exact (element_ends (s := s) (u := vectorMid s) rfl hh).1

/-- A tap of the filter of a running command. -/
theorem inRegions_read_hElem {s : State} (hi : Inv s) (hb : s.busy = true) {k : Nat} (hk : k < s.lM.toNat) :
    InRegions s ⟨.read, hElem s k⟩ := by
  obtain ⟨-, -, -, -, hh, -⟩ := check_none (hi.busy_checked hb)
  simp only [InRegions, hElem]
  exact ⟨by omega, .inr (by omega)⟩

/-- A sample of the signal of a running command. -/
theorem inRegions_read_xElem {s : State} (hi : Inv s) (hb : s.busy = true) {i : Nat} (hn : i < s.lN.toNat) :
    InRegions s ⟨.read, xElem s i⟩ := by
  obtain ⟨-, -, -, hx, -⟩ := check_none (hi.busy_checked hb)
  simp only [InRegions, xElem]
  exact ⟨by omega, .inl (by omega)⟩

/-- The output element that is due. -/
theorem inRegions_write_yElem {s : State} (hi : Inv s) (hb : s.busy = true) (hp : s.phase = .conv) :
    InRegions s ⟨.write, yElem s s.n⟩ := by
  obtain ⟨-, -, -, -, -, hy, -⟩ := check_none (hi.busy_checked hb)
  obtain ⟨hlo, hhi, -⟩ := hi.conv_position hp
  simp only [InRegions, yElem]
  exact ⟨by omega, by omega⟩

theorem packAccesses_inRegions {s : State} (hi : Inv s) (hb : s.busy = true) :
    ∀ a ∈ packAccesses s, InRegions s a := by
  unfold packAccesses
  split
  · next hpi => simpa using inRegions_read_hElem hi hb hpi
  · simp

theorem scalarAccesses_inRegions {s : State} (hi : Inv s) (hb : s.busy = true) (hp : s.phase = .conv) :
    ∀ a ∈ scalarAccesses s, InRegions s a := by
  obtain ⟨-, hn, -⟩ := hi.conv_position hp
  intro a ha
  simp only [scalarAccesses_eq, scalarReads, List.mem_append, List.mem_flatMap, List.mem_range, List.mem_cons,
    List.not_mem_nil, or_false] at ha
  rcases ha with ⟨k, hk, rfl | rfl⟩ | rfl
  · exact inRegions_read_hElem hi hb hk
  · exact inRegions_read_xElem hi hb (by omega)
  · exact inRegions_write_yElem hi hb hp

theorem vectorAccesses_inRegions {s : State} (hi : Inv s) (hb : s.busy = true) (hp : s.phase = .conv) :
    ∀ a ∈ vectorAccesses s, InRegions s a := by
  obtain ⟨-, hn, -⟩ := hi.conv_position hp
  intro a ha
  simp only [vectorAccesses_eq, vectorReads, List.mem_append, List.mem_map, List.mem_cons, List.not_mem_nil,
    or_false] at ha
  rcases ha with ⟨l, -, rfl⟩ | rfl
  · exact inRegions_read_xElem hi hb (by omega)
  · exact inRegions_write_yElem hi hb hp

theorem stepAccesses_inRegions {s : State} (hi : Inv s) : ∀ a ∈ stepAccesses s, InRegions s a := by
  have hb : s.phase ≠ .idle → s.busy = true := (busy_iff s).2
  unfold stepAccesses
  split
  · next hp _ => exact packAccesses_inRegions hi (hb (by rw [hp]; decide))
  · next hp _ => exact scalarAccesses_inRegions hi (hb (by rw [hp]; decide)) hp
  · next hp _ => exact vectorAccesses_inRegions hi (hb (by rw [hp]; decide)) hp
  · simp

/-- Settles O34: the accesses made are among those of the step's sequence, and under the invariant all of these lie in
the regions. -/
theorem engineAccessesStayInTheRegions : Obligations.EngineAccessesStayInTheRegions := by
  unfold Obligations.EngineAccessesStayInTheRegions
  intro s t hi h
  exact ⟨_, engineStep_busTrace h, fun a ha => stepAccesses_inRegions hi a (performed_subset s _ a ha)⟩

/-! ### Events that leave memory alone -/

theorem presentCommand_environment (v : Word) (s : State) :
    (presentCommand v s).mem = s.mem ∧ (presentCommand v s).busTrace = s.busTrace
      ∧ (presentCommand v s).platform = s.platform ∧ (presentCommand v s).schedule = s.schedule := by
  rcases presentCommand_cases v s with ⟨-, e⟩ | ⟨err, -, -, e⟩ | ⟨-, -, -, e⟩ | ⟨-, -, -, e⟩ <;> rw [e] <;>
    exact ⟨rfl, rfl, rfl, rfl⟩

/-- No register access touches memory, the record of the engine's accesses, the platform or the schedule. -/
theorem exec_environment {i : Instr} {s t : State} (h : exec i s = .next t) :
    t.mem = s.mem ∧ t.busTrace = s.busTrace ∧ t.platform = s.platform ∧ t.schedule = s.schedule := by
  rcases exec_cases i s with ⟨v, he, -⟩ | ⟨r, he⟩ <;> obtain rfl := Host.Outcome.next.inj (he.symm.trans h)
  · exact presentCommand_environment v s
  · exact ⟨rfl, rfl, rfl, rfl⟩

/-- Settles O45: of the events of `step_next`, an access, a host read and an edge of reset remain. -/
theorem onlyStoresChangeMemory : Obligations.OnlyStoresChangeMemory := by
  unfold Obligations.OnlyStoresChangeMemory
  intro s t e rest hs h hengine hstore
  rcases step_next h with ⟨hturn, -⟩ | ⟨a, _, i, hs', -, -, he⟩ | ⟨a, b, _, hs', -⟩ | ⟨a, _, w, hs', rfl⟩
    | ⟨b, _, hs', rfl⟩
  · simp [hs, hengine] at hturn
  · obtain ⟨-, rfl⟩ := List.cons.inj (hs.symm.trans hs')
    exact exec_environment he
  · exact absurd (List.cons.inj (hs.symm.trans hs')).1 (hstore a b)
  · obtain ⟨-, rfl⟩ := List.cons.inj (hs.symm.trans hs')
    exact ⟨rfl, rfl, rfl, rfl⟩
  · obtain ⟨-, rfl⟩ := List.cons.inj (hs.symm.trans hs')
    exact ⟨rfl, rfl, rfl, rfl⟩

end Sys2Proof.Machine

/-! PROOFS. The encoding (30_encoding.md R100 to R116): the frames of the sixteen word indices, what decodes and what
the bus refuses, the round trip of the codec in both directions, and the read of each register. -/

namespace Sys2Proof.Machine

/-! ### Command words -/

theorem decodeCmd_eq_scalar_iff (v : Word) : decodeCmd v = .scalar ↔ v = 0x00000001#32 := by
  unfold decodeCmd
  split_ifs with h1 h2
  · simp [h1]
  · simp [h1]
  · simp [h1]

theorem decodeCmd_eq_vector_iff (v : Word) : decodeCmd v = .vector ↔ v = 0x00000002#32 := by
  unfold decodeCmd
  split_ifs with h1 h2
  · simp [h1]
  · simp [h2]
  · simp [h2]

theorem decodeCmd_eq_illegal_iff (v : Word) :
    decodeCmd v = .illegal ↔ v ≠ 0x00000001#32 ∧ v ≠ 0x00000002#32 := by
  unfold decodeCmd
  split_ifs with h1 h2
  · simp [h1]
  · simp [h2]
  · simp [h1, h2]

/-- Every CMD write is CONV_SCALAR's word, CONV_VECTOR's word, or WR_CMD with a word that is neither (R110, R111). -/
theorem decodeCmdWrite_cases (v : Word) :
    (v = 0x00000001#32 ∧ decodeCmdWrite v = .convScalar) ∨ (v = 0x00000002#32 ∧ decodeCmdWrite v = .convVector)
      ∨ ((v ≠ 0x00000001#32 ∧ v ≠ 0x00000002#32) ∧ decodeCmdWrite v = .wrCmd v) := by
  unfold decodeCmdWrite
  cases h : decodeCmd v with
  | scalar => exact .inl ⟨(decodeCmd_eq_scalar_iff v).1 h, rfl⟩
  | vector => exact .inr (.inl ⟨(decodeCmd_eq_vector_iff v).1 h, rfl⟩)
  | illegal => exact .inr (.inr ⟨(decodeCmd_eq_illegal_iff v).1 h, rfl⟩)

theorem wellFormed_wrCmd_iff (v : Word) :
    (Instr.wrCmd v).wellFormed = true ↔ v ≠ 0x00000001#32 ∧ v ≠ 0x00000002#32 := by
  simp [Instr.wellFormed]

/-! ### Descriptors as numbers -/

/-- The byte offset of the word index r: R = 4·REG with BO = 00 (R101, R103). -/
def regOffset (r : BitVec 4) : Byte := BitVec.ofNat 8 (4 * r.toNat)

theorem descTooWide_eq_false_iff (d : Byte) : descTooWide d = false ↔ d.toNat < 128 := by
  have := d.isLt
  simp only [descTooWide, BitVec.getLsbD, Nat.testBit_eq_decide_div_mod_eq, decide_eq_false_iff_not]
  omega

theorem descByteOffset_eq_zero_iff (d : Byte) : descByteOffset d = 0#2 ↔ d.toNat % 4 = 0 := by
  simp [descByteOffset, ← BitVec.toNat_inj]

theorem descWrite_eq_decide {d : Byte} (h : d.toNat < 128) : descWrite d = decide (64 ≤ d.toNat) := by
  simp only [descWrite, BitVec.getLsbD, Nat.testBit_eq_decide_div_mod_eq, decide_eq_decide]
  omega

/-- The fields of the descriptors of the word index r, for a read and for a write (R101, R115). -/
theorem descriptor_of_regOffset (r : BitVec 4) :
    (descTooWide (regOffset r) = false ∧ descByteOffset (regOffset r) = 0#2 ∧ descWrite (regOffset r) = false
        ∧ descReg (regOffset r) = r)
      ∧ descTooWide (0x40#8 ||| regOffset r) = false ∧ descByteOffset (0x40#8 ||| regOffset r) = 0#2
        ∧ descWrite (0x40#8 ||| regOffset r) = true ∧ descReg (0x40#8 ||| regOffset r) = r := by
  revert r
  decide

/-- A descriptor with W = 0 and BO = 00 is the read of a word index. -/
theorem eq_regOffset_of_read {d : Byte} (h7 : descTooWide d = false) (h0 : descByteOffset d = 0#2)
    (hw : descWrite d = false) : d = regOffset (descReg d) := by
  revert d
  decide

/-- A descriptor with W = 1 and BO = 00 is the write of a word index. -/
theorem eq_regOffset_of_write {d : Byte} (h7 : descTooWide d = false) (h0 : descByteOffset d = 0#2)
    (hw : descWrite d = true) : d = 0x40#8 ||| regOffset (descReg d) := by
  revert d
  decide

/-! ### The frames of the word indices -/

theorem decode_readFrame_regOffset (r : BitVec 4) : decode (readFrame (regOffset r)) = .ok (decodeRead r) := by
  obtain ⟨⟨h7, h0, hw, hreg⟩, -⟩ := descriptor_of_regOffset r
  rw [decode_readFrame _ h7 h0 hw, hreg]

theorem decode_writeFrame_regOffset (r : BitVec 4) (v : Word) :
    decode (writeFrame (regOffset r) v) = .ok (decodeWrite r v) := by
  obtain ⟨-, h7, h0, hw, hreg⟩ := descriptor_of_regOffset r
  rw [decode_writeFrame _ v h7 h0 hw, hreg]

/-- Bytes that decode are the frame of a read or of a write of a word index. -/
theorem decode_eq_ok {bs : List Byte} {i : Instr} (h : decode bs = .ok i) :
    (∃ r, bs = readFrame (regOffset r) ∧ i = decodeRead r)
      ∨ ∃ r v, bs = writeFrame (regOffset r) v ∧ i = decodeWrite r v := by
  unfold decode at h
  split at h
  · cases h
  next d data =>
  split at h
  · cases h
  next h7 =>
  split at h
  · cases h
  next h0 =>
  have h7' := Bool.eq_false_of_not_eq_true h7
  split at h
  · next hw =>
    have hd := eq_regOffset_of_write h7' (not_not.1 h0) hw
    split at h
    · next b0 b1 b2 b3 =>
      refine .inr ⟨descReg d, wordOf b0 b1 b2 b3, ?_, (Except.ok.inj h).symm⟩
      rw [writeFrame, bytesOf, byteOf_wordOf_0, byteOf_wordOf_1, byteOf_wordOf_2, byteOf_wordOf_3, ← hd]
    · cases h
  · next hw =>
    have hd := eq_regOffset_of_read h7' (not_not.1 h0) (Bool.eq_false_of_not_eq_true hw)
    split at h
    · refine .inl ⟨descReg d, ?_, (Except.ok.inj h).symm⟩
      rw [readFrame, ← hd]
    · cases h

theorem encode_decodeRead (r : BitVec 4) : encode (decodeRead r) = readFrame (regOffset r) := by
  revert r
  decide

/-- A CMD write is encoded at offset 0x10 with its own word, whichever of its three rows it is. -/
theorem encode_decodeCmdWrite (v : Word) : encode (decodeCmdWrite v) = writeFrame 0x10#8 v := by
  rcases decodeCmdWrite_cases v with ⟨rfl, h⟩ | ⟨rfl, h⟩ | ⟨-, h⟩ <;> rw [h] <;> rfl

/-- A field of w bits is a number below 2^w: a row of R103, or one of the reserved offsets. -/
theorem exists_eq_ofNat {w : Nat} (r : BitVec w) : ∃ k < 2 ^ w, r = BitVec.ofNat w k := ⟨r.toNat, r.isLt, by simp⟩

theorem encode_decodeWrite (r : BitVec 4) (v : Word) :
    encode (decodeWrite r v) = writeFrame (regOffset r) v := by
  obtain ⟨k, hk, rfl⟩ := exists_eq_ofNat r
  interval_cases k
  -- The write of CMD, word index 4, has three rows; every other word index has one.
  pick_goal 5
  · exact encode_decodeCmdWrite v
  all_goals rfl

theorem wellFormed_decodeRead (r : BitVec 4) : (decodeRead r).wellFormed = true := by
  revert r
  decide

/-- A CMD write is never read as WR_CMD with the word of a command (log 3). -/
theorem wellFormed_decodeCmdWrite (v : Word) : (decodeCmdWrite v).wellFormed = true := by
  rcases decodeCmdWrite_cases v with ⟨-, h⟩ | ⟨-, h⟩ | ⟨hv, h⟩ <;> rw [h]
  · rfl
  · rfl
  · exact (wellFormed_wrCmd_iff v).2 hv

theorem wellFormed_decodeWrite (r : BitVec 4) (v : Word) : (decodeWrite r v).wellFormed = true := by
  obtain ⟨k, hk, rfl⟩ := exists_eq_ofNat r
  interval_cases k
  -- The write of CMD, word index 4, has three rows; every other word index has one.
  pick_goal 5
  · exact wellFormed_decodeCmdWrite v
  all_goals rfl

/-- The reserved offset j is that of the word index 12 + j (R103). -/
theorem regOffset_reserved (j : BitVec 2) : regOffset (0b11#2 ++ j) = reservedOffset j := by
  revert j
  decide

theorem decodeWrite_reserved (j : BitVec 2) (v : Word) : decodeWrite (0b11#2 ++ j) v = .wrReserved j v := by
  obtain ⟨k, hk, rfl⟩ := exists_eq_ofNat j
  interval_cases k <;> rfl

/-! ### The codec, both ways -/

/-- Settles O1, by the fields of each row's descriptor; a CMD write is a command's row exactly for its word. -/
theorem decodeOfEncodeGivesTheInstruction : Obligations.DecodeOfEncodeGivesTheInstruction := by
  unfold Obligations.DecodeOfEncodeGivesTheInstruction
  intro i hwf
  cases i with
  | rdId | rdCaps | rdCtrl | rdStatus | rdCmd | rdXAddr | rdHAddr | rdYAddr | rdN | rdM | rdErrAddr | rdOutCount =>
    exact decode_readFrame _ rfl rfl rfl
  | convScalar | convVector | wrId v | wrCaps v | wrCtrl v | wrStatus v | wrXAddr v | wrHAddr v | wrYAddr v | wrN v
  | wrM v | wrErrAddr v | wrOutCount v =>
    exact decode_writeFrame _ _ rfl rfl rfl
  | wrCmd v =>
    rcases decodeCmdWrite_cases v with ⟨hv, -⟩ | ⟨hv, -⟩ | ⟨-, h⟩
    · exact absurd hv ((wellFormed_wrCmd_iff v).1 hwf).1
    · exact absurd hv ((wellFormed_wrCmd_iff v).1 hwf).2
    · exact (decode_writeFrame_regOffset 4#4 v).trans (congrArg Except.ok h)
  | rdReserved j => revert j; decide
  | wrReserved j v =>
    rw [encode, ← regOffset_reserved, decode_writeFrame_regOffset, decodeWrite_reserved]

/-- Settles O2: what decodes is a row of a word index, and each row is encoded at its own offset. -/
theorem decodedBytesAreTheEncoding : Obligations.DecodedBytesAreTheEncoding := by
  unfold Obligations.DecodedBytesAreTheEncoding
  intro bs i h
  rcases decode_eq_ok h with ⟨r, rfl, rfl⟩ | ⟨r, v, rfl, rfl⟩
  · exact ⟨encode_decodeRead r, wellFormed_decodeRead r⟩
  · exact ⟨encode_decodeWrite r v, wellFormed_decodeWrite r v⟩

/-! ### Every word index, and no other offset -/

theorem exec_next (i : Instr) (s : State) : ∃ t, exec i s = .next t := by
  rcases exec_cases i s with ⟨v, h, -⟩ | ⟨r, h⟩
  · exact ⟨_, h⟩
  · exact ⟨_, h⟩

/-- A descriptor with BO other than 00 is no access, whatever follows it (R101, R102). -/
theorem decode_byteOffset {d : Byte} (h7 : descTooWide d = false) (h0 : descByteOffset d ≠ 0#2) (data : List Byte) :
    decode (d :: data) = .error .byteOffset := by
  simp [decode, h7, h0]

/-- Settles O5: with BO = 00 the descriptor is that of a word index, and every access answers a next state. -/
theorem everyWordIndexHasADefinedEffect : Obligations.EveryWordIndexHasADefinedEffect := by
  unfold Obligations.EveryWordIndexHasADefinedEffect
  intro d v h
  have h7 := (descTooWide_eq_false_iff d).2 h
  refine ⟨fun h4 => ?_, fun h4 => ?_⟩
  · have h0 := (descByteOffset_eq_zero_iff d).2 h4
    split_ifs with hd
    · have hw : descWrite d = false := by simp [descWrite_eq_decide h, hd]
      exact ⟨_, decode_readFrame d h7 h0 hw, exec_next _⟩
    · have hw : descWrite d = true := by simpa [descWrite_eq_decide h] using hd
      have hdec := decode_writeFrame_regOffset (descReg d) v
      rw [writeFrame, ← eq_regOffset_of_write h7 h0 hw] at hdec
      exact ⟨_, hdec, exec_next _⟩
  · have h0 := mt (descByteOffset_eq_zero_iff d).1 h4
    split_ifs
    · exact decode_byteOffset h7 h0 []
    · exact decode_byteOffset h7 h0 (bytesOf v)

/-! ### The bus -/

/-- The frame of a 32-bit access in the window (R101, R102). -/
theorem busFrame_of_window {p : Platform} {a : HostAccess} (hw : a.width = 4) (hlo : p.regBase ≤ a.addr)
    (hhi : a.addr < p.regBase + 64) :
    busFrame p a = .ok (if a.write then writeFrame (BitVec.ofNat 8 (a.addr - p.regBase)) a.data
      else readFrame (BitVec.ofNat 8 (a.addr - p.regBase))) := by
  have hin : ¬ (a.addr < p.regBase ∨ p.regBase + Config.windowBytes ≤ a.addr) := by
    unfold Config.windowBytes; omega
  unfold busFrame
  rw [if_neg (not_not.2 hw), if_neg hin]
  split_ifs <;> rfl

theorem fetchAccess_of_width {s : State} {a : HostAccess} (hr : s.inReset = false) (hw : a.width ≠ 4) :
    fetchAccess s a = .error (.accessWidth a.width) := by
  simp [fetchAccess, busFrame, hr, hw]

theorem fetchAccess_of_decodeError {s : State} {a : HostAccess} {frame : List Byte} {e : DecodeError}
    (hr : s.inReset = false) (hb : busFrame s.platform a = .ok frame) (hd : decode frame = .error e) :
    fetchAccess s a = .error (refusalOf e) := by
  simp [fetchAccess, hr, hb, hd]

/-- An access inside the window at an offset that is no multiple of 4 has BO other than 00 (R101, R102). -/
theorem fetchAccess_of_misaligned {s : State} {a : HostAccess} (hr : s.inReset = false) (hw : a.width = 4)
    (hlo : s.platform.regBase ≤ a.addr) (hhi : a.addr < s.platform.regBase + 64)
    (h4 : (a.addr - s.platform.regBase) % 4 ≠ 0) : fetchAccess s a = .error .byteOffset := by
  obtain ⟨⟨r7, -, -, r0⟩, w7, -, -, w0⟩ := descriptor_of_offset (n := a.addr - s.platform.regBase) (by omega)
  refine fetchAccess_of_decodeError (e := .byteOffset) hr (busFrame_of_window hw hlo hhi) ?_
  split_ifs
  · exact decode_byteOffset w7 (mt w0.1 h4) _
  · exact decode_byteOffset r7 (mt r0.1 h4) _

/-- Settles O8: the bus refuses the width, and the decoder refuses BO. -/
theorem unsupportedAccessesAreRefused : Obligations.UnsupportedAccessesAreRefused := by
  unfold Obligations.UnsupportedAccessesAreRefused
  intro s a rest hs hr hlo hhi
  exact ⟨fun hw => step_access_refused hs (fetchAccess_of_width hr hw),
    fun hw h4 => step_access_refused hs (fetchAccess_of_misaligned hr hw hlo hhi h4)⟩

/-! ### Command words and spelled-out frames -/

/-- Settles O4: the two words by their numbers, and every other word is illegal. -/
theorem commandWordsAreDecodedWhole : Obligations.CommandWordsAreDecodedWhole := by
  unfold Obligations.CommandWordsAreDecodedWhole
  intro v
  rw [decodeCmd_eq_scalar_iff, decodeCmd_eq_vector_iff, decodeCmd_eq_illegal_iff, ← BitVec.toNat_inj,
    ne_eq, ne_eq, ← BitVec.toNat_inj, ← BitVec.toNat_inj]
  refine ⟨Iff.rfl, Iff.rfl, ?_⟩
  simp only [BitVec.toNat_ofNat]
  omega

/-- Settles O3: each frame is the encoding of its instruction, and decoding gives that back (O1). -/
theorem spelledOutAccessesDecode : Obligations.SpelledOutAccessesDecode := by
  have decode_encode := decodeOfEncodeGivesTheInstruction
  unfold Obligations.DecodeOfEncodeGivesTheInstruction at decode_encode
  exact ⟨decode_encode .convScalar rfl, decode_encode .convVector rfl, decode_encode (.wrCmd 0x12#32) rfl,
    decode_encode .rdStatus rfl, decode_encode (.wrStatus 2#32) rfl, decode_encode (.wrXAddr 0x1000#32) rfl,
    decode_encode (.wrN 10000000#32) rfl, decode_encode .rdOutCount rfl, decode_encode (.wrReserved 1#2 1#32) rfl⟩

/-! ### The registers as the bus reads them -/

theorem ctrlWord_eq_fields (s : State) :
    ctrlWord s = BitVec.ofNat 32 ((if s.irqEn then 1 else 0) + (if s.injAllocFail then 2 else 0)) := by
  rw [ctrlWord_eq]
  cases s.irqEn <;> cases s.injAllocFail <;> rfl

theorem statusWord_eq_fields (s : State) :
    statusWord s = BitVec.ofNat 32 ((if s.phase = .idle then 0 else 1) + (if s.done then 2 else 0)
      + (if s.cmdOvr then 4 else 0) + 256 * s.errcode.toNat) := by
  have hbusy : s.busy.toNat = if s.phase = .idle then 0 else 1 := by
    split_ifs with hp
    · rw [(not_busy_iff s).2 hp]; rfl
    · rw [(busy_iff s).2 hp]; rfl
  have hdone : s.done.toNat * 2 ^ 1 = if s.done then 2 else 0 := by cases s.done <;> rfl
  have hovr : s.cmdOvr.toNat * 2 ^ 2 = if s.cmdOvr then 4 else 0 := by cases s.cmdOvr <;> rfl
  have herr : s.errcode.toNat * 2 ^ 8 = 256 * s.errcode.toNat := Nat.mul_comm _ _
  rw [statusWord_eq, hbusy, hdone, hovr, herr]

/-- Settles O9: the access is the read of register k, whose word is that register's. -/
theorem busReadReturnsTheRegister : Obligations.BusReadReturnsTheRegister := by
  unfold Obligations.BusReadReturnsTheRegister
  intro s k v rest hk hr hs
  rw [step_access hs (fetchAccess_read s v hk hr)]
  interval_cases k
  -- CTRL and STATUS, registers 2 and 3, are words of several fields; every other register is one value.
  pick_goal 3
  · rw [← ctrlWord_eq_fields]; rfl
  pick_goal 3
  · rw [← statusWord_eq_fields]; rfl
  all_goals rfl

end Sys2Proof.Machine

/-! PROOFS. The host's register accesses (40_host_access.md R130 to R159): what an access leaves unchanged, acceptance of a
command, the step that runs an access or gives the engine its turn, and the reads and writes of each register. -/

namespace Sys2Proof.Machine

/-! ### What a register access leaves unchanged -/

/-- Of the host's side an access updates its own register only (R130, R131). -/
theorem hostUpdate_frame (i : Instr) (c : HostSide) :
    ((∀ v, i ≠ .wrXAddr v) → (hostUpdate i c).xAddr = c.xAddr)
      ∧ ((∀ v, i ≠ .wrHAddr v) → (hostUpdate i c).hAddr = c.hAddr)
      ∧ ((∀ v, i ≠ .wrYAddr v) → (hostUpdate i c).yAddr = c.yAddr)
      ∧ ((∀ v, i ≠ .wrN v) → (hostUpdate i c).nReg = c.nReg)
      ∧ ((∀ v, i ≠ .wrM v) → (hostUpdate i c).mReg = c.mReg)
      ∧ ((∀ v, i ≠ .wrCtrl v) →
          (hostUpdate i c).irqEn = c.irqEn ∧ (hostUpdate i c).injAllocFail = c.injAllocFail) := by
  cases i <;> simp [hostUpdate]

/-- DONE and CMD_OVR are updated by the writes of STATUS and of CMD only. -/
theorem hostUpdate_flags {i : Instr} (hs : i ≠ .convScalar) (hv : i ≠ .convVector) (hc : ∀ v, i ≠ .wrCmd v)
    (hw : ∀ v, i ≠ .wrStatus v) (c : HostSide) :
    (hostUpdate i c).done = c.done ∧ (hostUpdate i c).cmdOvr = c.cmdOvr := by
  cases i with
  | convScalar => exact absurd rfl hs
  | convVector => exact absurd rfl hv
  | wrCmd v => exact absurd rfl (hc v)
  | wrStatus v => exact absurd rfl (hw v)
  | _ => exact ⟨rfl, rfl⟩

/-- Of the host's side a command word changes DONE and CMD_OVR only. -/
theorem hostSide_presentCommand (v : Word) (s : State) :
    ∃ d o, hostSide (presentCommand v s) = { hostSide s with done := d, cmdOvr := o } := by
  rcases presentCommand_cases v s with ⟨-, e⟩ | ⟨err, -, -, e⟩ | ⟨-, -, -, e⟩ | ⟨-, -, -, e⟩ <;> rw [e] <;>
    exact ⟨_, _, rfl⟩

/-- But for the flags and the word a read returns, an access makes of the host's side what `hostUpdate` says, whether a
command runs or not. -/
theorem hostSide_of_exec {i : Instr} {s t : State} (h : exec i s = .next t) :
    ∃ d o r, hostSide t = { hostUpdate i (hostSide s) with done := d, cmdOvr := o, hostRead := r } := by
  rcases exec_cases i s with ⟨v, he, hu⟩ | ⟨r, he⟩ <;> obtain rfl := Host.Outcome.next.inj (he.symm.trans h)
  · obtain ⟨d, o, e⟩ := hostSide_presentCommand v s
    exact ⟨d, o, _, by rw [e, hu]⟩
  · exact ⟨_, _, _, rfl⟩

/-- An access that is no write of CMD changes nothing but the host's side. -/
theorem exec_of_not_command {i : Instr} (hs : i ≠ .convScalar) (hv : i ≠ .convVector) (hc : ∀ v, i ≠ .wrCmd v)
    (s : State) : ∃ r, exec i s = .next (setHostSide { hostUpdate i (hostSide s) with hostRead := r } s) := by
  cases i with
  | convScalar => exact absurd rfl hs
  | convVector => exact absurd rfl hv
  | wrCmd v => exact absurd rfl (hc v)
  | _ => exact ⟨_, rfl⟩

/-- A write gives the host no word (R115). -/
theorem hostRead_of_write {i : Instr} {s t : State} (hi : i.isRead = false) (h : exec i s = .next t) :
    t.hostRead = s.hostRead := by
  have hcmd (v : Word) : (presentCommand v s).hostRead = s.hostRead := by
    obtain ⟨d, o, e⟩ := hostSide_presentCommand v s
    exact congrArg HostSide.hostRead e
  cases i with
  | convScalar | convVector | wrCmd v => cases h; exact hcmd _
  | rdId | rdCaps | rdCtrl | rdStatus | rdCmd | rdXAddr | rdHAddr | rdYAddr | rdN | rdM | rdErrAddr | rdOutCount
  | rdReserved j => cases hi
  | _ => cases h; rfl

/-- No register access touches the coefficient RAM, the accumulators or the reset input (10_state.md R47 to R49). -/
theorem exec_datapath {i : Instr} {s t : State} (h : exec i s = .next t) :
    t.coef = s.coef ∧ t.acc = s.acc ∧ t.sacc = s.sacc ∧ t.inReset = s.inReset := by
  rcases exec_cases i s with ⟨v, he, -⟩ | ⟨r, he⟩ <;> obtain rfl := Host.Outcome.next.inj (he.symm.trans h)
  · rcases presentCommand_cases v s with ⟨-, e⟩ | ⟨err, -, -, e⟩ | ⟨-, -, -, e⟩ | ⟨-, -, -, e⟩ <;> rw [e] <;>
      exact ⟨rfl, rfl, rfl, rfl⟩
  · exact ⟨rfl, rfl, rfl, rfl⟩

/-- Settles O19: the host's registers by `hostUpdate`, the command's state because only a write of CMD changes more than
the host's side, and the rest because no access reaches it. -/
theorem accessesChangeOnlyTheirOwnState : Obligations.AccessesChangeOnlyTheirOwnState := by
  unfold Obligations.AccessesChangeOnlyTheirOwnState
  intro i s t h
  obtain ⟨d, o, r, hside⟩ := hostSide_of_exec h
  obtain ⟨hx, hh, hy, hn, hm, hctrl⟩ := hostUpdate_frame i (hostSide s)
  obtain ⟨hmem, htrace, hplat, hsched⟩ := exec_environment h
  obtain ⟨hcoef, hacc, hsacc, hreset⟩ := exec_datapath h
  refine ⟨fun hi => (congrArg HostSide.xAddr hside).trans (hx hi),
    fun hi => (congrArg HostSide.hAddr hside).trans (hh hi), fun hi => (congrArg HostSide.yAddr hside).trans (hy hi),
    fun hi => (congrArg HostSide.nReg hside).trans (hn hi), fun hi => (congrArg HostSide.mReg hside).trans (hm hi),
    fun hi => ⟨(congrArg HostSide.irqEn hside).trans (hctrl hi).1,
      (congrArg HostSide.injAllocFail hside).trans (hctrl hi).2⟩,
    fun hi => hostRead_of_write hi h, fun hs hv hc => ?_,
    hmem, hcoef, hacc, hsacc, hreset, hplat, hsched, htrace⟩
  obtain ⟨w, hw⟩ := exec_of_not_command hs hv hc s
  obtain rfl := Host.Outcome.next.inj (hw.symm.trans h)
  exact ⟨rfl, rfl, rfl, rfl, rfl, rfl, rfl, rfl, rfl, rfl, rfl, rfl, fun hi => hostUpdate_flags hs hv hc hi _⟩

/-! ### Acceptance -/

theorem presentCommand_of_busy {s : State} (hp : s.phase ≠ .idle) (v : Word) :
    presentCommand v s = { s with cmdOvr := true } := if_pos ((busy_iff s).2 hp)

theorem presentCommand_of_idle {s : State} (hp : s.phase = .idle) (v : Word) :
    presentCommand v s = acceptCommand (decodeCmd v) s := if_neg (by simp [(not_busy_iff s).2 hp])

/-- A command that passes its checks is latched and starts (R140). -/
theorem acceptCommand_of_pass {op : Op} {s : State} (h : checkLatched (latchCommand op s) = none) :
    acceptCommand op s = startCommand (latchCommand op s) := by
  simp [acceptCommand, h]

/-- A command that fails a check is latched and completes in the same step (R140, R242). -/
theorem acceptCommand_of_failure {op : Op} {s : State} {e : CmdError}
    (h : checkLatched (latchCommand op s) = some e) : acceptCommand op s = raiseError e (latchCommand op s) := by
  simp [acceptCommand, h]

/-- A write with descriptor 0x50 is the write of CMD with its data word (R110). -/
theorem decode_cmdFrame (v : Word) : decode (0x50#8 :: bytesOf v) = .ok (decodeCmdWrite v) :=
  decode_writeFrame_regOffset 4#4 v

/-- Whichever row a write of CMD is, it presents its data word to the engine (log 3). -/
theorem exec_decodeCmdWrite (v : Word) (s : State) : exec (decodeCmdWrite v) s = .next (presentCommand v s) := by
  rcases decodeCmdWrite_cases v with ⟨rfl, h⟩ | ⟨rfl, h⟩ | ⟨-, h⟩ <;> rw [h] <;> rfl

/-- Settles O20: every row of a CMD write presents a word, and a running engine drops it. -/
theorem commandWhileBusyIsDropped : Obligations.CommandWhileBusyIsDropped := by
  unfold Obligations.CommandWhileBusyIsDropped
  intro s v hp
  have hdrop (w : Word) : presentCommand w s = { s with cmdOvr := true } := presentCommand_of_busy hp w
  refine ⟨⟨decodeCmdWrite v, decode_cmdFrame v, ?_⟩, ?_, ?_, ?_⟩
  · rw [exec_decodeCmdWrite, hdrop]
  all_goals exact congrArg Host.Outcome.next (hdrop _)

/-- Settles O21: an idle engine accepts the word, and each answer of the check is the completion or the start. -/
theorem acceptanceLatchesAndChecks : Obligations.AcceptanceLatchesAndChecks := by
  unfold Obligations.AcceptanceLatchesAndChecks
  intro s i v hp hi
  have hexec : exec i s = .next (presentCommand v s) := by
    rcases hi with hd | rfl | ⟨rfl, rfl⟩ | ⟨rfl, rfl⟩
    · obtain rfl := Except.ok.inj ((decode_cmdFrame v).symm.trans hd)
      exact exec_decodeCmdWrite v s
    all_goals rfl
  rw [hexec, presentCommand_of_idle hp]
  dsimp only
  rw [← decodeCmd]
  generalize hk : check _ _ _ _ _ _ _ = k
  have hc : checkLatched (latchCommand (decodeCmd v) s) = k := hk
  cases k with
  | some err =>
    rw [acceptCommand_of_failure hc]
    cases err with
    | bus a => exact absurd hk (check_ne_bus _ _ _ _ _ _ _ a)
    | _ => rw [hp]; rfl
  | none =>
    rw [acceptCommand_of_pass hc]
    rcases decodeCmdWrite_cases v with ⟨rfl, -⟩ | ⟨rfl, -⟩ | ⟨hv, -⟩
    · rfl
    · rfl
    · rw [(decodeCmd_eq_illegal_iff v).2 hv] at hk
      cases hk

/-- The operands of a command that pass every check but the capacity check of CONV_VECTOR (60_exceptions.md R233 to
R236). -/
structure LegalOperands (x h y n m : Nat) : Prop where
  size : 1 ≤ m ∧ m ≤ n
  aligned : x % 4 = 0 ∧ h % 4 = 0 ∧ y % 4 = 0
  inMemory : x + 4 * n ≤ 2 ^ 32 ∧ h + 4 * m ≤ 2 ^ 32 ∧ y + 4 * n ≤ 2 ^ 32
  signalApart : x + 4 * n ≤ y + 4 * (m - 1) ∨ y + 4 * n ≤ x
  filterApart : h + 4 * m ≤ y + 4 * (m - 1) ∨ y + 4 * n ≤ h

/-- Legal operands pass the check of CONV_SCALAR, and that of CONV_VECTOR if the coefficient RAM holds the filter and no
failure is injected (R237, R240). -/
theorem check_of_legal {op : Op} {x h y n m : Nat} {inj : Bool} (hl : LegalOperands x h y n m) (hop : op ≠ .illegal)
    (hv : op = .vector → m ≤ 256 ∧ inj = false) : check op x h y n m inj = none := by
  obtain ⟨hsize, hmult, hmem, hx, hh⟩ := hl
  have hparam : badParam n m = false := by simp [badParam]; omega
  have halign : badAlign x h y = false := by simp [badAlign]; omega
  have hrange : badRange x h y n m = false := by simp [badRange, Config.memoryBytes]; omega
  have hoverlap : badOverlap x h y n m = false := by simp [badOverlap, overlaps]; omega
  have halloc : badAlloc op m inj = false := by
    by_cases ho : op = .vector
    · obtain ⟨hm, rfl⟩ := hv ho
      simp [badAlloc, ceil8, Config.coefDepth]; omega
    · simp [badAlloc, ho]
  simp [check, hop, hparam, halign, hrange, hoverlap, halloc]

/-- A legal command presented while idle is latched and starts. -/
theorem presentCommand_of_legal {v : Word} {s : State} (hp : s.phase = .idle) (hv : decodeCmd v ≠ .illegal)
    (hl : LegalOperands s.xAddr.toNat s.hAddr.toNat s.yAddr.toNat s.nReg.toNat s.mReg.toNat)
    (ha : decodeCmd v = .vector → s.mReg.toNat ≤ 256 ∧ s.injAllocFail = false) :
    presentCommand v s = startCommand (latchCommand (decodeCmd v) s) :=
  (presentCommand_of_idle hp v).trans (acceptCommand_of_pass (check_of_legal hl hv ha))

/-- Settles O24: legal operands pass the check of CONV_SCALAR, and its start is CONV at n = M - 1. -/
theorem scalarCommandStarts : Obligations.ScalarCommandStarts := by
  unfold Obligations.ScalarCommandStarts
  intro s hp h1 hmn hx4 hh4 hy4 hx hh hy hxy hhy
  exact congrArg Host.Outcome.next (presentCommand_of_legal (v := 0x00000001#32) hp (by decide)
    ⟨⟨h1, hmn⟩, ⟨hx4, hh4, hy4⟩, ⟨hx, hh, hy⟩, hxy, hhy⟩ nofun)

/-- Settles O25: legal operands that fit pass the check of CONV_VECTOR, and its start is PACK at pi = 0. -/
theorem vectorCommandStarts : Obligations.VectorCommandStarts := by
  unfold Obligations.VectorCommandStarts
  intro s hp h1 hmn hx4 hh4 hy4 hx hh hy hxy hhy hm hinj
  exact congrArg Host.Outcome.next (presentCommand_of_legal (v := 0x00000002#32) hp (by decide)
    ⟨⟨h1, hmn⟩, ⟨hx4, hh4, hy4⟩, ⟨hx, hh, hy⟩, hxy, hhy⟩ fun _ => ⟨hm, hinj⟩)

/-! ### The step -/

theorem decode_encode (i : Instr) (h : i.wellFormed = true) : decode (encode i) = .ok i :=
  decodeOfEncodeGivesTheInstruction i h

/-- Settles O6: the bus and the decoder give the instruction, and the bus gives back the frame of an encoding. -/
theorem stepRunsTheDecodedAccess : Obligations.StepRunsTheDecodedAccess := by
  unfold Obligations.StepRunsTheDecodedAccess
  refine ⟨fun s a rest frame i hs hr hb hd => step_access hs (fetchAccess_of_frame hr hb hd),
    fun s rest i hwf hr hs => step_access hs ?_⟩
  exact fetchAccess_of_frame hr (busFrame_accessOfFrame _ i) (decode_encode i hwf)

/-- With nothing scheduled the step is the engine's turn (log 2). -/
theorem step_of_empty {s : State} (h : s.schedule = []) : step s = runEngine s := by
  unfold step
  rw [h]

/-- Settles O7: a turn of the engine, scheduled or not, is its step out of reset and nothing in reset. -/
theorem stepGivesTheEngineItsTurn : Obligations.StepGivesTheEngineItsTurn := by
  unfold Obligations.StepGivesTheEngineItsTurn
  exact ⟨fun _ _ hs hr => (step_engine hs).trans (runEngine_running hr),
    fun _ _ hs hr => (step_engine hs).trans (runEngine_inReset hr),
    fun _ hs hr => (step_of_empty hs).trans (runEngine_running hr),
    fun _ hs hr => (step_of_empty hs).trans (runEngine_inReset hr)⟩

/-! ### Reads of the registers -/

/-- Settles O11: each frame is the encoding of its row, and each read returns its constant. -/
theorem identificationReads : Obligations.IdentificationReads := by
  unfold Obligations.IdentificationReads
  exact ⟨decode_encode .rdId rfl, decode_encode .rdCaps rfl, fun _ => ⟨rfl, rfl⟩⟩

/-- Settles O12: CTRL and STATUS are the numbers of their fields, and CMD reads zero. -/
theorem controlAndStatusReads : Obligations.ControlAndStatusReads := by
  unfold Obligations.ControlAndStatusReads
  refine ⟨decode_encode .rdCtrl rfl, decode_encode .rdStatus rfl, decode_encode .rdCmd rfl, fun s => ?_⟩
  rw [← ctrlWord_eq, ← statusWord_eq]
  exact ⟨rfl, rfl, rfl⟩

/-- Settles O13: each read returns the host's register, not the latched operand. -/
theorem operandReads : Obligations.OperandReads := by
  unfold Obligations.OperandReads
  exact ⟨⟨decode_encode .rdXAddr rfl, decode_encode .rdHAddr rfl, decode_encode .rdYAddr rfl,
    decode_encode .rdN rfl, decode_encode .rdM rfl⟩, fun _ => ⟨rfl, rfl, rfl, rfl, rfl⟩⟩

/-- The offset of the reserved slot j and its write descriptor as numbers (R103, R115). -/
theorem reservedOffset_eq (j : BitVec 2) :
    reservedOffset j = BitVec.ofNat 8 (0x30 + 4 * j.toNat)
      ∧ 0x40#8 ||| reservedOffset j = BitVec.ofNat 8 (0x70 + 4 * j.toNat) := by
  revert j
  decide

/-- Settles O14: the result registers as they are, and zero at the four reserved offsets. -/
theorem resultAndReservedReads : Obligations.ResultAndReservedReads := by
  unfold Obligations.ResultAndReservedReads
  refine ⟨⟨decode_encode .rdErrAddr rfl, decode_encode .rdOutCount rfl, fun j => ?_⟩,
    fun _ => ⟨rfl, rfl, fun _ => rfl⟩⟩
  rw [← (reservedOffset_eq j).1]
  exact decode_encode (.rdReserved j) rfl

/-! ### Writes of the registers -/

/-- Settles O15: each frame is the encoding of its row, and none of these writes is stored. -/
theorem readOnlyAndReservedWritesDoNothing : Obligations.ReadOnlyAndReservedWritesDoNothing := by
  unfold Obligations.ReadOnlyAndReservedWritesDoNothing
  intro s v
  refine ⟨⟨decode_encode (.wrId v) rfl, decode_encode (.wrCaps v) rfl, decode_encode (.wrErrAddr v) rfl,
    decode_encode (.wrOutCount v) rfl, fun j => ?_⟩, rfl, rfl, rfl, rfl, fun _ => rfl⟩
  rw [← (reservedOffset_eq j).2]
  exact decode_encode (.wrReserved j v) rfl

/-- A write of CTRL by the bits of its number (10_state.md R33). -/
theorem setCtrl_eq (v : Word) (s : State) :
    setCtrl v s = { s with irqEn := decide (v.toNat % 2 = 1), injAllocFail := decide (v.toNat / 2 % 2 = 1) } := by
  rw [setCtrl, getLsbD_eq_decide, getLsbD_eq_decide, pow_zero, Nat.div_one, pow_one]

/-- Settles O16: the write is `setCtrl`, and the interrupt output is that of the state after it. -/
theorem ctrlWriteStoresItsFields : Obligations.CtrlWriteStoresItsFields := by
  unfold Obligations.CtrlWriteStoresItsFields
  exact fun s v => ⟨decode_encode (.wrCtrl v) rfl, _, rfl, setCtrl_eq v s, by rw [setCtrl_eq]; rfl⟩

/-- A write of STATUS by the bits of its number (10_state.md R34). -/
theorem clearStatus_eq (v : Word) (s : State) :
    clearStatus v s = { s with
      done := if v.toNat / 2 % 2 = 1 then false else s.done
      cmdOvr := if v.toNat / 4 % 2 = 1 then false else s.cmdOvr } := by
  have hclear (b : Bool) (p : Prop) [Decidable p] : (b && !decide p) = if p then false else b := by
    by_cases hp : p <;> simp [hp]
  simp only [clearStatus, getLsbD_eq_decide, hclear, Nat.reducePow]

/-- Settles O17: the write is `clearStatus`. -/
theorem statusWriteClearsWhereOne : Obligations.StatusWriteClearsWhereOne := by
  unfold Obligations.StatusWriteClearsWhereOne
  exact fun s v => ⟨decode_encode (.wrStatus v) rfl, congrArg Host.Outcome.next (clearStatus_eq v s)⟩

/-- Settles O18: each frame is the encoding of its row, and each write stores the word in its register alone. -/
theorem operandWrites : Obligations.OperandWrites := by
  unfold Obligations.OperandWrites
  exact fun s v => ⟨⟨decode_encode (.wrXAddr v) rfl, decode_encode (.wrHAddr v) rfl,
    decode_encode (.wrYAddr v) rfl, decode_encode (.wrN v) rfl, decode_encode (.wrM v) rfl⟩,
    rfl, rfl, rfl, rfl, rfl⟩

end Sys2Proof.Machine

/-! PROOFS. The values the two commands write (41_scalar_convolution.md R178; 42_vector_convolution.md R203 to R205): a
fold of sums that starts from +0.0 is never -0.0, keeps a NaN, and with one tap is the product. -/

namespace Sys2Proof.Machine

/-! ### -0.0 -/

/-- A value that is no zero does not round to a zero of either sign. -/
theorem f32Round_ne_negZero (neg : Bool) {m : Nat} (hm : m ≠ 0) : f32Round neg m 0 ≠ 0x80000000#32 := by
  have hpos := roundBits_pos hm
  intro h
  have hn := congrArg BitVec.toNat h
  rw [f32Round_toNat, BitVec.toNat_ofNat] at hn
  cases neg <;> simp only [Bool.false_eq_true, if_false, if_true] at hn <;> omega

theorem f32IsInf_ne_negZero {w : Word} (h : f32IsInf w = true) : w ≠ 0x80000000#32 := by
  rintro rfl
  exact absurd h (by decide)

/-- A sum is -0.0 only if its addends are (R14). -/
theorem f32Add_ne_negZero {a b : Word} (ha : a ≠ 0x80000000#32) : f32Add a b ≠ 0x80000000#32 := by
  rcases f32_nan_or_inf_or_finite a with hka | hka | hka
  · rw [f32Add_of_nan (.inl hka)]; decide
  · rcases f32_nan_or_inf_or_finite b with hkb | hkb | hkb
    · rw [f32Add_of_nan (.inr hkb)]; decide
    · rw [f32Add_of_inf_inf hka hkb]
      split
      · exact ha
      · decide
    · rwa [f32Add_of_inf_finite hka hkb]
  · rcases f32_nan_or_inf_or_finite b with hkb | hkb | hkb
    · rw [f32Add_of_nan (.inr hkb)]; decide
    · rw [f32Add_of_finite_inf hka hkb]
      exact f32IsInf_ne_negZero hkb
    · by_cases h0 : f32Val a + f32Val b = 0
      · rw [f32Add_zero_sum_eq hka hkb h0, if_neg fun h => ha h.1]
        decide
      · rw [f32Add_of_nonzero_sum hka hkb h0]
        exact f32Round_ne_negZero _ (Int.natAbs_ne_zero.2 h0)

/-- A fold of sums that does not start from -0.0 does not end there. -/
theorem foldl_f32Add_ne_negZero {ι : Type} (term : ι → Word) (ls : List ι) {acc : Word} (h : acc ≠ 0x80000000#32) :
    ls.foldl (fun a i => f32Add a (term i)) acc ≠ 0x80000000#32 := by
  induction ls generalizing acc with
  | nil => exact h
  | cons i ls ih => exact ih (f32Add_ne_negZero h)

theorem scalarValue_ne_negZero (m : Memory) (x h taps n : Nat) : scalarValue m x h taps n ≠ 0x80000000#32 :=
  foldl_f32Add_ne_negZero _ _ (by decide)

theorem laneValue_ne_negZero (m : Memory) (x h taps n j : Nat) : laneValue m x h taps n j ≠ 0x80000000#32 :=
  foldl_f32Add_ne_negZero _ _ (by decide)

/-- Settles O56: each value is a fold of sums from +0.0, and the reduction tree sums lanes that are not -0.0. -/
theorem outputsAreNeverNegativeZero : Obligations.OutputsAreNeverNegativeZero := by
  unfold Obligations.OutputsAreNeverNegativeZero
  intro m x h taps n
  refine ⟨scalarValue_ne_negZero m x h taps n, ?_⟩
  exact f32Add_ne_negZero (f32Add_ne_negZero (f32Add_ne_negZero (laneValue_ne_negZero m x h taps n 0)))

/-! ### NaN -/

@[simp] theorem f32Add_nan_left (b : Word) : f32Add f32NaN b = f32NaN := f32Add_of_nan (.inl (by decide))

@[simp] theorem f32Add_nan_right (a : Word) : f32Add a f32NaN = f32NaN := f32Add_of_nan (.inr (by decide))

theorem foldl_f32Add_from_nan {ι : Type} (term : ι → Word) (ls : List ι) :
    ls.foldl (fun a i => f32Add a (term i)) f32NaN = f32NaN := by
  induction ls with
  | nil => rfl
  | cons i ls ih => rwa [List.foldl_cons, f32Add_nan_left]

/-- A fold of sums with a NaN among its terms is the canonical NaN. -/
theorem foldl_f32Add_of_nan_mem {ι : Type} (term : ι → Word) {ls : List ι} {i : ι} (hi : i ∈ ls)
    (hterm : term i = f32NaN) (acc : Word) : ls.foldl (fun a i => f32Add a (term i)) acc = f32NaN := by
  induction ls generalizing acc with
  | nil => cases hi
  | cons l ls ih =>
    rw [List.foldl_cons]
    rcases List.mem_cons.1 hi with rfl | hi
    · rw [hterm, f32Add_nan_right]
      exact foldl_f32Add_from_nan term ls
    · exact ih hi _

/-- The value of CONV_SCALAR with a NaN product. -/
theorem scalarValue_of_nan {m : Memory} {x h taps n k : Nat} (hk : k < taps)
    (hp : f32Mul (m.readWord (h + 4 * k)) (m.readWord (x + 4 * (n - k))) = f32NaN) :
    scalarValue m x h taps n = f32NaN :=
  foldl_f32Add_of_nan_mem _ (List.mem_range.2 hk) hp _

/-- The lane of CONV_VECTOR that has a NaN product. -/
theorem laneValue_of_nan {m : Memory} {x h taps n k : Nat} (hk : k < taps)
    (hp : f32Mul (m.readWord (h + 4 * k)) (m.readWord (x + 4 * (n - k))) = f32NaN) :
    laneValue m x h taps n (7 - k % 8) = f32NaN := by
  have htap : tapOf (k / 8) (7 - k % 8) = k := by unfold tapOf; omega
  have hblock : k / 8 < ceil8 taps / 8 := by unfold ceil8; omega
  exact foldl_f32Add_of_nan_mem _ (List.mem_range.2 hblock) (by rw [htap, if_pos hk, hp]) _

/-- The reduction tree keeps the NaN of any lane. -/
theorem vectorValue_of_nan_lane {m : Memory} {x h taps n j : Nat} (hj : j < 8)
    (hlane : laneValue m x h taps n j = f32NaN) : vectorValue m x h taps n = f32NaN := by
  unfold vectorValue
  interval_cases j <;> simp [hlane]

/-- Settles O57: the product of the tap is NaN, and the sums and the reduction tree keep it. -/
theorem nanReachesTheOutput : Obligations.NaNReachesTheOutput := by
  unfold Obligations.NaNReachesTheOutput
  intro m x h taps n k hk hnan
  have hp := f32Mul_of_nan hnan
  exact ⟨scalarValue_of_nan hk hp, vectorValue_of_nan_lane (by omega) (laneValue_of_nan hk hp)⟩

/-! ### One tap -/

/-- The patterns of magnitude zero (R12). -/
theorem eq_zero_of_mag {w : Word} (h : f32Mag w = 0) : w = 0x80000000#32 ∨ w = 0x00000000#32 := by
  obtain ⟨he, hf⟩ := (f32Mag_eq_zero w).1 h
  cases hs : f32Sign w
  · exact .inr (f32_ext (hs.trans (by decide)) (he.trans (by decide)) (hf.trans (by decide)))
  · exact .inl ((eq_negZero_iff w).2 ⟨hs, h⟩)

/-- Rounding the value of a finite pattern that is no zero gives the pattern back. -/
theorem f32Round_val {w : Word} (hw : f32Expo w < 255) (h0 : f32Val w ≠ 0) :
    f32Round (decide (f32Val w < 0)) (f32Val w).natAbs 0 = w := by
  have hneg : decide (f32Val w < 0) = f32Sign w := by
    obtain ⟨hn, hp⟩ := signOf_f32Sign w
    rcases lt_or_gt_of_ne h0 with hlt | hgt
    · rw [hn hlt, decide_eq_true hlt]
    · rw [hp hgt, decide_eq_false hgt.not_gt]
  rw [hneg, f32Val_natAbs]
  exact f32Round_exact hw (by rwa [← f32Val_natAbs, Int.natAbs_ne_zero])

/-- A sum of +0.0 and a value whose NaN is canonical is that value, a -0.0 turned into +0.0 (R14). -/
theorem f32Add_posZero_left {w : Word} (hnan : f32IsNaN w = true → w = f32NaN) :
    f32Add 0x00000000#32 w = if w = 0x80000000#32 then 0x00000000#32 else w := by
  have hz : f32Expo 0x00000000#32 < 255 := by decide
  have hsum : f32Val 0x00000000#32 + f32Val w = f32Val w := Int.zero_add _
  rcases f32_nan_or_inf_or_finite w with hk | hk | hk
  · rw [hnan hk]; decide
  · rw [f32Add_of_finite_inf hz hk, if_neg (f32IsInf_ne_negZero hk)]
  · by_cases h0 : f32Val w = 0
    · rcases eq_zero_of_mag (by rw [← f32Val_natAbs, h0]; rfl) with rfl | rfl <;> decide
    · have hw : w ≠ 0x80000000#32 := by rintro rfl; exact h0 (by decide)
      rw [f32Add_of_nonzero_sum hz hk (hsum.trans_ne h0), hsum, f32Round_val hk h0, if_neg hw]

/-- Adding +0.0 leaves a value that is not -0.0 and whose NaN is canonical (R204). -/
theorem f32Add_posZero_of_ne {w : Word} (hnan : f32IsNaN w = true → w = f32NaN) (hw : w ≠ 0x80000000#32) :
    f32Add 0x00000000#32 w = w := by
  rw [f32Add_posZero_left hnan, if_neg hw]

/-- With one tap there is one block, and lane j adds one term to +0.0. -/
theorem laneValue_one_tap (m : Memory) (x h n j : Nat) :
    laneValue m x h 1 n j = f32Add 0x00000000#32
      (if tapOf 0 j < 1 then f32Mul (m.readWord (h + 4 * tapOf 0 j)) (m.readWord (x + 4 * (n - tapOf 0 j)))
      else 0x00000000#32) := by
  simp [laneValue, ceil8]

theorem scalarValue_one_tap (m : Memory) (x h n : Nat) :
    scalarValue m x h 1 n = f32Add 0x00000000#32 (f32Mul (m.readWord h) (m.readWord (x + 4 * n))) := by
  simp [scalarValue]

/-- With one tap the lanes 0 to 6 are padding. -/
theorem laneValue_one_padding (m : Memory) (x h n : Nat) {j : Nat} (hj : j < 7) :
    laneValue m x h 1 n j = 0x00000000#32 := by
  rw [laneValue_one_tap, if_neg (by unfold tapOf; omega)]
  decide

/-- With one tap lane 7 adds what CONV_SCALAR adds. -/
theorem laneValue_one_last (m : Memory) (x h n : Nat) : laneValue m x h 1 n 7 = scalarValue m x h 1 n := by
  simp [laneValue_one_tap, scalarValue_one_tap, tapOf]

/-- With one tap the reduction tree adds +0.0 to lane 7. -/
theorem vectorValue_one_tap (m : Memory) (x h n : Nat) : vectorValue m x h 1 n = scalarValue m x h 1 n := by
  have hkeep : f32Add 0x00000000#32 (scalarValue m x h 1 n) = scalarValue m x h 1 n :=
    f32Add_posZero_of_ne f32Add_eq_nan (scalarValue_ne_negZero m x h 1 n)
  have hzero : f32Add 0x00000000#32 0x00000000#32 = 0x00000000#32 := by decide
  simp [vectorValue, laneValue_one_padding, laneValue_one_last, hzero, hkeep]

/-- Settles O59: the value of CONV_SCALAR is +0.0 with the product added, and CONV_VECTOR has the same value. -/
theorem oneTapGivesTheProduct : Obligations.OneTapGivesTheProduct := by
  unfold Obligations.OneTapGivesTheProduct
  intro m x h n
  have hscalar := (scalarValue_one_tap m x h n).trans (f32Add_posZero_left f32Mul_eq_nan)
  exact ⟨hscalar, (vectorValue_one_tap m x h n).trans hscalar⟩

end Sys2Proof.Machine

/-! PROOFS. CONV_SCALAR (41_scalar_convolution.md R170 to R175): one element step, the run of the element steps of a
command, and the whole command from its CMD write. -/

namespace Sys2Proof.Machine

/-! ### One element step -/

theorem engineStep_of_scalar {s : State} (hp : s.phase = .conv) (ho : s.lOp = .scalar) :
    engineStep s = scalarStep s := by
  simp [engineStep, hp, ho]

/-- The loop of R172 when its reads are answered. -/
theorem scalarLoop_of_answered {s : State} (h : ∀ a ∈ scalarAccesses s, Answered s a) :
    scalarLoop s (List.range s.lM.toNat) 0x00000000#32 =
      (scalarValue s.mem s.lX.toNat s.lH.toNat s.lM.toNat s.n, .ok ()) := by
  have hstop : (scalarLoop s (List.range s.lM.toNat) 0x00000000#32).2 = .ok () := by
    rw [scalarLoop_stop]
    exact firstStop_all_answered fun a ha => h a (List.mem_append_left _ ha)
  exact Prod.ext (scalarLoop_sum s _ _ hstop) hstop

/-- Settles O28: the loop ends with the sum, and the write of y[n] is the last access. -/
theorem scalarElementStepWritesTheSum : Obligations.ScalarElementStepWritesTheSum := by
  unfold Obligations.ScalarElementStepWritesTheSum
  intro s hp ho h
  have hw : Answered s ⟨.write, yElem s s.n⟩ := h _ (List.mem_append_right _ List.mem_cons_self)
  rw [engineStep_of_scalar hp ho, scalarStep, scalarLoop_of_answered h]
  simp only [record, performed_all_answered h]
  exact storeElement_answered hw

/-! ### The accesses of a running command -/

/-- Without bus errors the accesses in the regions of a running command are answered (20_memory.md R80). -/
theorem answered_of_inRegions {s : State} (hi : Inv s) (hb : s.busy = true) (he : NoBusErrors s) {a : MemAccess}
    (ha : InRegions s a) : Answered s a := by
  obtain ⟨-, -, -, -, -, -, hx, hh, hy, -⟩ := check_none (hi.busy_checked hb)
  obtain ⟨-, ha⟩ := ha
  refine ⟨?_, he _ _⟩
  simp only [Config.memoryBytes]
  split at ha <;> omega

/-! ### Elements written to memory -/

/-- The memory `new` is `old` with the elements lo to hi - 1 of the buffer at y written. -/
structure ElementsWritten (old : Memory) (y lo hi : Nat) (value : Nat → Word) (new : Memory) : Prop where
  element : ∀ n, lo ≤ n → n < hi → new.readWord (y + 4 * n) = value n
  other : ∀ a, a < y + 4 * lo ∨ y + 4 * hi ≤ a → new.readByte a = old.readByte a

theorem ElementsWritten.none (m : Memory) (y lo : Nat) (value : Nat → Word) : ElementsWritten m y lo lo value m where
  element := fun n h1 h2 => by omega
  other := fun _ _ => rfl

/-- The write of the next element. -/
theorem ElementsWritten.next {old new : Memory} {y lo hi : Nat} {value : Nat → Word}
    (h : ElementsWritten old y lo hi value new) (hlo : lo ≤ hi) (hwf : new.wf = true)
    (hin : y + 4 * hi + 4 ≤ Config.memoryBytes) :
    ElementsWritten old y lo (hi + 1) value (new.writeWord (y + 4 * hi) (value hi)) where
  element n h1 h2 := by
    rcases Nat.lt_succ_iff_lt_or_eq.1 h2 with hn | rfl
    · rw [Memory.readWord_writeWord_other _ _ (by omega)]
      exact h.element n h1 hn
    · exact Memory.readWord_writeWord_same hwf hin _
  other a ha := by
    rw [Memory.readByte_writeWord_other _ _ (by omega)]
    exact h.other a (by omega)

/-- An element that shares no byte with the written ones reads as before. -/
theorem ElementsWritten.readWord_other {old new : Memory} {y lo hi : Nat} {value : Nat → Word}
    (h : ElementsWritten old y lo hi value new) {a : Nat} (ha : a + 4 ≤ y + 4 * lo ∨ y + 4 * hi ≤ a) :
    new.readWord a = old.readWord a :=
  Memory.readWord_congr fun c h1 h2 => h.other c (by omega)

/-! ### The element steps of a running command -/

/-- The state `c` with the fields of `t` that the element steps and the schedule change (60_exceptions.md R239). -/
def withProgress (t c : State) : State :=
  { c with
    n := t.n, outCount := t.outCount, acc := t.acc, sacc := t.sacc, mem := t.mem, busTrace := t.busTrace
    schedule := t.schedule }

theorem withProgress_trans {c t u : State} (h : t = withProgress t c) (hu : u = withProgress u t) :
    u = withProgress u c := by
  have hc := congrArg (withProgress u) h
  exact hu.trans hc

/-- The run from the state `c`, in which a command enters CONV, has come to `t`: the elements before n stand in memory
with their values, and nothing else has changed but the progress of the run (R175). -/
structure ConvRun (c : State) (value : Nat → Word) (t : State) : Prop where
  inv : Inv t
  running : t.inReset = false
  conv : t.phase = .conv
  frame : t = withProgress t c
  written : ElementsWritten c.mem c.lY.toNat (c.lM.toNat - 1) t.n value t.mem

/-- The run from `c` has come to its normal completion (60_exceptions.md R241). -/
structure ConvDone (c : State) (value : Nat → Word) (t : State) : Prop where
  idle : t.busy = false
  done : t.done = true
  errcode : t.errcode = 0#4
  errAddr : t.errAddr = 0x00000000#32
  count : t.outCount.toNat = c.lN.toNat - c.lM.toNat + 1
  written : ElementsWritten c.mem c.lY.toNat (c.lM.toNat - 1) c.lN.toNat value t.mem

/-- `u` comes after the element step of `t`: the next element is due, or the command has completed (R174). -/
def AfterElement (c : State) (value : Nat → Word) (t u : State) : Prop :=
  (t.n + 1 ≠ t.lN.toNat ∧ u.n = t.n + 1 ∧ ConvRun c value u) ∨ (t.n + 1 = t.lN.toNat ∧ ConvDone c value u)

/-- An engine step at `t` that writes `v` to y[n] and counts it. -/
def WritesElement (v : Word) (t : State) : Prop :=
  ∃ u, engineStep t = .next u ∧ u.mem = t.mem.writeWord (yElem t t.n) v ∧ u.outCount = t.outCount + 1#32

section
variable {c t : State} {value : Nat → Word}

theorem ConvRun.busy (h : ConvRun c value t) : t.busy = true :=
  (busy_iff t).2 (by rw [h.conv]; decide)

/-- The latched command and the platform stay through the run. -/
theorem ConvRun.latched (h : ConvRun c value t) :
    t.lOp = c.lOp ∧ t.lX = c.lX ∧ t.lH = c.lH ∧ t.lY = c.lY ∧ t.lN = c.lN ∧ t.lM = c.lM
      ∧ t.platform = c.platform := by
  rw [h.frame]
  exact ⟨rfl, rfl, rfl, rfl, rfl, rfl, rfl⟩

theorem ConvRun.start (value : Nat → Word) (hi : Inv c) (hr : c.inReset = false) (hp : c.phase = .conv)
    (hn : c.n = c.lM.toNat - 1) : ConvRun c value c where
  inv := hi
  running := hr
  conv := hp
  frame := rfl
  written := hn ▸ ElementsWritten.none ..

theorem ConvRun.setSchedule (h : ConvRun c value t) (es : List Event) :
    ConvRun c value { t with schedule := es } where
  inv := h.inv.setEnvironment es h.inv.mem_wf t.hostRead
  running := h.running
  conv := h.conv
  frame := withProgress_trans h.frame rfl
  written := h.written

/-- The count that a step makes is exact: the elements are fewer than 2^32. -/
theorem count_succ {w : Word} {k : Nat} (hw : w.toNat = k) (hk : k + 1 < 2 ^ 32) : (w + 1#32).toNat = k + 1 := by
  rw [BitVec.toNat_add, hw, BitVec.toNat_ofNat]
  omega

/-- An element step goes on to the next element, or completes the command after the last. -/
theorem ConvRun.next (h : ConvRun c value t) (hw : WritesElement (value t.n) t) :
    ∃ u, engineStep t = .next u ∧ u.schedule = t.schedule ∧ AfterElement c value t u := by
  obtain ⟨u, he, hm, hc⟩ := hw
  have hinv := engineStep_keeps_inv h.inv h.running he
  have hN : t.lN.toNat < 2 ^ 32 := t.lN.isLt
  obtain ⟨-, hM, -⟩ := check_none (h.inv.busy_checked h.busy)
  obtain ⟨-, -, haddr⟩ := h.inv.result_of_busy h.busy
  obtain ⟨hlo, hhi, hout⟩ := h.inv.conv_position h.conv
  obtain ⟨-, -, -, hlY, hlN, hlM, -⟩ := h.latched
  have hmem : Answered t ⟨.write, yElem t t.n⟩ →
      ElementsWritten c.mem c.lY.toNat (c.lM.toNat - 1) (t.n + 1) value u.mem := fun ha => by
    rw [hm, yElem, hlY]
    exact h.written.next (by rwa [← hlM]) h.inv.mem_wf (by rw [← hlY]; exact ha.1)
  rcases engineStep_cases he with ⟨hp, -⟩ | ⟨hp, -, -⟩ | ⟨-, _, _, _, _, rfl⟩
    | ⟨-, -, hn, ha, _, _, _, v, rfl⟩ | ⟨-, -, hn, ha, _, _, _, v, rfl⟩
  · exact absurd (hp.symm.trans h.conv) (by decide)
  · exact absurd (hp.symm.trans h.conv) (by decide)
  · exact absurd hc (by simp)
  · refine ⟨_, he, rfl, .inr ⟨hn, rfl, rfl, rfl, haddr, ?_, ?_⟩⟩
    · exact (count_succ hout (by omega)).trans (by rw [← hlM, ← hlN]; omega)
    · rw [← hlN, ← hn]
      exact hmem ha
  · exact ⟨_, he, rfl, .inl ⟨hn, rfl, hinv, h.running, h.conv, withProgress_trans h.frame rfl, hmem ha⟩⟩

/-- In the run from `c` every engine step writes its element. -/
def WritesItsElements (c : State) (value : Nat → Word) : Prop :=
  ∀ t, ConvRun c value t → WritesElement (value t.n) t

/-- A turn of the engine in the run. -/
theorem ConvRun.engineTurn {es : List Event} (h : ConvRun c value t)
    (hw : WritesItsElements c value) (hs : t.schedule = .engine :: es) :
    ∃ u, step t = .next u ∧ u.schedule = es ∧ AfterElement c value t u := by
  have ht := h.setSchedule es
  rw [step_engine hs, runEngine_running ht.running]
  exact ht.next (hw _ ht)

/-- As many turns of the engine as leave an element due make that many elements. -/
theorem ConvRun.engineTurns {k : Nat} {es : List Event} (h : ConvRun c value t)
    (hw : WritesItsElements c value) (hs : t.schedule = List.replicate k .engine ++ es) (hk : t.n + k < c.lN.toNat) :
    ∃ u, runSteps k t = .next u ∧ u.schedule = es ∧ u.n = t.n + k ∧ ConvRun c value u := by
  induction k generalizing t with
  | zero => exact ⟨t, rfl, hs, rfl, h⟩
  | succ k ih =>
    obtain ⟨u, hstep, hsched, ⟨-, hn, hu⟩ | ⟨hlast, -⟩⟩ := h.engineTurn hw hs
    · obtain ⟨v, hrun, hv⟩ := ih hu hsched (by omega)
      rw [hn, Nat.add_assoc, Nat.add_comm 1 k] at hv
      exact ⟨v, by rw [Nat.add_comm k 1, runSteps_step hstep, hrun], hv⟩
    · obtain ⟨-, -, -, -, hlN, -⟩ := h.latched
      rw [hlN] at hlast
      omega

/-- The turns of the engine from the entry of CONV to the completion. -/
theorem ConvRun.completes {k : Nat} {es : List Event} (h : ConvRun c value t)
    (hw : WritesItsElements c value) (hs : t.schedule = List.replicate (k + 1) .engine ++ es)
    (hk : t.n + (k + 1) = c.lN.toNat) :
    ∃ u, runSteps (k + 1) t = .next u ∧ u.schedule = es ∧ ConvDone c value u := by
  rw [List.replicate_succ', List.append_assoc] at hs
  obtain ⟨u, hrun, hsched, hn, hu⟩ := h.engineTurns hw hs (by omega)
  obtain ⟨-, -, -, -, hlN, -⟩ := hu.latched
  obtain ⟨v, hstep, hsched', ⟨hne, -⟩ | ⟨-, hv⟩⟩ := hu.engineTurn hw hsched
  · exact absurd (by rw [hn, hlN]; omega) hne
  · exact ⟨v, by rw [runSteps_snoc hrun, hstep], hsched', hv⟩

/-- While the run goes on, DONE is 0 and OUT_COUNT counts its element steps. -/
theorem ConvRun.status {k : Nat} (h : ConvRun c value t)
    (hc : c.n = c.lM.toNat - 1) (hn : t.n = c.n + k) : t.done = false ∧ t.outCount.toNat = k := by
  obtain ⟨hd, -⟩ := h.inv.result_of_busy h.busy
  obtain ⟨-, -, hout⟩ := h.inv.conv_position h.conv
  obtain ⟨-, -, -, -, -, hlM, -⟩ := h.latched
  rw [hlM] at hout
  exact ⟨hd, by omega⟩

/-! ### The inputs of a run -/

/-- The run writes no tap: the filter is apart from the elements (60_exceptions.md R236). -/
theorem ConvRun.readWord_hElem (h : ConvRun c value t) {k : Nat}
    (hk : k < t.lM.toNat) : t.mem.readWord (hElem t k) = c.mem.readWord (hElem t k) := by
  obtain ⟨-, -, -, -, -, -, -, -, -, -, hapart, -⟩ := check_none (h.inv.busy_checked h.busy)
  obtain ⟨-, hn, -⟩ := h.inv.conv_position h.conv
  obtain ⟨-, -, -, hlY, -, hlM, -⟩ := h.latched
  apply h.written.readWord_other
  rw [← hlY, ← hlM, hElem]
  omega

/-- The run writes no sample: the signal is apart from the elements (R236). -/
theorem ConvRun.readWord_xElem (h : ConvRun c value t) {i : Nat}
    (hi : i < t.lN.toNat) : t.mem.readWord (xElem t i) = c.mem.readWord (xElem t i) := by
  obtain ⟨-, -, -, -, -, -, -, -, -, hapart, -⟩ := check_none (h.inv.busy_checked h.busy)
  obtain ⟨-, hn, -⟩ := h.inv.conv_position h.conv
  obtain ⟨-, -, -, hlY, -, hlM, -⟩ := h.latched
  apply h.written.readWord_other
  rw [← hlY, ← hlM, xElem]
  omega

end

/-- The value of y[n] is that of its taps and of its window. -/
theorem scalarValue_congr {m m' : Memory} {x h taps n : Nat}
    (hh : ∀ k < taps, m'.readWord (h + 4 * k) = m.readWord (h + 4 * k))
    (hx : ∀ i ≤ n, m'.readWord (x + 4 * i) = m.readWord (x + 4 * i)) :
    scalarValue m' x h taps n = scalarValue m x h taps n := by
  apply List.foldl_ext
  intro acc k hk
  rw [hh k (List.mem_range.1 hk), hx (n - k) (Nat.sub_le n k)]

/-- Every element step of CONV_SCALAR writes the sum over the signal and the filter as they stood at the start. -/
theorem scalar_writesItsElements {c : State} (ho : c.lOp = .scalar) (he : NoBusErrors c) :
    WritesItsElements c (scalarValue c.mem c.lX.toNat c.lH.toNat c.lM.toNat) := by
  intro t ht
  obtain ⟨hlOp, hlX, hlH, -, -, hlM, hplatform⟩ := ht.latched
  obtain ⟨-, hn, -⟩ := ht.inv.conv_position ht.conv
  have hbus : NoBusErrors t := fun d a => by rw [busErr, hplatform]; exact he d a
  have hanswered : ∀ a ∈ scalarAccesses t, Answered t a := fun a ha =>
    answered_of_inRegions ht.inv ht.busy hbus (scalarAccesses_inRegions ht.inv ht.busy ht.conv a ha)
  have hvalue : scalarValue t.mem t.lX.toNat t.lH.toNat t.lM.toNat t.n =
      scalarValue c.mem t.lX.toNat t.lH.toNat t.lM.toNat t.n :=
    scalarValue_congr (fun k hk => ht.readWord_hElem hk) fun i hi => ht.readWord_xElem (lt_of_le_of_lt hi hn)
  rw [← hlX, ← hlH, ← hlM, ← hvalue]
  refine ⟨_, scalarElementStepWritesTheSum t ht.conv (hlOp.trans ho) hanswered, ?_, ?_⟩ <;>
    dsimp only <;> split <;> rfl

/-! ### The whole command -/

/-- A command that passes its checks starts in a state that meets the invariant (R140). -/
theorem inv_startCommand {op : Op} {s : State} (hr : s.inReset = false) (hm : s.mem.wf = true)
    (hc : checkLatched (latchCommand op s) = none) : Inv (startCommand (latchCommand op s)) := by
  obtain ⟨hop, h1, h2, -⟩ := check_none hc
  have hc' := check_none_without_injection hc
  cases op with
  | scalar =>
    exact Inv.of_running hr hm rfl rfl rfl hc' nofun fun _ =>
      ⟨le_rfl, Nat.sub_one_lt_of_le h1 h2, (Nat.sub_self _).symm⟩
  | vector => exact Inv.of_running hr hm rfl rfl rfl hc' (fun _ => ⟨rfl, mPad_pos h1, rfl⟩) nofun
  | illegal => exact absurd rfl hop

/-- The state in which a CONV_SCALAR accepted in `s` enters CONV (R140). -/
def scalarStart (s : State) : State := startCommand (latchCommand .scalar s)

/-- The CMD write of a CONV_SCALAR that passes its checks starts it. -/
theorem step_convScalar {s : State} {es : List Event} (hp : s.phase = .idle) (hr : s.inReset = false)
    (hs : s.schedule = .access (accessOfFrame s.platform (encode .convScalar)) :: es)
    (hc : checkLatched (latchCommand .scalar s) = none) :
    step s = .next (scalarStart { s with schedule := es }) := by
  rw [stepRunsTheDecodedAccess.2 s es .convScalar rfl hr hs]
  exact congrArg Host.Outcome.next
    ((presentCommand_of_idle (s := { s with schedule := es }) hp 0x00000001#32).trans (acceptCommand_of_pass hc))

/-- The start is the beginning of a run, whose elements have the values of R172. -/
theorem scalarStart_convRun {s : State} (hr : s.inReset = false) (hm : s.mem.wf = true) (he : NoBusErrors s)
    (hc : checkLatched (latchCommand .scalar s) = none) :
    let value := scalarValue s.mem s.xAddr.toNat s.hAddr.toNat s.mReg.toNat
    ConvRun (scalarStart s) value (scalarStart s) ∧ WritesItsElements (scalarStart s) value :=
  ⟨ConvRun.start _ (inv_startCommand hr hm hc) hr rfl rfl, scalar_writesItsElements rfl he⟩

/-- Settles O36: the CMD write enters CONV, and the turns of the engine are a run of element steps from there. -/
theorem scalarCommandComputesTheConvolution : Obligations.ScalarCommandComputesTheConvolution := by
  unfold Obligations.ScalarCommandComputesTheConvolution
  intro s rest hp hr hwf he hs hc
  obtain ⟨-, hM, hMN, -⟩ := check_none hc
  have hstart := step_convScalar hp hr hs hc
  generalize hlen : s.nReg.toNat - s.mReg.toNat = len at hstart ⊢
  generalize hes : List.replicate (len + 1) Event.engine ++ rest = es at hstart
  obtain ⟨hrun, hw⟩ := scalarStart_convRun (s := { s with schedule := es }) hr hwf he hc
  refine ⟨fun k hk => ?_, ?_⟩
  · have hsplit : es = List.replicate k .engine ++ (List.replicate (len + 1 - k) .engine ++ rest) := by
      rw [← hes, ← List.append_assoc, ← List.replicate_add, Nat.add_sub_cancel' (by omega)]
    have hdue : s.mReg.toNat - 1 + k < s.nReg.toNat := by omega
    obtain ⟨t, hsteps, -, hn, ht⟩ := hrun.engineTurns hw hsplit hdue
    exact ⟨t, (runSteps_step hstart k).trans hsteps, ht.busy, ht.status rfl hn⟩
  · have hlast : s.mReg.toNat - 1 + (len + 1) = s.nReg.toNat := by omega
    obtain ⟨u, hsteps, hrest, hu⟩ := hrun.completes hw hes.symm hlast
    exact ⟨u, (runSteps_step hstart _).trans hsteps, hrest, hu.idle, hu.done, hu.errcode, hu.errAddr,
      hlen ▸ hu.count, hu.written.element, hu.written.other⟩

end Sys2Proof.Machine

/-! PROOFS. CONV_VECTOR (42_vector_convolution.md R190 to R206): the lanes and the slots of the taps, packing, one
element step, and the whole command from its CMD write. -/

namespace Sys2Proof.Machine

/-! ### Lanes and slots -/

theorem slot_involutive : Function.Involutive slot := fun t => by
  unfold slot
  omega

/-- The lane that multiplies tap t is the tap's slot (R192, R195). -/
theorem tapOf_eq_iff {b j : Nat} (hj : j < 8) (t : Nat) : tapOf b j = t ↔ 8 * b + j = slot t := by
  unfold tapOf slot
  omega

theorem slot_tapOf (b : Nat) (j : Fin 8) : slot (tapOf b j) = 8 * b + j := ((tapOf_eq_iff j.isLt _).1 rfl).symm

/-- The slots of the padded filter are its own entries. -/
theorem slot_lt_ceil8 {i m : Nat} (h : i < ceil8 m) : slot i < ceil8 m := by
  unfold ceil8 at h ⊢
  unfold slot
  omega

/-- Settles O60: a slot is reversed within its block, and the lanes are the slots. -/
theorem everyTapHasItsLane : Obligations.EveryTapHasItsLane := by
  unfold Obligations.EveryTapHasItsLane
  intro t
  refine ⟨slot_involutive t, ?_, ?_, fun b j hj => tapOf_eq_iff hj t⟩
  · unfold slot
    omega
  · exact (tapOf_eq_iff (Nat.mod_lt _ (by decide)) t).2 (Nat.div_add_mod (slot t) 8)

/-! ### The packed taps of a state -/

theorem packedTaps_of_idle {s : State} (hp : s.phase = .idle) : packedTaps s = 0 := by
  simp [packedTaps, hp]

theorem packedTaps_of_pack {s : State} (hp : s.phase = .pack) (ho : s.lOp = .vector) : packedTaps s = s.pi := by
  simp [packedTaps, hp, ho]

theorem packedTaps_of_conv {s : State} (hp : s.phase = .conv) (ho : s.lOp = .vector) : packedTaps s = mPad s := by
  simp [packedTaps, hp, ho]

theorem packedTaps_of_scalar {s : State} (ho : s.lOp = .scalar) : packedTaps s = 0 := by
  unfold packedTaps
  rw [ho]
  cases s.phase <;> rfl

/-- Taps are packed only while a command runs. -/
theorem busy_of_lt_packedTaps {s : State} {i : Nat} (h : i < packedTaps s) : s.busy = true :=
  (busy_iff s).2 fun hp => absurd h (by simp [packedTaps_of_idle hp])

theorem coefHoldsTaps_of_none {s : State} (h : packedTaps s = 0) : CoefHoldsTaps s := fun i hi => by omega

/-- The taps stay packed where the coefficient RAM, the command and the packed taps of memory stay. -/
theorem CoefHoldsTaps.congr {s t : State} (h : CoefHoldsTaps s) (hk : packedTaps t = packedTaps s)
    (hcoef : t.coef = s.coef) (hM : t.lM = s.lM)
    (hmem : ∀ i < packedTaps s, i < s.lM.toNat → t.mem.readWord (hElem t i) = s.mem.readWord (hElem s i)) :
    CoefHoldsTaps t := by
  intro i hi
  rw [hk] at hi
  rw [coefAt, hcoef, hM]
  refine (h i hi).trans ?_
  split
  · next hreal => exact (hmem i hi hreal).symm
  · rfl

/-! ### Packing a tap -/

theorem packedTaps_packTap {s : State} (hp : s.phase = .pack) (ho : s.lOp = .vector) (v : Word) :
    packedTaps (packTap v s) = s.pi + 1 := by
  have ho' : (packTap v s).lOp = .vector := (packTap_lOp v s).trans ho
  rcases packTap_cases v s with ⟨hlast, e⟩ | ⟨-, e⟩
  · rw [packedTaps_of_conv (congrArg State.phase e) ho', hlast, mPad, mPad, packTap_lM]
  · rw [packedTaps_of_pack ((congrArg State.phase e).trans hp) ho', packTap_pi]

theorem coefAt_packTap_same {s : State} (h : slot s.pi < Config.coefDepth) (v : Word) :
    coefAt (packTap v s) (slot s.pi) = v := by
  rw [coefAt, packTap_coef, Vector.getElem?_setIfInBounds_self_of_lt h]
  rfl

theorem coefAt_packTap_other {s : State} {i : Nat} (h : s.pi ≠ i) (v : Word) :
    coefAt (packTap v s) (slot i) = coefAt s (slot i) := by
  rw [coefAt, packTap_coef, Vector.getElem?_setIfInBounds_ne (slot_involutive.injective.ne h)]
  rfl

/-- The entry of the next tap lies in the coefficient RAM: the command passed the capacity check (60_exceptions.md
R237). -/
theorem Inv.slot_pi_lt {s : State} (hi : Inv s) (hp : s.phase = .pack) : slot s.pi < Config.coefDepth := by
  obtain ⟨ho, hpi, -⟩ := hi.pack_position hp
  obtain ⟨-, -, -, -, -, -, -, -, -, -, -, hcap⟩ :=
    check_none (hi.busy_checked ((busy_iff s).2 (by rw [hp]; decide)))
  exact (slot_lt_ceil8 hpi).trans_le (hcap ho).1

/-- A packed tap stands in its slot, and those before it stay in theirs. -/
theorem packTap_holdsTaps {s : State} (hi : Inv s) (hp : s.phase = .pack) (h : CoefHoldsTaps s) :
    CoefHoldsTaps (packTap (if s.pi < s.lM.toNat then s.mem.readWord (hElem s s.pi) else 0x00000000#32) s) := by
  obtain ⟨ho, -⟩ := hi.pack_position hp
  intro i hlt
  rw [packedTaps_packTap hp ho] at hlt
  simp only [packTap_lM, packTap_mem, hElem, packTap_lH]
  rcases Nat.lt_succ_iff_lt_or_eq.1 hlt with hold | rfl
  · rw [coefAt_packTap_other (by omega)]
    exact h i (by rwa [packedTaps_of_pack hp ho])
  · exact coefAt_packTap_same (hi.slot_pi_lt hp) _

theorem engineStep_of_pack {s : State} (hp : s.phase = .pack) (ho : s.lOp = .vector) : engineStep s = packStep s := by
  simp [engineStep, hp, ho]

/-- A pack step whose read, if it makes one, is answered: the tap of memory or the padding is packed. -/
theorem packStep_of_answered {s : State} (h : ∀ a ∈ packAccesses s, Answered s a) :
    packStep s = .next
      (packTap (if s.pi < s.lM.toNat then s.mem.readWord (hElem s s.pi) else 0x00000000#32)
        { s with busTrace := s.busTrace ++ packAccesses s }) := by
  simp only [packStep, record, performed_all_answered h]
  by_cases hreal : s.pi < s.lM.toNat
  · have hread : Answered s ⟨.read, hElem s s.pi⟩ := h _ (by simp [packAccesses, hreal])
    simp only [hreal, if_true, memRead_answered hread, afterPort]
  · simp only [hreal, if_false]

theorem packTap_of_pack {s : State} (hp : s.phase = .pack) (v : Word) :
    packTap v s = { s with
      coef := s.coef.setIfInBounds (slot s.pi) v
      pi := s.pi + 1
      phase := if s.pi + 1 = mPad s then .conv else .pack
      n := if s.pi + 1 = mPad s then s.lM.toNat - 1 else s.n } := by
  rcases packTap_cases v s with ⟨hlast, e⟩ | ⟨hlast, e⟩
  · rw [e, if_pos hlast, if_pos hlast]
  · rw [e, if_neg hlast, if_neg hlast, ← hp]

/-- Settles O27: the read of a real tap is answered, and the tap that is packed opens CONV if it is the last. -/
theorem packStepStoresTheTapReversed : Obligations.PackStepStoresTheTapReversed := by
  unfold Obligations.PackStepStoresTheTapReversed
  intro s hp ho h
  have hanswered : ∀ a ∈ packAccesses s, Answered s a := by
    unfold packAccesses
    split
    · next hreal => exact List.forall_mem_singleton.2 (h hreal)
    · exact List.forall_mem_nil _
  rw [engineStep_of_pack hp ho, packStep_of_answered hanswered]
  exact congrArg Host.Outcome.next
    (packTap_of_pack (s := { s with busTrace := s.busTrace ++ packAccesses s }) hp _)

/-! ### Every step keeps the packed taps -/

/-- The element that is due shares no byte with the filter (60_exceptions.md R236). -/
theorem Inv.yElem_apart_hElem {s : State} (hi : Inv s) (hp : s.phase = .conv) {i : Nat} (h : i < s.lM.toNat) :
    hElem s i + 4 ≤ yElem s s.n ∨ yElem s s.n + 4 ≤ hElem s i := by
  obtain ⟨-, -, -, -, -, -, -, -, -, -, hapart, -⟩ :=
    check_none (hi.busy_checked ((busy_iff s).2 (by rw [hp]; decide)))
  obtain ⟨hlo, hhi, -⟩ := hi.conv_position hp
  unfold hElem yElem
  omega

theorem engineStep_keeps_taps {s t : State} (hi : Inv s) (hr : s.inReset = false) (h : CoefHoldsTaps s)
    (hstep : engineStep s = .next t) : CoefHoldsTaps t := by
  rcases engineStep_cases hstep with ⟨-, rfl⟩ | ⟨hp, -, rfl⟩ | ⟨-, _, _, _, _, rfl⟩ | ⟨-, -, -, -, _, _, _, _, rfl⟩
    | ⟨hp, -, -, -, _, _, _, v, rfl⟩
  · exact h
  · exact packTap_holdsTaps (hi.record hr _) hp h
  · exact coefHoldsTaps_of_none rfl
  · exact coefHoldsTaps_of_none rfl
  · exact h.congr rfl rfl rfl fun i _ hreal => Memory.readWord_writeWord_other _ _ (hi.yElem_apart_hElem hp hreal)

theorem exec_keeps_taps {i : Instr} {s t : State} (h : CoefHoldsTaps s) (he : exec i s = .next t) :
    CoefHoldsTaps t := by
  rcases exec_cases i s with ⟨v, e, -⟩ | ⟨r, e⟩ <;> obtain rfl := Host.Outcome.next.inj (e.symm.trans he)
  · rcases presentCommand_cases v s with ⟨-, e⟩ | ⟨err, -, -, e⟩ | ⟨-, -, ho, e⟩ | ⟨-, -, ho, e⟩ <;> rw [e]
    · exact h
    · exact coefHoldsTaps_of_none rfl
    · exact coefHoldsTaps_of_none (packedTaps_of_scalar ho)
    · exact coefHoldsTaps_of_none (packedTaps_of_pack rfl ho)
  · exact h

/-- The bus lets the host write no tap of a running command (70_reset_and_hazards.md R280 (a)). -/
theorem hostStore_keeps_taps {s : State} (h : CoefHoldsTaps s) {a : Nat} (ha : inRunningInput s a = false) (b : Byte) :
    CoefHoldsTaps { s with mem := s.mem.writeByte a b } := by
  refine h.congr rfl rfl rfl fun i hi hreal => Memory.readWord_congr fun c h1 h2 => ?_
  have hout : ¬ (s.lH.toNat ≤ a ∧ a < s.lH.toNat + 4 * s.lM.toNat) := by
    simp only [inRunningInput, busy_of_lt_packedTaps hi, Bool.true_and, Bool.or_eq_false_iff,
      decide_eq_false_iff_not] at ha
    exact ha.2
  simp only [hElem] at h1 h2
  exact Memory.readByte_writeByte_other _ _ (by omega)

/-- Settles O42: the steps of the engine, of the host's accesses, of its own use of memory and of reset, one by one. -/
theorem stepKeepsThePackedTaps : Obligations.StepKeepsThePackedTaps := by
  unfold Obligations.StepKeepsThePackedTaps
  intro s t hi h hstep
  rcases step_next hstep with ⟨-, u, hu, hturn⟩ | ⟨a, rest, i, -, -, -, he⟩ | ⟨a, b, rest, -, -, ha, -, rfl⟩
    | ⟨a, rest, w, -, rfl⟩ | ⟨b, rest, -, rfl⟩
  · obtain ⟨hiu, htu⟩ : Inv u ∧ CoefHoldsTaps u := by
      rcases hu with rfl | ⟨rest, -, rfl⟩
      · exact ⟨hi, h⟩
      · exact ⟨hi.setEnvironment rest hi.mem_wf s.hostRead, h⟩
    rcases hturn with ⟨-, rfl⟩ | ⟨hr, he⟩
    · exact htu
    · exact engineStep_keeps_taps hiu hr htu he
  · exact exec_keeps_taps (s := { s with schedule := rest }) h he
  · exact hostStore_keeps_taps (s := { s with schedule := rest }) h ha b
  · exact h
  · exact coefHoldsTaps_of_none rfl

/-! ### One element step -/

theorem engineStep_of_vector {s : State} (hp : s.phase = .conv) (ho : s.lOp = .vector) :
    engineStep s = vectorStep s := by
  simp [engineStep, hp, ho]

/-- Settles O29: every read is answered, so each lane has all its terms, and the write of y[n] is the last access. -/
theorem vectorElementStepWritesTheReduction : Obligations.VectorElementStepWritesTheReduction := by
  unfold Obligations.VectorElementStepWritesTheReduction
  intro s hp ho h
  have hw : Answered s ⟨.write, yElem s s.n⟩ := h _ (List.mem_append_right _ List.mem_cons_self)
  have hreads : firstStop s (vectorReads s (laneOrder (numBlocks s))) = .ok () :=
    firstStop_all_answered fun a ha => h a (List.mem_append_left _ ha)
  refine ⟨(vectorLoop s (laneOrder (numBlocks s)) (Vector.replicate 8 0x00000000#32)).1, fun j => ?_, ?_⟩
  · rw [vectorLoop_lane s _ j ((vectorLoop_stop s _ _).trans hreads), Fin.getElem_fin, Vector.getElem_replicate]
    rfl
  · rw [engineStep_of_vector hp ho, vectorStep_eq, hreads]
    simp only [record, performed_all_answered h]
    exact storeElement_answered hw

/-! ### Padded lanes -/

/-- Adding a zero of either sign leaves a value that is not -0.0 and whose NaN is canonical (R204). -/
theorem f32Add_zero_mag {w z : Word} (hz : f32Mag z = 0) (hnan : f32IsNaN w = true → w = f32NaN)
    (hw : w ≠ 0x80000000#32) : f32Add w z = w := by
  have hfin : f32Expo z < 255 := by rw [((f32Mag_eq_zero z).1 hz).1]; decide
  have hval : f32Val z = 0 := Int.natAbs_eq_zero.1 ((f32Val_natAbs z).trans hz)
  rcases f32_nan_or_inf_or_finite w with hk | hk | hk
  · rw [hnan hk, f32Add_nan_left]
  · exact f32Add_of_inf_finite hk hfin
  · have hsum : f32Val w + f32Val z = f32Val w := by rw [hval, add_zero]
    by_cases h0 : f32Val w = 0
    · obtain rfl : w = 0x00000000#32 := (eq_zero_of_mag (by rw [← f32Val_natAbs, h0]; rfl)).resolve_left hw
      rcases eq_zero_of_mag hz with rfl | rfl <;> decide
    · rw [f32Add_of_nonzero_sum hk hfin (hsum.trans_ne h0), hsum, f32Round_val hk h0]

/-- The product of +0.0 and a finite value is a zero (R13). -/
theorem f32Mag_mul_posZero {w : Word} (hw : f32Expo w < 255) : f32Mag (f32Mul 0x00000000#32 w) = 0 := by
  have hmag : f32Mag 0x00000000#32 = 0 := by decide
  have hround (neg : Bool) : f32Mag (f32Round neg 0 149) = 0 := by cases neg <;> decide
  rw [f32Mul_of_finite (by decide) hw, hmag, Nat.zero_mul, hround]

/-- Settles O58: what a padded lane adds, masked or not, is a zero. -/
theorem paddedLanesContributeNothing : Obligations.PaddedLanesContributeNothing := by
  unfold Obligations.PaddedLanesContributeNothing
  intro acc sample hacc hnan hsample
  exact ⟨f32Add_zero_mag (by decide) hnan hacc, f32Add_zero_mag (f32Mag_mul_posZero hsample) hnan hacc⟩

/-! ### The value of an element -/

/-- The lane of a real tap multiplies by that tap (R192, R195). -/
theorem CoefHoldsTaps.coefAt_lane {s : State} (h : CoefHoldsTaps s) (hp : s.phase = .conv) (ho : s.lOp = .vector)
    {b : Nat} {j : Fin 8} (hj : tapOf b j < s.lM.toNat) :
    coefAt s (8 * b + j) = s.mem.readWord (hElem s (tapOf b j)) := by
  have hpacked : tapOf b j < packedTaps s := by
    rw [packedTaps_of_conv hp ho, mPad, ceil8]
    omega
  rw [← slot_tapOf, h _ hpacked, if_pos hj]

/-- With the taps packed, the terms of lane j sum to its value. -/
theorem CoefHoldsTaps.laneSum {s : State} (h : CoefHoldsTaps s) (hp : s.phase = .conv) (ho : s.lOp = .vector)
    (j : Fin 8) :
    (List.range (numBlocks s)).foldl (fun a b => f32Add a (laneTerm s b j)) 0x00000000#32 =
      laneValue s.mem s.lX.toNat s.lH.toNat s.lM.toNat s.n j := by
  apply List.foldl_ext
  intro a b _
  unfold laneTerm
  split
  · next hj => rw [h.coefAt_lane hp ho hj]; rfl
  · rfl

/-- The value of a lane is that of its taps and of its window. -/
theorem laneValue_congr {m m' : Memory} {x h taps n : Nat}
    (hh : ∀ k < taps, m'.readWord (h + 4 * k) = m.readWord (h + 4 * k))
    (hx : ∀ i ≤ n, m'.readWord (x + 4 * i) = m.readWord (x + 4 * i)) (j : Nat) :
    laneValue m' x h taps n j = laneValue m x h taps n j := by
  apply List.foldl_ext
  intro a b _
  split
  · next hj => rw [hh _ hj, hx _ (Nat.sub_le n _)]
  · rfl

theorem reduceLanes_eq_vectorValue {m : Memory} {x h taps n : Nat} {acc : Vector Word 8}
    (hacc : ∀ j : Fin 8, acc[j] = laneValue m x h taps n j) : reduceLanes acc = vectorValue m x h taps n := by
  have hlane (j : Nat) (hj : j < 8) : acc[j] = laneValue m x h taps n j := hacc ⟨j, hj⟩
  simp only [reduceLanes, hlane]
  rfl

/-- The run of element steps keeps the packed taps: it writes neither them nor the filter. -/
theorem ConvRun.holdsTaps {c t : State} {value : Nat → Word} (h : ConvRun c value t) (hc : CoefHoldsTaps c) :
    CoefHoldsTaps t := by
  obtain ⟨hlOp, -, hlH, -, -, hlM, -⟩ := h.latched
  have hcoef : t.coef = c.coef := by rw [h.frame]; rfl
  have hpacked : packedTaps t = packedTaps c := by rw [h.frame]; rfl
  refine hc.congr hpacked hcoef hlM fun i _ hreal => ?_
  rw [h.readWord_hElem (by rwa [hlM]), hElem, hElem, hlH]

theorem noBusErrors_congr {s t : State} (h : t.platform = s.platform) (he : NoBusErrors s) : NoBusErrors t :=
  fun d a => by rw [busErr, h]; exact he d a

/-- Every element step of CONV_VECTOR writes the reduction of the lanes over the signal and the filter as they stood
when it entered CONV with its taps packed. -/
theorem vector_writesItsElements {c : State} (ho : c.lOp = .vector) (he : NoBusErrors c) (hc : CoefHoldsTaps c) :
    WritesItsElements c (vectorValue c.mem c.lX.toNat c.lH.toNat c.lM.toNat) := by
  intro t ht
  obtain ⟨hlOp, hlX, hlH, -, -, hlM, hplatform⟩ := ht.latched
  obtain ⟨-, hn, -⟩ := ht.inv.conv_position ht.conv
  have hbus := noBusErrors_congr hplatform he
  have hanswered : ∀ a ∈ vectorAccesses t, Answered t a := fun a ha =>
    answered_of_inRegions ht.inv ht.busy hbus (vectorAccesses_inRegions ht.inv ht.busy ht.conv a ha)
  obtain ⟨acc, hacc, hstep⟩ := vectorElementStepWritesTheReduction t ht.conv (hlOp.trans ho) hanswered
  have hlane (j : Fin 8) : acc[j] = laneValue c.mem t.lX.toNat t.lH.toNat t.lM.toNat t.n j :=
    calc acc[j] = laneValue t.mem t.lX.toNat t.lH.toNat t.lM.toNat t.n j :=
          (hacc j).trans ((ht.holdsTaps hc).laneSum ht.conv (hlOp.trans ho) j)
      _ = laneValue c.mem t.lX.toNat t.lH.toNat t.lM.toNat t.n j :=
          laneValue_congr (fun k hk => ht.readWord_hElem hk) (fun i hi => ht.readWord_xElem (lt_of_le_of_lt hi hn)) j
  rw [← hlX, ← hlH, ← hlM, ← reduceLanes_eq_vectorValue hlane]
  refine ⟨_, hstep, ?_, ?_⟩ <;> dsimp only <;> split <;> rfl

/-! ### The pack steps of a command -/

theorem runSteps_append {s t : State} {j : Nat} (h : runSteps j s = .next t) (k : Nat) :
    runSteps (j + k) s = runSteps k t := by
  rw [runSteps_add, h]

theorem replicate_append_split {j k : Nat} (h : j ≤ k) (e : Event) (rest : List Event) :
    List.replicate k e ++ rest = List.replicate j e ++ (List.replicate (k - j) e ++ rest) := by
  rw [← List.append_assoc, List.replicate_append_replicate, Nat.add_sub_cancel' h]

/-- The state `c` with the fields of `t` that the pack steps and the schedule change. -/
def withPacking (t c : State) : State :=
  { c with
    phase := t.phase, pi := t.pi, n := t.n, coef := t.coef, busTrace := t.busTrace, schedule := t.schedule }

theorem withPacking_trans {c t u : State} (h : t = withPacking t c) (hu : u = withPacking u t) :
    u = withPacking u c := by
  have hc := congrArg (withPacking u) h
  exact hu.trans hc

/-- The run from the state `c`, in which a command enters PACK, has come to `t` after `k` pack steps: `k` taps stand in
their slots, and after the last of M_pad the command has entered CONV (R192 to R194). -/
structure PackRun (c : State) (k : Nat) (t : State) : Prop where
  inv : Inv t
  running : t.inReset = false
  command : t.lOp = .vector
  taps : CoefHoldsTaps t
  pi : t.pi = k
  phase : t.phase = if k = mPad c then .conv else .pack
  entry : k = mPad c → t.n = c.lM.toNat - 1
  frame : t = withPacking t c

section
variable {c t : State} {k : Nat}

/-- The latched operands, memory and the platform stay through the packing. -/
theorem PackRun.kept (h : PackRun c k t) :
    t.lX = c.lX ∧ t.lH = c.lH ∧ t.lY = c.lY ∧ t.lN = c.lN ∧ t.lM = c.lM ∧ t.mem = c.mem ∧ t.platform = c.platform := by
  rw [h.frame]
  exact ⟨rfl, rfl, rfl, rfl, rfl, rfl, rfl⟩

theorem PackRun.noBusErrors (h : PackRun c k t) (he : NoBusErrors c) : NoBusErrors t := by
  obtain ⟨-, -, -, -, -, -, hplatform⟩ := h.kept
  exact noBusErrors_congr hplatform he

theorem PackRun.pack (h : PackRun c k t) (hk : k < mPad c) : t.phase = .pack := by
  rw [h.phase, if_neg hk.ne]

/-- While taps are to be packed, BUSY is 1, DONE is 0 and no element is counted. -/
theorem PackRun.status (h : PackRun c k t) (hk : k < mPad c) :
    t.busy = true ∧ t.done = false ∧ t.outCount.toNat = 0 := by
  have hb : t.busy = true := (busy_iff t).2 (by rw [h.pack hk]; decide)
  obtain ⟨hd, -⟩ := h.inv.result_of_busy hb
  obtain ⟨-, -, hout⟩ := h.inv.pack_position (h.pack hk)
  exact ⟨hb, hd, by rw [hout]; rfl⟩

theorem PackRun.setSchedule (h : PackRun c k t) (es : List Event) : PackRun c k { t with schedule := es } where
  inv := h.inv.setEnvironment es h.inv.mem_wf t.hostRead
  running := h.running
  command := h.command
  taps := h.taps
  pi := h.pi
  phase := h.phase
  entry := h.entry
  frame := withPacking_trans h.frame rfl

/-- A pack step packs the next tap, and the last one opens CONV. -/
theorem PackRun.next (h : PackRun c k t) (he : NoBusErrors c) (hk : k < mPad c) :
    ∃ u, engineStep t = .next u ∧ u.schedule = t.schedule ∧ PackRun c (k + 1) u := by
  have hp := h.pack hk
  obtain ⟨hb, -⟩ := h.status hk
  obtain ⟨-, -, -, -, hlM, -⟩ := h.kept
  have hlast : t.pi + 1 = mPad t ↔ k + 1 = mPad c := by rw [h.pi, mPad, mPad, hlM]
  have hanswered : ∀ a ∈ packAccesses t, Answered t a := fun a ha =>
    answered_of_inRegions h.inv hb (h.noBusErrors he) (packAccesses_inRegions h.inv hb a ha)
  have hstep := (engineStep_of_pack hp h.command).trans (packStep_of_answered hanswered)
  rw [packTap_of_pack (s := { t with busTrace := t.busTrace ++ packAccesses t }) hp] at hstep
  exact ⟨_, hstep, rfl, {
    inv := engineStep_keeps_inv h.inv h.running hstep
    running := h.running
    command := h.command
    taps := engineStep_keeps_taps h.inv h.running h.taps hstep
    pi := congrArg (· + 1) h.pi
    phase := if_congr hlast rfl rfl
    entry := fun hend => (if_pos (hlast.2 hend)).trans (congrArg (BitVec.toNat · - 1) hlM)
    frame := withPacking_trans h.frame rfl }⟩

/-- A turn of the engine while taps are to be packed. -/
theorem PackRun.engineTurn {es : List Event} (h : PackRun c k t) (he : NoBusErrors c) (hk : k < mPad c)
    (hs : t.schedule = .engine :: es) : ∃ u, step t = .next u ∧ u.schedule = es ∧ PackRun c (k + 1) u := by
  have ht := h.setSchedule es
  rw [step_engine hs, runEngine_running ht.running]
  exact ht.next he hk

/-- As many turns of the engine as taps are left to pack at most pack that many. -/
theorem PackRun.engineTurns {j : Nat} {es : List Event} (h : PackRun c k t) (he : NoBusErrors c)
    (hs : t.schedule = List.replicate j .engine ++ es) (hj : k + j ≤ mPad c) :
    ∃ u, runSteps j t = .next u ∧ u.schedule = es ∧ PackRun c (k + j) u := by
  induction j generalizing k t with
  | zero => exact ⟨t, rfl, hs, h⟩
  | succ j ih =>
    obtain ⟨u, hstep, hsched, hu⟩ := h.engineTurn he (by omega) hs
    obtain ⟨v, hrun, hes, hv⟩ := ih hu hsched (by omega)
    rw [Nat.add_assoc, Nat.add_comm 1 j] at hv
    exact ⟨v, by rw [Nat.add_comm j 1, runSteps_step hstep, hrun], hes, hv⟩

/-- With all taps packed a run of element steps begins, whose elements have the values of R196 and R198. -/
theorem PackRun.convRun (h : PackRun c (mPad c) t) (he : NoBusErrors c) :
    let value := vectorValue c.mem c.lX.toNat c.lH.toNat c.lM.toNat
    ConvRun t value t ∧ WritesItsElements t value := by
  obtain ⟨hlX, hlH, -, -, hlM, hmem, -⟩ := h.kept
  have hw := vector_writesItsElements h.command (h.noBusErrors he) h.taps
  rw [hmem, hlX, hlH, hlM] at hw
  exact ⟨ConvRun.start _ h.inv h.running (by rw [h.phase, if_pos rfl]) (by rw [h.entry rfl, hlM]), hw⟩

/-! From the start of the packing, with the engine's turns for the whole command in the schedule: -/

variable {len : Nat} {rest : List Event}

/-- While the command goes on, BUSY is 1, DONE is 0 and OUT_COUNT counts the element steps behind the pack steps. -/
theorem PackRun.progress (h : PackRun c 0 c) (he : NoBusErrors c)
    (hs : c.schedule = List.replicate (mPad c + (len + 1)) .engine ++ rest)
    (hlen : c.lM.toNat - 1 + (len + 1) = c.lN.toNat) (hk : k < mPad c + (len + 1)) :
    ∃ t, runSteps k c = .next t ∧ t.busy = true ∧ t.done = false ∧ t.outCount.toNat = k - mPad c := by
  rw [replicate_append_split hk.le] at hs
  rcases Nat.lt_or_ge k (mPad c) with hlt | hge
  · obtain ⟨t, hsteps, -, ht⟩ := h.engineTurns he hs (by omega)
    obtain ⟨hb, hd, hout⟩ := ht.status (by omega)
    exact ⟨t, hsteps, hb, hd, by omega⟩
  · obtain ⟨j, rfl⟩ := Nat.exists_eq_add_of_le hge
    rw [List.replicate_add, List.append_assoc] at hs
    obtain ⟨u, hpacked, hsched, hu⟩ := h.engineTurns he hs (by omega)
    rw [Nat.zero_add] at hu
    obtain ⟨-, -, -, hlN, hlM, -⟩ := hu.kept
    obtain ⟨hrun, hw⟩ := hu.convRun he
    obtain ⟨t, hsteps, -, hn, ht⟩ := hrun.engineTurns hw hsched (by rw [hu.entry rfl, hlN]; omega)
    obtain ⟨hd, hout⟩ := ht.status (by rw [hu.entry rfl, hlM]) hn
    exact ⟨t, (runSteps_append hpacked j).trans hsteps, ht.busy, hd, by omega⟩

/-- After the pack steps and the element steps the command has completed. -/
theorem PackRun.completes (h : PackRun c 0 c) (he : NoBusErrors c)
    (hs : c.schedule = List.replicate (mPad c + (len + 1)) .engine ++ rest)
    (hlen : c.lM.toNat - 1 + (len + 1) = c.lN.toNat) :
    ∃ u, runSteps (mPad c + (len + 1)) c = .next u ∧ u.schedule = rest
      ∧ ConvDone c (vectorValue c.mem c.lX.toNat c.lH.toNat c.lM.toNat) u := by
  rw [List.replicate_add, List.append_assoc] at hs
  obtain ⟨t, hpacked, hsched, ht⟩ := h.engineTurns he hs (by omega)
  rw [Nat.zero_add] at ht
  obtain ⟨-, -, hlY, hlN, hlM, hmem, -⟩ := ht.kept
  obtain ⟨hrun, hw⟩ := ht.convRun he
  obtain ⟨u, hsteps, hrest, hu⟩ := hrun.completes hw hsched (by rw [ht.entry rfl, hlN]; exact hlen)
  have hcount := hu.count
  have hwritten := hu.written
  rw [hlN, hlM] at hcount
  rw [hlY, hlN, hlM, hmem] at hwritten
  exact ⟨u, (runSteps_append hpacked _).trans hsteps, hrest, hu.idle, hu.done, hu.errcode, hu.errAddr, hcount, hwritten⟩

end

/-! ### The whole command -/

/-- The state in which a CONV_VECTOR accepted in `s` enters PACK (R140). -/
def vectorStart (s : State) : State := startCommand (latchCommand .vector s)

/-- The CMD write of a CONV_VECTOR that passes its checks starts it. -/
theorem step_convVector {s : State} {es : List Event} (hp : s.phase = .idle) (hr : s.inReset = false)
    (hs : s.schedule = .access (accessOfFrame s.platform (encode .convVector)) :: es)
    (hc : checkLatched (latchCommand .vector s) = none) :
    step s = .next (vectorStart { s with schedule := es }) := by
  rw [stepRunsTheDecodedAccess.2 s es .convVector rfl hr hs]
  exact congrArg Host.Outcome.next
    ((presentCommand_of_idle (s := { s with schedule := es }) hp 0x00000002#32).trans (acceptCommand_of_pass hc))

/-- The start is the beginning of the packing. -/
theorem vectorStart_packRun {s : State} (hr : s.inReset = false) (hm : s.mem.wf = true)
    (hc : checkLatched (latchCommand .vector s) = none) : PackRun (vectorStart s) 0 (vectorStart s) := by
  obtain ⟨-, hM, -⟩ := check_none hc
  have hpad : 0 ≠ mPad (vectorStart s) := (mPad_pos (s := vectorStart s) hM).ne
  exact {
    inv := inv_startCommand hr hm hc
    running := hr
    command := rfl
    taps := coefHoldsTaps_of_none rfl
    pi := rfl
    phase := (if_neg hpad).symm
    entry := fun h => absurd h hpad
    frame := rfl }

/-- Settles O37: the CMD write enters PACK, and the turns of the engine are the pack steps and then a run of element
steps. -/
theorem vectorCommandComputesTheConvolution : Obligations.VectorCommandComputesTheConvolution := by
  unfold Obligations.VectorCommandComputesTheConvolution
  intro s rest hp hr hwf he hs hc
  obtain ⟨-, hM, hMN, -⟩ := check_none hc
  generalize hes : List.replicate _ Event.engine ++ rest = es at hs
  have hstart := step_convVector hp hr hs hc
  have hpack := vectorStart_packRun (s := { s with schedule := es }) hr hwf hc
  have hlen : s.mReg.toNat - 1 + (s.nReg.toNat - s.mReg.toNat + 1) = s.nReg.toNat := by omega
  refine ⟨fun k hk => ?_, ?_⟩
  · obtain ⟨t, hsteps, ht⟩ := hpack.progress he hes.symm hlen hk
    exact ⟨t, (runSteps_step hstart k).trans hsteps, ht⟩
  · obtain ⟨u, hsteps, hrest, hu⟩ := hpack.completes he hes.symm hlen
    exact ⟨u, (runSteps_step hstart _).trans hsteps, hrest, hu.idle, hu.done, hu.errcode, hu.errAddr, hu.count,
      hu.written.element, hu.written.other⟩

end Sys2Proof.Machine

/-! PROOFS. Errors and completions (60_exceptions.md R230 to R253): the acceptance checks, what an engine step may change,
the access that ends a command, and the completion of every running command. -/

namespace Sys2Proof.Machine

/-! ### The acceptance checks -/

theorem badParam_iff (n m : Nat) : badParam n m = true ↔ m = 0 ∨ m > n := by
  simp [badParam]

theorem badAlign_iff (x h y : Nat) : badAlign x h y = true ↔ x % 4 ≠ 0 ∨ h % 4 ≠ 0 ∨ y % 4 ≠ 0 := by
  simp [badAlign, or_assoc]

theorem badRange_iff (x h y n m : Nat) :
    badRange x h y n m = true ↔ x + 4 * n > 2 ^ 32 ∨ h + 4 * m > 2 ^ 32 ∨ y + 4 * n > 2 ^ 32 := by
  simp [badRange, Config.memoryBytes, or_assoc]

theorem badOverlap_iff (x h y n m : Nat) :
    badOverlap x h y n m = true ↔
      (y + 4 * (m - 1) < x + 4 * n ∧ x < y + 4 * n) ∨ (y + 4 * (m - 1) < h + 4 * m ∧ h < y + 4 * n) := by
  simp [badOverlap, overlaps]

theorem badAlloc_iff (op : Op) (m : Nat) (inj : Bool) :
    badAlloc op m inj = true ↔ op = .vector ∧ (8 * ((m + 7) / 8) > 256 ∨ inj = true) := by
  simp [badAlloc, ceil8, Config.coefDepth]

/-- Settles O22: each condition of the chain is the number of its rule. -/
theorem checksAreMadeInOrder : Obligations.ChecksAreMadeInOrder := by
  unfold Obligations.ChecksAreMadeInOrder
  intro op x h y n m inj
  simp only [check, badParam_iff, badAlign_iff, badRange_iff, badOverlap_iff, badAlloc_iff]

/-- Settles O23: the word is latched as ILLEGAL, and the first check fails. -/
theorem illegalCommandCompletesAtOnce : Obligations.IllegalCommandCompletesAtOnce := by
  unfold Obligations.IllegalCommandCompletesAtOnce
  intro s v hp h1 h2
  have hop : decodeCmd v = .illegal :=
    (decodeCmd_eq_illegal_iff v).2 ⟨fun h => h1 (congrArg BitVec.toNat h), fun h => h2 (congrArg BitVec.toNat h)⟩
  have hexec : exec (.wrCmd v) s = .next (raiseError .illegal (latchCommand .illegal s)) := by
    rw [← acceptCommand_of_failure rfl, ← hop, ← presentCommand_of_idle hp]
    rfl
  rw [hexec, hp]
  rfl

/-! ### The capacity check -/

/-- Operands that pass the checks of any command are legal. -/
theorem legalOperands_of_check {op : Op} {x h y n m : Nat} {inj : Bool} (hc : check op x h y n m inj = none) :
    LegalOperands x h y n m := by
  obtain ⟨-, h1, hmn, hx4, hh4, hy4, hx, hh, hy, hxy, hhy, -⟩ := check_none hc
  exact ⟨⟨h1, hmn⟩, ⟨hx4, hh4, hy4⟩, ⟨hx, hh, hy⟩, hxy, hhy⟩

/-- On legal operands CONV_VECTOR fails the capacity check or none (R237). -/
theorem check_vector_of_legal {x h y n m : Nat} (hl : LegalOperands x h y n m) (inj : Bool) :
    check .vector x h y n m inj = if 8 * ((m + 7) / 8) > 256 ∨ inj = true then some .alloc else none := by
  obtain ⟨hsize, hmult, hmem, hx, hh⟩ := hl
  rw [checksAreMadeInOrder, if_neg (by decide), if_neg (by omega), if_neg (by omega), if_neg (by omega),
    if_neg (by omega)]
  simp only [true_and]

/-- CONV_SCALAR does not look at INJ_ALLOC_FAIL (41_scalar_convolution.md R176). -/
theorem check_scalar_congr (x h y n m : Nat) (inj inj' : Bool) :
    check .scalar x h y n m inj = check .scalar x h y n m inj' := rfl

/-- CONV_SCALAR never fails the capacity check. -/
theorem check_scalar_ne_alloc (x h y n m : Nat) (inj : Bool) : check .scalar x h y n m inj ≠ some .alloc := by
  have hcapacity : badAlloc .scalar m inj = false := rfl
  unfold check
  rw [hcapacity]
  split_ifs <;> simp

theorem errorCode_eq_six_iff (e : CmdError) : errorCode e = 6#4 ↔ e = .alloc := by
  cases e <;> simp [errorCode]

theorem presentCommand_scalar_of_idle {s : State} (hp : s.phase = .idle) :
    presentCommand 0x00000001#32 s = acceptCommand .scalar s := presentCommand_of_idle hp _

/-- A CONV_SCALAR presented while idle shows another code than 6 after its acceptance. -/
theorem errcode_presentCommand_scalar {s : State} (hp : s.phase = .idle) :
    (presentCommand 0x00000001#32 s).errcode ≠ 6#4 := by
  rw [presentCommand_scalar_of_idle hp]
  cases hc : checkLatched (latchCommand .scalar s) with
  | some e =>
    rw [acceptCommand_of_failure hc]
    exact fun h => check_scalar_ne_alloc _ _ _ _ _ _ (hc.trans (congrArg some ((errorCode_eq_six_iff e).1 h)))
  | none =>
    rw [acceptCommand_of_pass hc, startCommand_errcode, latchCommand_errcode]
    decide

/-- The presentation of CONV_SCALAR carries INJ_ALLOC_FAIL along and does not depend on it. -/
theorem presentCommand_scalar_setInjAllocFail (s : State) (b : Bool) :
    presentCommand 0x00000001#32 { s with injAllocFail := b } =
      { presentCommand 0x00000001#32 s with injAllocFail := b } := by
  by_cases hp : s.phase = .idle
  · rw [presentCommand_scalar_of_idle hp, presentCommand_scalar_of_idle (s := { s with injAllocFail := b }) hp]
    have hsame : checkLatched (latchCommand .scalar { s with injAllocFail := b })
        = checkLatched (latchCommand .scalar s) := check_scalar_congr ..
    cases hc : checkLatched (latchCommand .scalar s) with
    | some e =>
      rw [acceptCommand_of_failure hc, acceptCommand_of_failure (hsame.trans hc)]
      rfl
    | none =>
      rw [acceptCommand_of_pass hc, acceptCommand_of_pass (hsame.trans hc)]
      rfl
  · rw [presentCommand_of_busy hp, presentCommand_of_busy (s := { s with injAllocFail := b }) hp]

/-! ### What an engine step may change -/

/-- The state `s` with the fields of `t` that an engine step may change (R239; 10_state.md R44 to R49). -/
def withEngineStep (t s : State) : State :=
  { s with
    phase := t.phase, pi := t.pi, n := t.n, coef := t.coef, acc := t.acc, sacc := t.sacc, mem := t.mem
    outCount := t.outCount, errcode := t.errcode, errAddr := t.errAddr, done := t.done, busTrace := t.busTrace }

/-- An engine step changes no other field. -/
theorem engineStep_frame {s t : State} (h : engineStep s = .next t) : t = withEngineStep t s := by
  rcases engineStep_cases h with ⟨-, rfl⟩ | ⟨-, -, rfl⟩ | ⟨-, _, _, _, _, rfl⟩ | ⟨-, -, -, -, _, _, _, _, rfl⟩
    | ⟨-, -, -, -, _, _, _, _, rfl⟩
  · rfl
  · rcases packTap_cases _ _ with ⟨-, e⟩ | ⟨-, e⟩ <;> rw [e] <;> rfl
  all_goals rfl

/-- An element step leaves the coefficient RAM. -/
theorem coef_of_element {s u t : State} {reads : List MemAccess} {v : Word} (hp : u.platform = s.platform)
    (h : afterPort (firstStop s reads) u (fun _ => storeElement v u) = .next t) : t.coef = u.coef := by
  rcases element_next hp h with ⟨a, -, -, rfl⟩ | ⟨-, -, rfl⟩ | ⟨-, -, rfl⟩ <;> rfl

/-- Each engine step leaves the parts of the datapath that are not its own (41_scalar_convolution.md R173; 10_state.md
R47 to R49). -/
theorem engineStep_datapath {s t : State} (h : engineStep s = .next t) :
    (s.phase ≠ .pack → t.coef = s.coef) ∧ (s.lOp = .scalar → t.acc = s.acc)
      ∧ (s.lOp = .vector → t.sacc = s.sacc) := by
  rcases engineStep_next h with ⟨-, rfl⟩ | ⟨hp, ho, hh⟩ | ⟨-, ho, hh⟩ | ⟨-, ho, hh⟩
  · exact ⟨fun _ => rfl, fun _ => rfl, fun _ => rfl⟩
  · refine ⟨fun hne => absurd hp hne, fun hs => absurd (ho.symm.trans hs) (by decide), fun _ => ?_⟩
    rcases packStep_next hh with ⟨-, -, rfl⟩ | ⟨-, rfl⟩ | ⟨-, -, rfl⟩ <;> simp
  · obtain ⟨-, -, hacc, -⟩ := element_ends (s := s) (u := scalarMid s) rfl hh
    exact ⟨fun _ => coef_of_element (s := s) (u := scalarMid s) rfl hh, fun _ => hacc,
      fun hv => absurd (ho.symm.trans hv) (by decide)⟩
  · obtain ⟨-, hsacc, -, -⟩ := element_ends (s := s) (u := vectorMid s) rfl hh
    exact ⟨fun _ => coef_of_element (s := s) (u := vectorMid s) rfl hh,
      fun hs => absurd (ho.symm.trans hs) (by decide), fun _ => hsacc⟩

/-- Settles O33: the frame of the step, then the parts of the datapath by the kind of the step. -/
theorem engineLeavesTheHostsRegisters : Obligations.EngineLeavesTheHostsRegisters := by
  unfold Obligations.EngineLeavesTheHostsRegisters
  intro s t h
  have hdata := engineStep_datapath h
  rw [engineStep_frame h]
  exact ⟨rfl, rfl, rfl, rfl, rfl, rfl, rfl, rfl, rfl, rfl, rfl, rfl, rfl, rfl, rfl, rfl, rfl, rfl, hdata⟩

/-! ### The status of an engine step -/

theorem busy_packTap {s : State} (hp : s.phase = .pack) (v : Word) : (packTap v s).busy = true := by
  rw [busy_iff, packTap_of_pack hp]
  dsimp only
  split <;> decide

/-- An engine step goes on with the status flags as they were, or it completes the command, with no error or with
ERR_BUS (R241, R242). -/
theorem engineStep_status {s t : State} (h : engineStep s = .next t) :
    (t.busy = s.busy ∧ t.done = s.done ∧ t.errcode = s.errcode)
      ∨ (s.busy = true ∧ t.busy = false ∧ t.done = true ∧ (t.errcode = 0#4 ∨ t.errcode = 7#4)) := by
  rcases engineStep_cases h with ⟨-, rfl⟩ | ⟨hp, -, rfl⟩ | ⟨hp, _, _, _, _, rfl⟩ | ⟨hp, -, -, -, _, _, _, _, rfl⟩
    | ⟨-, -, -, -, _, _, _, _, rfl⟩
  · exact .inl ⟨rfl, rfl, rfl⟩
  · refine .inl ⟨?_, by simp, by simp⟩
    rw [busy_packTap (s := record (packAccesses s) s) hp, (busy_iff s).2 (by rw [hp]; decide)]
  · exact .inr ⟨(busy_iff s).2 hp, rfl, rfl, .inr rfl⟩
  · exact .inr ⟨(busy_iff s).2 (by rw [hp]; decide), rfl, rfl, .inl rfl⟩
  · exact .inl ⟨rfl, rfl, rfl⟩

/-- Settles O26: the two answers of the capacity check on legal operands; the checks of CONV_SCALAR without it; and the
codes of an engine step. -/
theorem allocationFailsForVectorOnly : Obligations.AllocationFailsForVectorOnly := by
  unfold Obligations.AllocationFailsForVectorOnly
  refine ⟨fun s t hp h hc => ?_, ?_, fun s t _ _ he h => ?_, ?_⟩
  · obtain rfl : acceptCommand .vector s = t :=
      (presentCommand_of_idle hp 0x00000002#32).symm.trans (Host.Outcome.next.inj h)
    have hv : checkLatched (latchCommand .vector s) = _ :=
      check_vector_of_legal (legalOperands_of_check hc) s.injAllocFail
    refine ⟨fun hfail => ?_, fun hcap hinj => ?_⟩
    · rw [acceptCommand_of_failure (hv.trans (if_pos hfail))]
      exact ⟨rfl, rfl, rfl, rfl, rfl, rfl, rfl⟩
    · rw [acceptCommand_of_pass (hv.trans (if_neg (by simp [hinj]; omega)))]
      exact ⟨rfl, rfl, rfl⟩
  · rintro s _ hp ⟨⟩
    exact errcode_presentCommand_scalar hp
  · rcases engineStep_status h with ⟨-, -, e⟩ | ⟨-, -, -, e | e⟩
    · rw [e, he]; decide
    all_goals rw [e]; decide
  · rintro s _ b ⟨⟩
    exact congrArg Host.Outcome.next (presentCommand_scalar_setInjAllocFail s b)

/-! ### The access that ends a command -/

theorem stepAccesses_of_pack {s : State} (hp : s.phase = .pack) (ho : s.lOp = .vector) :
    stepAccesses s = packAccesses s := by simp [stepAccesses, hp, ho]

theorem stepAccesses_of_scalar {s : State} (hp : s.phase = .conv) (ho : s.lOp = .scalar) :
    stepAccesses s = scalarAccesses s := by simp [stepAccesses, hp, ho]

theorem stepAccesses_of_vector {s : State} (hp : s.phase = .conv) (ho : s.lOp = .vector) :
    stepAccesses s = vectorAccesses s := by simp [stepAccesses, hp, ho]

/-- A pack step whose read gets an error response. -/
theorem packStep_of_busError {s : State} {b : Nat} (h : firstStop s (packAccesses s) = .busError b) :
    packStep s = .next (raiseError (.bus b) (record (packAccesses s) s)) := by
  by_cases hreal : s.pi < s.lM.toNat
  · have hread : packAccesses s = [⟨.read, hElem s s.pi⟩] := if_pos hreal
    rw [hread] at h ⊢
    rcases memRead_cases s (hElem s s.pi) with ⟨hp, hm⟩ | ⟨hp, hm⟩ | ⟨hp, hm⟩ <;> simp only [firstStop, hp] at h
    · cases h
    · cases h
      simp only [packStep, hread, hreal, if_true, hm, afterPort]
    · cases h
  · rw [packAccesses, if_neg hreal] at h
    cases h

/-- An element step of which a read or the write gets an error response. -/
theorem element_of_busError {s u : State} {reads : List MemAccess} {v : Word} {b : Nat} (hp : u.platform = s.platform)
    (h : firstStop s (reads ++ [⟨.write, yElem u u.n⟩]) = .busError b) :
    afterPort (firstStop s reads) u (fun _ => storeElement v u) = .next (raiseError (.bus b) u) := by
  rw [firstStop_append] at h
  cases hr : firstStop s reads with
  | ok _ =>
    rw [hr] at h
    simp only [firstStop, ← portAnswer_congr hp] at h
    rcases memWrite_cases u (yElem u u.n) v with ⟨hw, hm⟩ | ⟨hw, hm⟩ | ⟨hw, hm⟩ <;> rw [hw] at h <;> cases h
    simp only [afterPort, storeElement, hm]
  | busError c =>
    rw [hr] at h
    cases h
    rfl
  | outside c =>
    rw [hr] at h
    cases h

/-- An engine step of which an access gets an error response ends the command with it; the accumulators keep what they
came to (R238, R242). -/
theorem engineStep_of_busError {s : State} {b : Nat} (h : firstStop s (stepAccesses s) = .busError b) :
    ∃ sacc acc, engineStep s = .next
      (raiseError (.bus b) { record (stepAccesses s) s with sacc := sacc, acc := acc }) := by
  unfold stepAccesses at h ⊢
  split at h
  · next hp ho =>
    rw [engineStep_of_pack hp ho]
    exact ⟨s.sacc, s.acc, packStep_of_busError h⟩
  · next hp ho =>
    rw [engineStep_of_scalar hp ho, scalarStep_eq]
    exact ⟨_, s.acc, element_of_busError (u := scalarMid s) rfl h⟩
  · next hp ho =>
    rw [engineStep_of_vector hp ho, vectorStep_eq]
    exact ⟨s.sacc, _, element_of_busError (u := vectorMid s) rfl h⟩
  · cases h

/-- Settles O30: the accesses of the step stop at the first error response, and the step completes with it. -/
theorem firstBusErrorEndsTheCommand : Obligations.FirstBusErrorEndsTheCommand := by
  unfold Obligations.FirstBusErrorEndsTheCommand
  intro s before after a hseq hbefore ha hb
  have hacc : stepAccesses s = before ++ a :: after := by
    rcases hseq with ⟨hp, ho, e⟩ | ⟨hp, ho, e⟩ | ⟨hp, ho, e⟩
    · rw [stepAccesses_of_scalar hp ho, e]
    · rw [stepAccesses_of_vector hp ho, e]
    · rw [stepAccesses_of_pack hp ho, e]
  have hstop : firstStop s (stepAccesses s) = .busError a.addr := hacc ▸ firstStop_stops hbefore ha hb
  have hmade : performed s (stepAccesses s) = before ++ [a] :=
    hacc ▸ performed_stops hbefore fun hans => absurd (hans.2.symm.trans hb) (by decide)
  have haddr : (BitVec.ofNat 32 a.addr).toNat = a.addr := by
    rw [BitVec.toNat_ofNat]
    omega
  obtain ⟨sacc, acc, hstep⟩ := engineStep_of_busError hstop
  refine ⟨_, hstep, rfl, haddr, rfl, rfl, rfl, rfl, rfl, ?_, rfl, rfl, rfl, rfl, rfl, rfl, rfl, rfl, rfl⟩
  rw [List.append_assoc, ← hmade]
  rfl

/-! ### Completions, and the start of a command -/

/-- An access is a write of CMD, which presents a word to the engine, or an update of the host's side. -/
theorem exec_command_or_hostSide (i : Instr) (s : State) :
    ((i = .convScalar ∨ i = .convVector ∨ ∃ v, i = .wrCmd v) ∧ ∃ w, exec i s = .next (presentCommand w s))
      ∨ ∃ r, exec i s = .next (setHostSide { hostUpdate i (hostSide s) with hostRead := r } s) := by
  cases i with
  | convScalar => exact .inl ⟨.inl rfl, _, rfl⟩
  | convVector => exact .inl ⟨.inr (.inl rfl), _, rfl⟩
  | wrCmd v => exact .inl ⟨.inr (.inr ⟨v, rfl⟩), v, rfl⟩
  | _ => exact .inr ⟨_, rfl⟩

/-- The next event is a write of CMD that the bus takes. -/
def CommandIsNext (s : State) : Prop :=
  ∃ a v, s.schedule.head? = some (.access a) ∧
    (fetchAccess s a = .ok .convScalar ∨ fetchAccess s a = .ok .convVector ∨ fetchAccess s a = .ok (.wrCmd v))

theorem commandIsNext_of_fetch {s : State} {a : HostAccess} {rest : List Event} {i : Instr}
    (hs : s.schedule = .access a :: rest) (hf : fetchAccess s a = .ok i)
    (hi : i = .convScalar ∨ i = .convVector ∨ ∃ v, i = .wrCmd v) : CommandIsNext s := by
  have hhead : s.schedule.head? = some (.access a) := by rw [hs]; rfl
  rcases hi with rfl | rfl | ⟨v, rfl⟩
  · exact ⟨a, 0#32, hhead, .inl hf⟩
  · exact ⟨a, 0#32, hhead, .inr (.inl hf)⟩
  · exact ⟨a, v, hhead, .inr (.inr hf)⟩

/-- A command word raises DONE only where its check fails, while idle. -/
theorem presentCommand_done {v : Word} {s : State} (h0 : s.done = false) (h : (presentCommand v s).done = true) :
    s.busy = false ∧ (presentCommand v s).busy = false := by
  rcases presentCommand_cases v s with ⟨-, e⟩ | ⟨err, hp, -, e⟩ | ⟨-, -, -, e⟩ | ⟨-, -, -, e⟩ <;> rw [e] at h ⊢
  · exact absurd (h.symm.trans h0) (by decide)
  · exact ⟨(not_busy_iff s).2 hp, rfl⟩
  · cases h
  · cases h

/-- An access ends no command. -/
theorem exec_stays_busy {i : Instr} {s t : State} (h : exec i s = .next t) (hb : s.busy = true) : t.busy = true := by
  obtain ⟨r, he⟩ := exec_busy i hb
  obtain rfl := Host.Outcome.next.inj (he.symm.trans h)
  exact hb

/-- An access raises DONE only as a write of CMD that fails its check, while idle (R242). -/
theorem exec_done {i : Instr} {s t : State} (h : exec i s = .next t) (h0 : s.done = false) (h1 : t.done = true) :
    (i = .convScalar ∨ i = .convVector ∨ ∃ v, i = .wrCmd v) ∧ s.busy = false ∧ t.busy = false := by
  rcases exec_command_or_hostSide i s with ⟨hi, v, he⟩ | ⟨r, he⟩ <;>
    obtain rfl := Host.Outcome.next.inj (he.symm.trans h)
  · exact ⟨hi, presentCommand_done h0 h1⟩
  · exact absurd ((hostUpdate_done h1).symm.trans h0) (by decide)

/-- A turn of the engine, scheduled or not: it leaves the flags, or it completes the running command. -/
theorem engineTurn_status {s u t : State}
    (hu : u = s ∨ ∃ rest, s.schedule = .engine :: rest ∧ u = { s with schedule := rest })
    (h : (u.inReset = true ∧ t = u) ∨ (u.inReset = false ∧ engineStep u = .next t)) :
    (t.busy = s.busy ∧ t.done = s.done) ∨ (s.busy = true ∧ t.busy = false ∧ t.done = true) := by
  obtain ⟨hb, hd⟩ : u.busy = s.busy ∧ u.done = s.done := by
    rcases hu with rfl | ⟨rest, -, rfl⟩ <;> exact ⟨rfl, rfl⟩
  rw [← hb, ← hd]
  rcases h with ⟨-, rfl⟩ | ⟨-, h⟩
  · exact .inl ⟨rfl, rfl⟩
  · rcases engineStep_status h with ⟨h1, h2, -⟩ | ⟨h1, h2, h3, -⟩
    · exact .inl ⟨h1, h2⟩
    · exact .inr ⟨h1, h2, h3⟩

/-- Where BUSY and DONE stay, neither falls nor rises. -/
theorem no_edge_of_status_eq {s t : State} {P Q : Prop} (hb : t.busy = s.busy) (hd : t.done = s.done) :
    (s.busy = true → t.busy = false → P) ∧ (s.done = false → t.done = true → Q) :=
  ⟨fun h1 h2 => absurd (h1.symm.trans (hb.symm.trans h2)) (by decide),
    fun h1 h2 => absurd (h1.symm.trans (hd.symm.trans h2)) (by decide)⟩

/-- Settles O43: of the events of `step_next`, an engine turn completes a running command, an access completes a command
that fails its check, and reset drops what runs. -/
theorem onlyCompletionsEndCommands : Obligations.OnlyCompletionsEndCommands := by
  unfold Obligations.OnlyCompletionsEndCommands
  intro s t h
  rcases step_next h with ⟨hturn, u, hu, hstep⟩ | ⟨a, rest, i, hs, -, hf, he⟩ | ⟨a, b, rest, -, -, -, -, rfl⟩
    | ⟨a, rest, w, -, rfl⟩ | ⟨b, rest, hs, rfl⟩
  · rcases engineTurn_status hu hstep with ⟨hb, hd⟩ | ⟨hb, hb', hd⟩
    · exact no_edge_of_status_eq hb hd
    · exact ⟨fun _ _ => .inl hd, fun _ _ => ⟨hb', .inl ⟨hb, hturn⟩⟩⟩
  · refine ⟨fun h1 h2 => absurd ((exec_stays_busy he h1).symm.trans h2) (by decide), fun h1 h2 => ?_⟩
    obtain ⟨hi, hb, hb'⟩ := exec_done he h1 h2
    exact ⟨hb', .inr ⟨hb, commandIsNext_of_fetch hs hf hi⟩⟩
  · exact no_edge_of_status_eq rfl rfl
  · exact no_edge_of_status_eq rfl rfl
  · refine ⟨fun _ _ => .inr ?_, nofun⟩
    rw [hs]
    cases b
    · exact .inr rfl
    · exact .inl rfl

/-- An idle engine's step changes nothing (R253). -/
theorem engineStep_of_idle {s : State} (hp : s.phase = .idle) : engineStep s = .next s := by
  simp [engineStep, hp]

/-- Settles O44: an idle engine's turn changes nothing, and of the host's events only a write of CMD changes the phase. -/
theorem idleIsLeftByAcceptanceOnly : Obligations.IdleIsLeftByAcceptanceOnly := by
  unfold Obligations.IdleIsLeftByAcceptanceOnly
  intro s t hp h
  rcases step_next h with ⟨-, u, hu, hstep⟩ | ⟨a, rest, i, hs, -, hf, he⟩ | ⟨a, b, rest, -, -, -, -, rfl⟩
    | ⟨a, rest, w, -, rfl⟩ | ⟨b, rest, -, rfl⟩
  · obtain ⟨hpu, htrace⟩ : u.phase = .idle ∧ u.busTrace = s.busTrace := by
      rcases hu with rfl | ⟨rest, -, rfl⟩ <;> exact ⟨hp, rfl⟩
    obtain rfl : t = u := by
      rcases hstep with ⟨-, e⟩ | ⟨-, e⟩
      · exact e
      · exact (Host.Outcome.next.inj ((engineStep_of_idle hpu).symm.trans e)).symm
    exact ⟨htrace, fun hne => absurd hpu hne⟩
  · obtain ⟨-, htrace, -⟩ := exec_environment he
    refine ⟨htrace, fun hne => ?_⟩
    rcases exec_command_or_hostSide i { s with schedule := rest } with ⟨hi, -⟩ | ⟨r, e⟩
    · exact commandIsNext_of_fetch hs hf hi
    · obtain rfl := Host.Outcome.next.inj (e.symm.trans he)
      exact absurd hp hne
  · exact ⟨rfl, fun hne => absurd hp hne⟩
  · exact ⟨rfl, fun hne => absurd hp hne⟩
  · exact ⟨rfl, fun hne => absurd rfl hne⟩

/-! ### Every running command completes -/

theorem firstStop_outside {s : State} {xs : List MemAccess} {b : Nat} (h : firstStop s xs = .outside b) :
    ∃ a ∈ xs, Config.memoryBytes < a.addr + 4 := by
  induction xs with
  | nil => cases h
  | cons a xs ih =>
    simp only [firstStop] at h
    split at h
    · obtain ⟨c, hc, hr⟩ := ih h
      exact ⟨c, List.mem_cons_of_mem _ hc, hr⟩
    · cases h
    · next hp => exact ⟨a, List.mem_cons_self, (portAnswer_of_outside hp).2⟩

/-- The regions of a running command lie in memory (20_memory.md R80; R235). -/
theorem inMemory_of_inRegions {s : State} (hi : Inv s) (hb : s.busy = true) {a : MemAccess} (ha : InRegions s a) :
    a.addr + 4 ≤ Config.memoryBytes := by
  obtain ⟨-, -, -, -, -, -, hx, hh, hy, -⟩ := check_none (hi.busy_checked hb)
  obtain ⟨-, ha⟩ := ha
  simp only [Config.memoryBytes]
  split at ha <;> omega

/-- An engine step of a safe run answers a next state: its accesses are answered, or the first error response ends the
command (70_reset_and_hazards.md R284). -/
theorem Inv.engineStep_answers {s : State} (hi : Inv s) : ∃ t, engineStep s = .next t := by
  by_cases hidle : s.phase = .idle
  · exact ⟨s, engineStep_of_idle hidle⟩
  have hb := (busy_iff s).2 hidle
  cases hstop : firstStop s (stepAccesses s) with
  | busError b =>
    obtain ⟨sacc, acc, h⟩ := engineStep_of_busError hstop
    exact ⟨_, h⟩
  | outside b =>
    obtain ⟨a, ha, hout⟩ := firstStop_outside hstop
    have hin := inMemory_of_inRegions hi hb (stepAccesses_inRegions hi a ha)
    omega
  | ok _ =>
    have hans := firstStop_ok hstop
    cases hp : s.phase with
    | idle => exact absurd hp hidle
    | pack =>
      obtain ⟨ho, -⟩ := hi.pack_position hp
      rw [stepAccesses_of_pack hp ho] at hans
      exact ⟨_, (engineStep_of_pack hp ho).trans (packStep_of_answered hans)⟩
    | conv =>
      cases ho : s.lOp with
      | scalar => exact ⟨_, scalarElementStepWritesTheSum s hp ho (stepAccesses_of_scalar hp ho ▸ hans)⟩
      | vector =>
        obtain ⟨acc, -, h⟩ := vectorElementStepWritesTheReduction s hp ho (stepAccesses_of_vector hp ho ▸ hans)
        exact ⟨_, h⟩
      | illegal => exact absurd ho (check_none (hi.busy_checked hb)).1

theorem stepsLeft_of_idle {s : State} (hp : s.phase = .idle) : stepsLeft s = 0 := by simp [stepsLeft, hp]

theorem stepsLeft_of_pack {s : State} (hp : s.phase = .pack) :
    stepsLeft s = (mPad s - s.pi) + (s.lN.toNat - s.lM.toNat + 1) := by simp [stepsLeft, hp]

theorem stepsLeft_of_conv {s : State} (hp : s.phase = .conv) : stepsLeft s = s.lN.toNat - s.n := by
  simp [stepsLeft, hp]

/-- A running command has a step to make. -/
theorem Inv.stepsLeft_pos {s : State} (hi : Inv s) (hb : s.busy = true) : 0 < stepsLeft s := by
  cases hp : s.phase with
  | idle => exact absurd hp ((busy_iff s).1 hb)
  | pack =>
    rw [stepsLeft_of_pack hp]
    omega
  | conv =>
    obtain ⟨-, hn, -⟩ := hi.conv_position hp
    rw [stepsLeft_of_conv hp]
    omega

/-- A command does not run while reset is asserted (70_reset_and_hazards.md R270). -/
theorem Inv.running_of_busy {s : State} (hi : Inv s) (hb : s.busy = true) : s.inReset = false := by
  by_contra hr
  have hreset := hi.held_in_reset (by simpa using hr)
  rw [hreset] at hb
  cases hb

@[simp] theorem mPad_packTap (v : Word) (s : State) : mPad (packTap v s) = mPad s := by
  rw [mPad, packTap_lM, mPad]

/-- A packed tap leaves one step fewer: the next tap, or the first output element. -/
theorem stepsLeft_packTap_lt {s : State} (hi : Inv s) (hp : s.phase = .pack) (v : Word) :
    stepsLeft (packTap v s) < stepsLeft s := by
  obtain ⟨-, hM, hMN, -⟩ := check_none (hi.busy_checked ((busy_iff s).2 (by rw [hp]; decide)))
  obtain ⟨-, hpi, -⟩ := hi.pack_position hp
  rcases packTap_cases v s with ⟨-, e⟩ | ⟨-, e⟩
  · rw [stepsLeft_of_conv (congrArg State.phase e), stepsLeft_of_pack hp, congrArg State.n e, packTap_lN]
    dsimp only
    omega
  · rw [stepsLeft_of_pack ((congrArg State.phase e).trans hp), stepsLeft_of_pack hp, packTap_pi, packTap_lN,
      packTap_lM, mPad_packTap]
    omega

/-- An engine step of a running command leaves fewer steps to make. -/
theorem stepsLeft_lt_of_engineStep {s t : State} (hi : Inv s) (hb : s.busy = true) (h : engineStep s = .next t) :
    stepsLeft t < stepsLeft s := by
  have hpos := hi.stepsLeft_pos hb
  rcases engineStep_cases h with ⟨hp, -⟩ | ⟨hp, -, rfl⟩ | ⟨-, _, _, _, _, rfl⟩ | ⟨-, -, -, -, _, _, _, _, rfl⟩
    | ⟨hp, -, -, -, _, _, _, _, rfl⟩
  · exact absurd hp ((busy_iff s).1 hb)
  · exact stepsLeft_packTap_lt (hi.record (hi.running_of_busy hb) _) hp _
  · exact hpos
  · exact hpos
  · obtain ⟨-, hn, -⟩ := hi.conv_position hp
    refine lt_of_eq_of_lt (stepsLeft_of_conv hp) ?_
    rw [stepsLeft_of_conv hp]
    dsimp only
    omega

/-- A turn of the engine brings a running command nearer to its completion, or completes it. -/
theorem Inv.engineTurn {s : State} {es : List Event} (hi : Inv s) (hb : s.busy = true) (hs : s.schedule = .engine :: es) :
    ∃ t, step s = .next t ∧ Inv t ∧ t.schedule = es
      ∧ ((t.busy = false ∧ t.done = true) ∨ (t.busy = true ∧ stepsLeft t < stepsLeft s)) := by
  have hi' : Inv { s with schedule := es } := hi.setEnvironment es hi.mem_wf s.hostRead
  have hr : State.inReset { s with schedule := es } = false := hi.running_of_busy hb
  obtain ⟨t, ht⟩ := hi'.engineStep_answers
  refine ⟨t, ?_, engineStep_keeps_inv hi' hr ht, ?_, ?_⟩
  · rw [step_engine hs, runEngine_running hr, ht]
  · rw [engineStep_frame ht]
    rfl
  · rcases engineStep_status ht with ⟨hbt, -, -⟩ | ⟨-, hbt, hd, -⟩
    · exact .inr ⟨hbt.trans hb, stepsLeft_lt_of_engineStep (s := { s with schedule := es }) hi' hb ht⟩
    · exact .inl ⟨hbt, hd⟩

/-- Within as many turns of the engine as its steps left, and any more that the schedule gives, a running command
completes. -/
theorem Inv.completes {turns : Nat} {s : State} {rest : List Event} (hi : Inv s) (hb : s.busy = true)
    (hs : s.schedule = List.replicate turns .engine ++ rest) (hk : stepsLeft s ≤ turns) :
    ∃ k t, 1 ≤ k ∧ k ≤ turns ∧ runSteps k s = .next t ∧ t.busy = false ∧ t.done = true := by
  induction turns generalizing s with
  | zero => exact absurd (hi.stepsLeft_pos hb) (by omega)
  | succ turns ih =>
    obtain ⟨t, hstep, hit, hst, ⟨hbt, hd⟩ | ⟨hbt, hlt⟩⟩ := hi.engineTurn hb hs
    · exact ⟨1, t, le_rfl, by omega, runSteps_step hstep 0, hbt, hd⟩
    · obtain ⟨k, u, -, hk', hrun, hu⟩ := ih hit hbt hst (by omega)
      exact ⟨1 + k, u, by omega, by omega, (runSteps_step hstep k).trans hrun, hu⟩

/-- Settles O38, by induction on the engine's turns: each leaves fewer steps than turns, or completes the command. -/
theorem everyRunningCommandCompletes : Obligations.EveryRunningCommandCompletes := by
  unfold Obligations.EveryRunningCommandCompletes
  intro s rest hi hb hs
  exact hi.completes hb hs le_rfl

end Sys2Proof.Machine

/-! PROOFS. Reset and hazards (70_reset_and_hazards.md R270 to R285): the elements a reset leaves written, the accesses that
breach the host's duty, and the progress of the engine. -/

namespace Sys2Proof.Machine

/-! ### The elements written before a reset -/

section
variable {c t : State} {value : Nat → Word} {turns : Nat} {es : List Event}

/-- Turns of the engine up to the last element write an element each, whether or not the command then completes. -/
theorem ConvRun.turns_write (h : ConvRun c value t) (hw : WritesItsElements c value)
    (hs : t.schedule = List.replicate turns .engine ++ es) (hle : t.n + turns ≤ c.lN.toNat) :
    ∃ u, runSteps turns t = .next u ∧ u.schedule = es
      ∧ ElementsWritten c.mem c.lY.toNat (c.lM.toNat - 1) (t.n + turns) value u.mem := by
  rcases hle.lt_or_eq with hdue | hlast
  · obtain ⟨u, hsteps, hsched, hn, hu⟩ := h.engineTurns hw hs hdue
    exact ⟨u, hsteps, hsched, hn ▸ hu.written⟩
  · obtain ⟨-, hn, -⟩ := h.inv.conv_position h.conv
    obtain ⟨-, -, -, -, hlN, -⟩ := h.latched
    rw [hlN] at hn
    obtain ⟨k, rfl⟩ := Nat.exists_eq_add_one_of_ne_zero (n := turns) (by omega)
    obtain ⟨u, hsteps, hsched, hu⟩ := h.completes hw hs hlast
    exact ⟨u, hsteps, hsched, hlast ▸ hu.written⟩

/-- Turns of the engine from the start of the packing write no element while they pack, and one each after that (R194). -/
theorem PackRun.turns_write (h : PackRun c 0 c) (he : NoBusErrors c)
    (hs : c.schedule = List.replicate turns .engine ++ es)
    (hle : c.lM.toNat - 1 + (turns - mPad c) ≤ c.lN.toNat) :
    ∃ u, runSteps turns c = .next u ∧ u.schedule = es
      ∧ ElementsWritten c.mem c.lY.toNat (c.lM.toNat - 1) (c.lM.toNat - 1 + (turns - mPad c))
        (vectorValue c.mem c.lX.toNat c.lH.toNat c.lM.toNat) u.mem := by
  rcases Nat.le_total turns (mPad c) with hpacking | hpacked
  · obtain ⟨u, hsteps, hsched, hu⟩ := h.engineTurns he hs (by omega)
    obtain ⟨-, -, -, -, -, hmem, -⟩ := hu.kept
    rw [Nat.sub_eq_zero_of_le hpacking]
    exact ⟨u, hsteps, hsched, hmem ▸ ElementsWritten.none ..⟩
  · obtain ⟨j, rfl⟩ := Nat.exists_eq_add_of_le hpacked
    rw [Nat.add_sub_cancel_left] at hle ⊢
    rw [List.replicate_add, List.append_assoc] at hs
    obtain ⟨t, hpack, hsched, ht⟩ := h.engineTurns he hs (by omega)
    rw [Nat.zero_add] at ht
    obtain ⟨-, -, hlY, hlN, hlM, hmem, -⟩ := ht.kept
    obtain ⟨hrun, hw⟩ := ht.convRun he
    obtain ⟨u, hsteps, hes, hu⟩ := hrun.turns_write hw hsched (by rw [ht.entry rfl, hlN]; exact hle)
    rw [ht.entry rfl, hlY, hlM, hmem] at hu
    exact ⟨u, (runSteps_append hpack j).trans hsteps, hes, hu⟩

end

section
variable {s : State} {turns : Nat} {es : List Event}

/-- The CMD write of a CONV_SCALAR and some turns of the engine write as many elements as there are turns. -/
theorem scalarCommand_turns_write (hp : s.phase = .idle) (hr : s.inReset = false) (hwf : s.mem.wf = true)
    (he : NoBusErrors s) (hc : checkLatched (latchCommand .scalar s) = none)
    (hs : s.schedule = .access (accessOfFrame s.platform (encode .convScalar)) :: (List.replicate turns .engine ++ es))
    (hle : s.mReg.toNat - 1 + turns ≤ s.nReg.toNat) :
    ∃ t, runSteps (1 + turns) s = .next t ∧ t.schedule = es
      ∧ ElementsWritten s.mem s.yAddr.toNat (s.mReg.toNat - 1) (s.mReg.toNat - 1 + turns)
        (scalarValue s.mem s.xAddr.toNat s.hAddr.toNat s.mReg.toNat) t.mem := by
  have hstart := step_convScalar hp hr hs hc
  obtain ⟨hrun, hw⟩ := scalarStart_convRun
    (s := { s with schedule := List.replicate turns .engine ++ es }) hr hwf he hc
  obtain ⟨t, hsteps, ht⟩ := hrun.turns_write hw rfl hle
  exact ⟨t, (runSteps_step hstart turns).trans hsteps, ht⟩

/-- The CMD write of a CONV_VECTOR and some turns of the engine write as many elements as there are turns behind the
M_pad pack steps. -/
theorem vectorCommand_turns_write (hp : s.phase = .idle) (hr : s.inReset = false) (hwf : s.mem.wf = true)
    (he : NoBusErrors s) (hc : checkLatched (latchCommand .vector s) = none)
    (hs : s.schedule = .access (accessOfFrame s.platform (encode .convVector)) :: (List.replicate turns .engine ++ es))
    (hle : s.mReg.toNat - 1 + (turns - ceil8 s.mReg.toNat) ≤ s.nReg.toNat) :
    ∃ t, runSteps (1 + turns) s = .next t ∧ t.schedule = es
      ∧ ElementsWritten s.mem s.yAddr.toNat (s.mReg.toNat - 1) (s.mReg.toNat - 1 + (turns - ceil8 s.mReg.toNat))
        (vectorValue s.mem s.xAddr.toNat s.hAddr.toNat s.mReg.toNat) t.mem := by
  have hstart := step_convVector hp hr hs hc
  have hpack := vectorStart_packRun (s := { s with schedule := List.replicate turns .engine ++ es }) hr hwf hc
  obtain ⟨t, hsteps, ht⟩ := hpack.turns_write he rfl hle
  exact ⟨t, (runSteps_step hstart turns).trans hsteps, ht⟩

end

/-- Settles O39: the turns before the reset write the first elements, and the edge of reset keeps memory and gives
every register its reset value. -/
theorem resetLeavesAPrefixWritten : Obligations.ResetLeavesAPrefixWritten := by
  unfold Obligations.ResetLeavesAPrefixWritten
  intro s i op packs turns rest hcommand hp hr hwf he hc hturns hs
  obtain ⟨-, hM, hMN, -⟩ := check_none hc
  have hle : s.mReg.toNat - 1 + (turns - packs) ≤ s.nReg.toNat := by omega
  have hcommandRun : ∃ t, runSteps (1 + turns) s = .next t ∧ t.schedule = .resetAssert :: rest
      ∧ ElementsWritten s.mem s.yAddr.toNat (s.mReg.toNat - 1) (s.mReg.toNat - 1 + (turns - packs))
        (fun n => if op = .scalar then scalarValue s.mem s.xAddr.toNat s.hAddr.toNat s.mReg.toNat n
          else vectorValue s.mem s.xAddr.toNat s.hAddr.toNat s.mReg.toNat n) t.mem := by
    rcases hcommand with ⟨rfl, rfl, rfl⟩ | ⟨rfl, rfl, rfl⟩
    · simp only [reduceIte]
      exact scalarCommand_turns_write hp hr hwf he hc hs hle
    · simp only [reduceCtorEq, reduceIte]
      exact vectorCommand_turns_write hp hr hwf he hc hs hle
  obtain ⟨t, hsteps, hsched, hwritten⟩ := hcommandRun
  exact ⟨resetBlock true { t with schedule := rest }, (runSteps_snoc hsteps).trans (step_reset (b := true) hsched),
    ctrlWord_resetBlock _ _, statusWord_resetBlock _ _, rfl, rfl, rfl, rfl, rfl, rfl, rfl, rfl, rfl,
    hwritten.element, hwritten.other⟩

/-! ### The host's duty -/

theorem inRunningInput_iff (s : State) (a : Nat) :
    inRunningInput s a = true ↔ s.phase ≠ .idle ∧
      (s.lX.toNat ≤ a ∧ a < s.lX.toNat + 4 * s.lN.toNat ∨ s.lH.toNat ≤ a ∧ a < s.lH.toNat + 4 * s.lM.toNat) := by
  simp [inRunningInput, State.busy]

theorem inPendingOutput_iff (s : State) (a : Nat) :
    inPendingOutput s a = true ↔ s.phase ≠ .idle ∧
      s.lY.toNat + 4 * (s.lM.toNat - 1 + s.outCount.toNat) ≤ a ∧ a < s.lY.toNat + 4 * s.lN.toNat := by
  simp [inPendingOutput, State.busy]

section
variable {s : State} {rest : List Event} {a : Nat} {v : Byte}

/-- The host's write of a byte of system memory (R280 (a), (b)). -/
theorem step_hostStore (ha : a < Config.memoryBytes) (hs : s.schedule = .hostStore a v :: rest) :
    step s =
      if inRunningInput s a then .refused (.hostWritesInput a)
      else if inPendingOutput s a then .refused (.hostTouchesOutput a)
      else .next { s with schedule := rest, mem := s.mem.writeByte a v } := by
  unfold step
  rw [hs]
  exact if_neg (Nat.not_le.2 ha)

/-- The host's read of a byte of system memory (R280 (b)). -/
theorem step_hostLoad (ha : a < Config.memoryBytes) (hs : s.schedule = .hostLoad a :: rest) :
    step s =
      if inPendingOutput s a then .refused (.hostTouchesOutput a)
      else .next { s with schedule := rest, hostRead := (s.mem.readByte a).setWidth 32 } := by
  unfold step
  rw [hs]
  exact if_neg (Nat.not_le.2 ha)

/-- A register access while reset is asserted (R280 (f)). -/
theorem fetchAccess_inReset (hr : s.inReset = true) (b : HostAccess) : fetchAccess s b = .error .accessInReset :=
  if_pos hr

end

/-- Settles O50: each breach is one test of the host's access, and past them the byte is written or read. -/
theorem hostDutyBreachesAreRefused : Obligations.HostDutyBreachesAreRefused := by
  unfold Obligations.HostDutyBreachesAreRefused
  intro s rest a v ha
  refine ⟨?_, fun b hs hr => step_access_refused hs (fetchAccess_inReset hr b)⟩
  simp only [← inRunningInput_iff, ← inPendingOutput_iff]
  refine ⟨fun hs => ?_, fun hs => ?_⟩
  · rw [step_hostStore ha hs]
    refine ⟨fun hin => if_pos hin, fun hin hout => ?_, fun hin hout => ?_⟩
    · rw [if_neg hin, if_pos hout]
    · rw [if_neg hin, if_neg hout]
  · rw [step_hostLoad ha hs, BitVec.ofNat_toNat]
    exact ⟨fun hout => if_pos hout, fun hout => if_neg hout⟩

/-! ### The engine's progress -/

/-- Settles O35: the step of a safe run answers, and a running command has fewer steps left after it. -/
theorem engineAlwaysMakesProgress : Obligations.EngineAlwaysMakesProgress := by
  unfold Obligations.EngineAlwaysMakesProgress
  intro s hi
  obtain ⟨t, ht⟩ := hi.engineStep_answers
  exact ⟨t, ht, fun hb => stepsLeft_lt_of_engineStep hi hb ht⟩

end Sys2Proof.Machine
